-- ==== Sys2Proof/Laws/SafePrime.lean ====
section
/-! SUPPORT. Sys2Proof/Laws/SafePrime.lean: one safe prime of more than 768 bits, so that Config can show that the
constraints of 00_scope.md R8 are met by some group. It is not a deployment group (00_scope.md R9). -/

namespace Sys2Proof.SafePrime

/-- `x` squared `n` times modulo `m`. -/
def squareTimes (m : Nat) : Nat → Nat → Nat
  | 0, x => x
  | n + 1, x => squareTimes m n (x * x % m)

theorem squareTimes_cast (m : Nat) :
    ∀ n x : Nat, ((squareTimes m n x : Nat) : ZMod m) = (x : ZMod m) ^ (2 ^ n)
  | 0, x => by simp [squareTimes]
  | n + 1, x => by
    rw [squareTimes, squareTimes_cast m n, ZMod.natCast_mod, pow_succ 2 n, mul_comm (2 ^ n) 2, pow_mul]
    push_cast
    rw [pow_two]

/-- The subgroup order of the witness: 19873·2^762 + 1. -/
@[irreducible] def q : Nat := 19873 * 2 ^ 762 + 1

/-- The witness prime: 2q + 1, of 778 bits. -/
@[irreducible] def p : Nat := 2 * q + 1

/-- `3^(c·2^n) mod q`, in a form the kernel evaluates. -/
def powQ (c n : Nat) : Nat := squareTimes q n (3 ^ c % q)

theorem powQ_cast (c n : Nat) : ((powQ c n : Nat) : ZMod q) = (3 : ZMod q) ^ (c * 2 ^ n) := by
  rw [powQ, squareTimes_cast, ZMod.natCast_mod, pow_mul, Nat.cast_pow, Nat.cast_ofNat]

theorem q_pos : 1 < q := by decide +kernel

theorem p_pos : 1 < p := by decide +kernel

theorem cast_ne_one {x : Nat} (h : x % q ≠ 1) : ((x : Nat) : ZMod q) ≠ 1 := by
  intro hx
  have : ((x : Nat) : ZMod q) = ((1 : Nat) : ZMod q) := by simpa using hx
  rw [ZMod.natCast_eq_natCast_iff] at this
  exact h (Eq.trans this (Nat.mod_eq_of_lt q_pos))

theorem q_eq : q = 19873 * 2 ^ 762 + 1 := by decide +kernel

theorem q_sub_one : q - 1 = 19873 * 2 ^ 762 := Nat.sub_eq_of_eq_add q_eq

theorem prime_factor_of_q_sub_one {r : Nat} (hr : r.Prime) (hd : r ∣ q - 1) :
    r = 2 ∨ r = 7 ∨ r = 17 ∨ r = 167 := by
  rw [q_sub_one, show 19873 = 7 * 17 * 167 by norm_num] at hd
  rcases hr.dvd_mul.1 hd with h | h
  · rcases hr.dvd_mul.1 h with h | h
    · rcases hr.dvd_mul.1 h with h | h
      · exact .inr (.inl ((Nat.prime_dvd_prime_iff_eq hr (by norm_num)).1 h))
      · exact .inr (.inr (.inl ((Nat.prime_dvd_prime_iff_eq hr (by norm_num)).1 h)))
    · exact .inr (.inr (.inr ((Nat.prime_dvd_prime_iff_eq hr (by norm_num)).1 h)))
  · exact .inl ((Nat.prime_dvd_prime_iff_eq hr Nat.prime_two).1 (hr.dvd_of_dvd_pow h))

theorem powQ_full : powQ 19873 762 = 1 := by decide +kernel
theorem powQ_half : powQ 19873 761 % q ≠ 1 := by decide +kernel
theorem powQ_seventh : powQ 2839 762 % q ≠ 1 := by decide +kernel
theorem powQ_seventeenth : powQ 1169 762 % q ≠ 1 := by decide +kernel
theorem powQ_167th : powQ 119 762 % q ≠ 1 := by decide +kernel

/-- `q` is prime: Lucas's test with the base 3. -/
theorem q_prime : q.Prime := by
  refine lucas_primality q 3 ?_ ?_
  · rw [q_sub_one, ← powQ_cast, powQ_full, Nat.cast_one]
  · intro r hr hd
    rcases prime_factor_of_q_sub_one hr hd with rfl | rfl | rfl | rfl
    · rw [show (q - 1) / 2 = 19873 * 2 ^ 761 by decide +kernel, ← powQ_cast]
      exact cast_ne_one powQ_half
    · rw [show (q - 1) / 7 = 2839 * 2 ^ 762 by decide +kernel, ← powQ_cast]
      exact cast_ne_one powQ_seventh
    · rw [show (q - 1) / 17 = 1169 * 2 ^ 762 by decide +kernel, ← powQ_cast]
      exact cast_ne_one powQ_seventeenth
    · rw [show (q - 1) / 167 = 119 * 2 ^ 762 by decide +kernel, ← powQ_cast]
      exact cast_ne_one powQ_167th

/-- `2^q mod p`: `q = 19873·2^762 + 1`, so it is `2^(19873·2^762)` times 2. -/
def twoPowQ : Nat := squareTimes p 762 (2 ^ 19873 % p) * 2 % p

theorem twoPowQ_value : twoPowQ = p - 1 := by decide +kernel

theorem twoPowQ_cast : ((twoPowQ : Nat) : ZMod p) = (2 : ZMod p) ^ q := by
  rw [twoPowQ, ZMod.natCast_mod, Nat.cast_mul, squareTimes_cast, ZMod.natCast_mod, q_eq, Nat.cast_pow,
    Nat.cast_ofNat, ← pow_mul, ← pow_succ]

theorem p_two_pow_q : (2 : ZMod p) ^ q = -1 := by
  rw [← twoPowQ_cast, twoPowQ_value, Nat.cast_sub (by decide +kernel)]
  simp

/-- `p` is prime: Lucas's test with the base 2; the prime factors of `p - 1 = 2q` are 2 and `q`. -/
theorem p_prime : p.Prime := by
  have hp1 : p - 1 = q * 2 := by decide +kernel
  refine lucas_primality p 2 ?_ ?_
  · rw [hp1, pow_mul, p_two_pow_q]
    norm_num
  · intro r hr hd
    rw [hp1] at hd ⊢
    rcases hr.dvd_mul.1 hd with h | h
    · obtain rfl : r = q := (Nat.prime_dvd_prime_iff_eq hr q_prime).1 h
      rw [Nat.mul_div_cancel_left 2 (by decide +kernel)]
      intro h4
      have : ((4 : Nat) : ZMod p) = ((1 : Nat) : ZMod p) := by
        have h22 : (2 : ZMod p) ^ 2 = 4 := by norm_num
        simpa [h22] using h4
      rw [ZMod.natCast_eq_natCast_iff] at this
      exact absurd this (by decide +kernel)
    · obtain rfl : r = 2 := (Nat.prime_dvd_prime_iff_eq hr Nat.prime_two).1 h
      rw [Nat.mul_div_cancel q (by norm_num), p_two_pow_q]
      intro h1
      have : ((p - 1 : Nat) : ZMod p) = ((1 : Nat) : ZMod p) := by
        rw [Nat.cast_sub (by decide +kernel)]
        simpa using h1
      rw [ZMod.natCast_eq_natCast_iff] at this
      exact absurd this (by decide +kernel)

/-- 4 has order `q` modulo `p`. -/
theorem four_pow_q : 4 ^ q % p = 1 := by
  have h : ((4 ^ q : Nat) : ZMod p) = ((1 : Nat) : ZMod p) := by
    have h22 : (4 : ZMod p) = 2 ^ 2 := by norm_num
    push_cast
    rw [h22, ← pow_mul, mul_comm, pow_mul, p_two_pow_q]
    norm_num
  rw [ZMod.natCast_eq_natCast_iff] at h
  exact Eq.trans h (Nat.mod_eq_of_lt p_pos)

end Sys2Proof.SafePrime
end

