-- ==== Sys2Proof/Word.lean ====
section
/-! DEFINITION. Sys2Proof/Word.lean: the word types of the block (00_scope.md R13, R14). -/

namespace Sys2Proof

/-- A 32-bit word: a register, a command word, a bus value (10_state.md R22), a SHA-256 word (42_sha256.md R170). -/
abbrev Word := BitVec 32

/-- One byte of DBUF (20_memory.md R62). -/
abbrev Byte := BitVec 8

/-- A byte string (00_scope.md R14): byte 0 is the head. -/
abbrev Bytes := List Byte

end Sys2Proof
end

