-- ==== Sys2Proof/Config.lean ====
section
/-! DEFINITION. Sys2Proof/Config.lean: the implementation parameters of 00_scope.md R8 and the free RNG oracle of R12.
Nothing here is state; no command or host access changes it. -/

namespace Sys2Proof

/-- The parameters a deployment fixes (00_scope.md R8) and those of the platform's integration
(70_reset_and_hazards.md R304), which no rule constrains. Every meaning of the model is written over these as an
argument, so it can also be run at the toy group of 95_test_vectors.md. -/
structure Params where
  /-- The group prime `p`. -/
  p : Nat
  /-- The generator `g`. -/
  g : Nat
  /-- `BUF_BYTES`, the size of DBUF. -/
  bufBytes : Nat
  /-- `BC_E(k, b)`, the block permutation (44_cbc_pkcs7.md R215). -/
  bcE : Bytes → Bytes → Bytes
  /-- `BC_D(k, c)`, its inverse. -/
  bcD : Bytes → Bytes → Bytes
  /-- `BASE`, the bus address of the block's window (20_memory.md R60, 70_reset_and_hazards.md R304). -/
  base : Nat
  /-- `IRQ_LINE`, the input of the platform's interrupt controller that `irq` drives (60_exceptions.md R280, log 10). -/
  irqLine : Nat
  /-- `ACCESS_POLICY`, which bus masters may reach the block's port (60_exceptions.md R285, log 10). -/
  accessPolicy : Nat → Bool

namespace Params

variable (P : Params)

/-- `q = (p-1)/2`, the subgroup order (00_scope.md R8). -/
def q : Nat := (P.p - 1) / 2

/-- `NBITS = bitlen(p)` (00_scope.md R8), for `p > 0`. -/
def nbits : Nat := Nat.log2 P.p + 1

/-- `LP = ceil(NBITS / 8)`, the byte width of `p` and of every big-integer operand (00_scope.md R8). -/
def lp : Nat := (P.nbits + 7) / 8

/-- `LADDER_BITS = 8 * LP` (00_scope.md R8). -/
def ladderBits : Nat := 8 * P.lp

/-- The constraints of 00_scope.md R8, R10 and the law of 44_cbc_pkcs7.md R215, and nothing else (00_scope.md R9). -/
structure Admissible : Prop where
  /-- `p` is a safe prime: it is prime … -/
  p_prime : P.p.Prime
  /-- … and so is `(p-1)/2`. -/
  q_prime : P.q.Prime
  /-- `1 < g < p`. -/
  one_lt_g : 1 < P.g
  g_lt_p : P.g < P.p
  /-- `g^q mod p = 1`. -/
  g_order : P.g ^ P.q % P.p = 1
  /-- `NBITS ≥ 769`. -/
  nbits_ge : 769 ≤ P.nbits
  /-- `LP ≤ 1024`. -/
  lp_le : P.lp ≤ 1024
  /-- `BUF_BYTES` is a multiple of 4 with `max(512, 4*LP) ≤ BUF_BYTES ≤ 65536`. -/
  buf_mul_four : P.bufBytes % 4 = 0
  buf_ge : max 512 (4 * P.lp) ≤ P.bufBytes
  buf_le : P.bufBytes ≤ 65536
  /-- A 32-byte key and a 16-byte block give a 16-byte block, in both directions. -/
  bcE_length : ∀ k b, k.length = 32 → b.length = 16 → (P.bcE k b).length = 16
  bcD_length : ∀ k b, k.length = 32 → b.length = 16 → (P.bcD k b).length = 16
  /-- `BC_D k (BC_E k b) = b`. -/
  bc_inverse : ∀ k b, k.length = 32 → b.length = 16 → P.bcD k (P.bcE k b) = b

end Params

/-- A configuration that meets the constraints. -/
def Deployment : Type := { P : Params // P.Admissible }

/-- One group and buffer that meet the constraints, to show that they can be met. It is used for nothing else: no
theorem can identify `Config.deployment` with it. -/
def sampleParams : Params where
  p := SafePrime.p
  g := 4
  bufBytes := 4096
  bcE := fun _ b => b
  bcD := fun _ b => b
  base := 0
  irqLine := 0
  accessPolicy := fun _ => true

/-- A prime `2n + 1` has `q = n`. -/
theorem Params.q_of_p_eq {P : Params} {n : Nat} (h : P.p = 2 * n + 1) : P.q = n := by
  unfold Params.q
  omega

theorem sampleParams_p : sampleParams.p = SafePrime.p := rfl

theorem sampleParams_g : sampleParams.g = 4 := rfl

theorem safePrime_p : SafePrime.p = 2 * SafePrime.q + 1 := by decide +kernel

theorem sampleParams_q : sampleParams.q = SafePrime.q :=
  Params.q_of_p_eq (sampleParams_p.trans safePrime_p)

theorem sampleParams_admissible : sampleParams.Admissible where
  p_prime := SafePrime.p_prime
  q_prime := by rw [sampleParams_q]; exact SafePrime.q_prime
  one_lt_g := by decide
  g_lt_p := by decide +kernel
  g_order := by rw [sampleParams_q, sampleParams_g, sampleParams_p]; exact SafePrime.four_pow_q
  nbits_ge := by decide +kernel
  lp_le := by decide +kernel
  buf_mul_four := by decide
  buf_ge := by decide +kernel
  buf_le := by decide
  bcE_length := fun _ _ _ h => h
  bcD_length := fun _ _ _ h => h
  bc_inverse := fun _ _ _ _ => rfl

namespace Config

/-- The parameters of the deployed block. NO BODY: all that can be proved of it is that it is admissible. The binder
says only that some admissible configuration exists (log 1). -/
opaque deployment [Inhabited Deployment] : Deployment

/-- The RNG oracle's free answers (00_scope.md R12): what the `k`-th draw gets where the environment supplies no answer
in `State.rng`; `none` is Fail. NO BODY (log 4). -/
opaque rng : Nat → Option Nat

/-- The deployed parameters (00_scope.md R8). -/
def params : Params := (@deployment ⟨⟨sampleParams, sampleParams_admissible⟩⟩).val

/-- All that is known of the deployed parameters. -/
theorem params_admissible : params.Admissible := (@deployment ⟨⟨sampleParams, sampleParams_admissible⟩⟩).property

end Config

end Sys2Proof
end

