-- ==== Sys2Proof/Syntax.lean ====
section
/-! DEFINITION. Sys2Proof/Syntax.lean: the nine commands of TRC-1 (30_encoding.md R91). -/

namespace Sys2Proof

/-- A command. The command word has no operand field (30_encoding.md R90): the operands are named by the latched
descriptor, so every constructor is a plain name. -/
inductive Instr where
  /-- MODEXP, 0x01 (41_modexp.md R144). -/
  | modexp
  /-- MODEXP_INV, 0x02 (41_modexp.md R145). -/
  | modexpInv
  /-- MODMUL, 0x03 (41_modexp.md R146). -/
  | modmul
  /-- GEN_EXP, 0x04 (41_modexp.md R147). -/
  | genExp
  /-- SHA256, 0x10 (42_sha256.md R177). -/
  | sha256
  /-- SHA256_COMPRESS, 0x11 (42_sha256.md R178). -/
  | sha256Compress
  /-- HMAC_SHA256, 0x20 (43_hmac.md R201). -/
  | hmacSha256
  /-- CBC_ENCRYPT, 0x30 (44_cbc_pkcs7.md R224). -/
  | cbcEncrypt
  /-- CBC_DECRYPT, 0x31 (44_cbc_pkcs7.md R225). -/
  | cbcDecrypt
deriving DecidableEq, Repr

end Sys2Proof
end

