-- ==== Sys2Proof/WellFormed.lean ====
section
/-! DEFINITION. Sys2Proof/WellFormed.lean: which commands and which command words are well formed
(30_encoding.md R90, R91, R96). -/

namespace Sys2Proof

/-- A command term has no field to check (30_encoding.md R90: no register fields, no immediates), so each one is
well formed. -/
def Instr.wellFormed : Instr → Bool
  | .modexp => true
  | .modexpInv => true
  | .modmul => true
  | .genExp => true
  | .sha256 => true
  | .sha256Compress => true
  | .hmacSha256 => true
  | .cbcEncrypt => true
  | .cbcDecrypt => true

/-- RSVD, bits 31:8 of the command word, is zero (30_encoding.md R90). -/
def reservedBitsZero (w : Word) : Bool := w.toNat / 256 == 0

/-- OPCODE, bits 7:0, lies outside every illegal range that 30_encoding.md R96 lists: 0x00, 0x05–0x0F, 0x12–0x1F,
0x21–0x2F, 0x32–0xFF. -/
def opcodeAssigned (w : Word) : Bool :=
  let op := w.toNat % 256
  !(op == 0 || (0x05 ≤ op && op ≤ 0x0F) || (0x12 ≤ op && op ≤ 0x1F) || (0x21 ≤ op && op ≤ 0x2F) || 0x32 ≤ op)

/-- A command word that names a command: R96 lists the words that do not. The decoder is written from R92 instead,
so that the two can be compared. -/
def wellFormedWord (w : Word) : Bool := reservedBitsZero w && opcodeAssigned w

end Sys2Proof
end

