-- ==== Sys2Proof/Decode.lean ====
section
/-! DEFINITION. Sys2Proof/Decode.lean: decoding and encoding of command words (30_encoding.md R90–R92, R96). -/

namespace Sys2Proof

/-- Why a command word is ILLEGAL (30_encoding.md R92, R96). Both kinds behave alike: the command completes with
ILLEGAL_CMD. -/
inductive IllegalWord where
  /-- `w[31:8] ≠ 0`. -/
  | reservedBits
  /-- `w[31:8] = 0` and `w[7:0]` is not in the opcode map. -/
  | unassignedOpcode
deriving DecidableEq, Repr

/-- OPCODE, bits 7:0 of the command word (30_encoding.md R90). -/
def opcodeField (w : Word) : Byte := w.extractLsb' 0 8

/-- RSVD, bits 31:8 of the command word (30_encoding.md R90). -/
def reservedField (w : Word) : BitVec 24 := w.extractLsb' 8 24

/-- The opcode map read from an OPCODE field (30_encoding.md R91). -/
def decodeOpcode (op : Byte) : Except IllegalWord Instr :=
  if op = 0x01 then .ok .modexp
  else if op = 0x02 then .ok .modexpInv
  else if op = 0x03 then .ok .modmul
  else if op = 0x04 then .ok .genExp
  else if op = 0x10 then .ok .sha256
  else if op = 0x11 then .ok .sha256Compress
  else if op = 0x20 then .ok .hmacSha256
  else if op = 0x30 then .ok .cbcEncrypt
  else if op = 0x31 then .ok .cbcDecrypt
  else .error .unassignedOpcode

/-- `Decode(w)` of 30_encoding.md R92: total on all 2^32 words. -/
def decode (w : Word) : Except IllegalWord Instr :=
  if reservedField w ≠ 0 then .error .reservedBits else decodeOpcode (opcodeField w)

/-- The OPCODE of each command (30_encoding.md R91). -/
def opcode : Instr → Byte
  | .modexp => 0x01
  | .modexpInv => 0x02
  | .modmul => 0x03
  | .genExp => 0x04
  | .sha256 => 0x10
  | .sha256Compress => 0x11
  | .hmacSha256 => 0x20
  | .cbcEncrypt => 0x30
  | .cbcDecrypt => 0x31

/-- The one word of a command: RSVD = 0, OPCODE in bits 7:0 (30_encoding.md R90). -/
def encode (i : Instr) : Word := (0 : BitVec 24) ++ opcode i

/-- The command read from a command word given as a number of `nbits` bits, every higher bit 0. A command word is
exactly 32 bits (30_encoding.md R90), so a longer one names no command. -/
def decodeTableWord (nbits w : Nat) : Option Instr :=
  if nbits ≤ 32 then
    match decode (BitVec.ofNat 32 (w % 2 ^ nbits)) with
    | .ok i => some i
    | .error _ => none
  else none

end Sys2Proof
end

