-- ==== Sys2Proof/Machine/State.lean ====
section
/-! DEFINITION. Sys2Proof/Machine/State.lean: the state of the block as 10_state.md R20 gives it, the moves of its
environment, the reasons a step can stop, and the state after reset. -/

namespace Sys2Proof.Machine

/-- A descriptor: the command word and the six descriptor registers as latched at acceptance (10_state.md R20, R36). -/
structure Descriptor where
  cmd : Word
  src0Addr : Word
  src0Len : Word
  src1Addr : Word
  src1Len : Word
  dstAddr : Word
  dstLen : Word
deriving DecidableEq, Repr

/-- The width of a host access: 1, 2 or 4 bytes (20_memory.md R63). -/
inductive Width where
  | byte
  | half
  | word
deriving DecidableEq, Repr

/-- One host access at a byte offset from the block's base (20_memory.md R60, R63). A write's value is carried as a bus
word; an access of `w` bytes uses its low `8·w` bits (log 12). -/
inductive Access where
  | read (off : Nat) (w : Width)
  | write (off : Nat) (w : Width) (v : Word)
deriving DecidableEq, Repr

/-- The bus response to a host access (20_memory.md R63). -/
inductive Response where
  | okay
  | slverr
deriving DecidableEq, Repr

/-- What the host gets back: the response and, for a read, the data (20_memory.md R63, R64). A write's data is 0. -/
structure Reply where
  resp : Response
  data : Word
deriving DecidableEq, Repr

/-- One move: a host access, a turn of the engine (40_command_execution.md R111) or a hardware reset by the platform
(70_reset_and_hazards.md R300). A host access comes to the block's port by its offset, or from a bus master, with the bus
address in the place of the offset (20_memory.md R60, log 10). -/
inductive Turn where
  | host (a : Access)
  | bus (master : Nat) (a : Access)
  | engine
  | reset
deriving DecidableEq, Repr

/-- DBUF as a sparse list of (offset, byte) pairs: offsets strictly rising, no byte equal to what an unlisted offset
reads as (`unlistedByte`). -/
abbrev Memory := List Host.Cell

/-- The error codes of 60_exceptions.md R270, without OK. -/
inductive ErrCode where
  | illegalCmd
  | format
  | length
  | bounds
  | overlap
  | range
  | decryptFailed
  | entropy
deriving DecidableEq, Repr

/-- What a command comes to (40_command_execution.md R116): its output, or an error code. -/
inductive Result where
  | ok (out : Bytes)
  | err (c : ErrCode)
deriving DecidableEq, Repr

/-- The state of the block (10_state.md R20), and below it the moves and answers of its environment, which are the
model's own fields (log 2, log 4, log 5). -/
structure State where
  /-- CTRL[1] (R26). -/
  irqEn : Bool
  /-- STATUS[0] (R27). -/
  busy : Bool
  /-- STATUS[1] (R27). -/
  done : Bool
  /-- STATUS[2] (R27). -/
  fatal : Bool
  /-- STATUS[3] (R27). -/
  cmdOvr : Bool
  /-- STATUS[4] (R27). -/
  accErr : Bool
  /-- STATUS[15:8] (R27). -/
  errcode : Byte
  /-- CMD (R28). -/
  cmd : Word
  /-- SRC0_ADDR (R30). -/
  src0Addr : Word
  /-- SRC0_LEN (R30). -/
  src0Len : Word
  /-- SRC1_ADDR (R30). -/
  src1Addr : Word
  /-- SRC1_LEN (R30). -/
  src1Len : Word
  /-- DST_ADDR (R30). -/
  dstAddr : Word
  /-- DST_LEN (R30). -/
  dstLen : Word
  /-- OUT_LEN (R31). -/
  outLen : Word
  /-- The latched descriptor (R36). -/
  latched : Option Descriptor
  /-- DBUF (20_memory.md R62). -/
  dbuf : Memory
  /-- The model's own: the moves still to come, in the order the interleaving puts them (log 2). -/
  turns : List Turn
  /-- The model's own: the port's answer to the latest host access (log 5). -/
  reply : Option Reply
  /-- The model's own: the RNG oracle's answers to the next draws, `none` for Fail (log 4). -/
  rng : List (Option Nat)
  /-- The model's own: how many draws have been answered (log 4). -/
  draws : Nat
deriving DecidableEq, Repr

/-- Why the model stops a step. -/
inductive Fault where
  /-- The engine's step was asked for in a state with no latched descriptor. Raised by `runCommand`, `runDrawing`,
  `runIllegal` and `fetch`; no run reaches such a state, because busy = 1 exactly when a descriptor is latched
  (10_state.md R20). SAFE: the hardware has no such state (log 7). -/
  | noCommandInFlight
deriving DecidableEq, Repr

/-- Why the model gives an instruction no meaning. -/
inductive Refusal where
  /-- The instruction has no meaning in the model yet. No arm of `exec` answers with it. SAFE. -/
  | notModelled (mnemonic : String)
deriving DecidableEq, Repr

/-- The block right after a hardware reset (10_state.md R41), with no move scheduled, no reply given and no oracle
answer supplied or used (the model's own fields: log 2, log 4, log 5). -/
def State.reset : State where
  irqEn := false
  busy := false
  done := false
  fatal := false
  cmdOvr := false
  accErr := false
  errcode := 0x00
  cmd := 0
  src0Addr := 0
  src0Len := 0
  src1Addr := 0
  src1Len := 0
  dstAddr := 0
  dstLen := 0
  outLen := 0
  latched := none
  dbuf := []
  turns := []
  reply := none
  rng := []
  draws := 0

end Sys2Proof.Machine
end

