-- ==== Sys2Proof/Machine/Bytes.lean ====
section
/-! DEFINITION. Sys2Proof/Machine/Bytes.lean: byte strings and their integers (00_scope.md R14) and the named operations
over DBUF (20_memory.md R62; `MemRead`, `MemWrite` of 00_scope.md R15). -/

namespace Sys2Proof.Machine

/-- `be2int(s)`: a big-endian integer (00_scope.md R14). -/
def be2int (s : Bytes) : Nat := s.foldl (fun acc b => acc * 256 + b.toNat) 0

/-- `int2be_n(x)`: the `n`-byte big-endian string of `x < 256^n` (00_scope.md R14). -/
def int2be : Nat → Nat → Bytes
  | 0, _ => []
  | n + 1, x => BitVec.ofNat 8 (x / 256 ^ n) :: int2be n x

/-- `be32(s)`: a big-endian 32-bit word (00_scope.md R14). -/
def be32 (s : Bytes) : Word := BitVec.ofNat 32 (be2int s)

/-- Bytewise XOR of two byte strings of equal length (00_scope.md R14). -/
def xorBytes (x y : Bytes) : Bytes := x.zipWith (· ^^^ ·) y

/-- The first `m` blocks of `n` bytes of a byte string: `s[n·j .. n·j+n)` for `j = 0 .. m-1`. -/
def blocks (n : Nat) : Nat → Bytes → List Bytes
  | 0, _ => []
  | m + 1, s => s.take n :: blocks n m (s.drop n)

/-- What a DBUF byte reads as where the memory list has no entry: 0x00, its value after any reset (20_memory.md R62,
10_state.md R41). -/
def unlistedByte : Byte := 0x00

/-- The byte of DBUF at offset `a`. -/
def readByte : Memory → Nat → Byte
  | [], _ => unlistedByte
  | (k, v) :: rest, a => if k = a then v else readByte rest a

/-- DBUF with byte `a` replaced by `b`, in canonical form: the value an unlisted offset reads as is not listed. -/
def writeByte : Memory → Nat → Byte → Memory
  | [], a, b => if b = unlistedByte then [] else [(a, b)]
  | (k, v) :: rest, a, b =>
    if a < k then if b = unlistedByte then (k, v) :: rest else (a, b) :: (k, v) :: rest
    else if a = k then if b = unlistedByte then rest else (a, b) :: rest
    else (k, v) :: writeByte rest a b

/-- `MemRead(a, n)`: the byte string `DBUF[a..a+n)` (00_scope.md R15). -/
def memRead (m : Memory) : Nat → Nat → Bytes
  | _, 0 => []
  | a, n + 1 => readByte m a :: memRead m (a + 1) n

/-- `MemWrite(a, n, v)`: the bytes of `v` written from offset `a` up (00_scope.md R15). -/
def memWrite : Memory → Nat → Bytes → Memory
  | m, _, [] => m
  | m, a, b :: bs => memWrite (writeByte m a b) (a + 1) bs

/-- The offsets of a memory list rise strictly from `lo`, and no listed byte is what an unlisted one reads as. -/
def wfFrom (lo : Nat) : Memory → Bool
  | [] => true
  | (k, v) :: rest => decide (lo ≤ k) && decide (v ≠ unlistedByte) && wfFrom (k + 1) rest

/-- The memory list is in canonical form. -/
def Memory.wf (m : Memory) : Bool := wfFrom 0 m

/-- Every listed offset lies below `n` (20_memory.md R62: DBUF has `BUF_BYTES` bytes). -/
def Memory.below (n : Nat) (m : Memory) : Bool := m.all fun c => decide (c.1 < n)

end Sys2Proof.Machine
end

