-- ==== Sys2Proof/Machine/Flags.lean ====
section
/-! DEFINITION. Sys2Proof/Machine/Flags.lean: the STATUS and CTRL words, the result codes and the interrupt output
(10_state.md R26, R27, R39; 60_exceptions.md R270, R280). -/

namespace Sys2Proof.Machine

/-- The numbers of the error codes (60_exceptions.md R270). -/
def errNumber : ErrCode → Byte
  | .illegalCmd => 0x01
  | .format => 0x02
  | .length => 0x03
  | .bounds => 0x04
  | .overlap => 0x05
  | .range => 0x06
  | .decryptFailed => 0x07
  | .entropy => 0x08

/-- The code a completion writes for OK (60_exceptions.md R270). -/
def okNumber : Byte := 0x00

/-- One flag as a word. -/
def flagWord (b : Bool) : Word := if b then 1 else 0

/-- What a read of STATUS returns (10_state.md R27). -/
def statusWord (s : State) : Word :=
  flagWord s.busy ||| flagWord s.done <<< 1 ||| flagWord s.fatal <<< 2 ||| flagWord s.cmdOvr <<< 3
    ||| flagWord s.accErr <<< 4 ||| s.errcode.setWidth 32 <<< 8

/-- A write of `v` to STATUS: 1 clears DONE, CMD_OVR or ACC_ERR, and nothing else changes (10_state.md R27). -/
def clearStatus (v : Word) (s : State) : State :=
  { s with
    done := s.done && !v.getLsbD 1
    cmdOvr := s.cmdOvr && !v.getLsbD 3
    accErr := s.accErr && !v.getLsbD 4 }

/-- What a read of CTRL returns: bit 0 reads 0 (10_state.md R26). -/
def ctrlWord (s : State) : Word := flagWord s.irqEn <<< 1

/-- The interrupt output, a level (10_state.md R39, 60_exceptions.md R280). -/
def irq (s : State) : Bool := s.done && s.irqEn

/-- The level the block drives on input `n` of the platform's interrupt controller: `irq` on IRQ_LINE, nothing elsewhere
(60_exceptions.md R280, log 10). -/
def irqInput (P : Params) (n : Nat) (s : State) : Bool := decide (n = P.irqLine) && irq s

end Sys2Proof.Machine
end

