-- ==== Sys2Proof/Machine/Operands.lean ====
section
/-! DEFINITION. Sys2Proof/Machine/Operands.lean: region arithmetic (20_memory.md R75), the operand slots of each command
(30_encoding.md R93) and the ordered checks before a command's own computation (40_command_execution.md R117). -/

namespace Sys2Proof.Machine

/-- A region of DBUF: a byte offset and a length, unbounded naturals (20_memory.md R75). -/
structure Region where
  addr : Nat
  len : Nat
deriving DecidableEq, Repr

/-- A region is in bounds: `addr + len ≤ BUF_BYTES`, with no wrap-around (20_memory.md R75). -/
def inBounds (P : Params) (r : Region) : Bool := decide (r.addr + r.len ≤ P.bufBytes)

/-- Two regions share a byte: `a1 < a2 + l2` and `a2 < a1 + l1`, and neither is empty, so that a zero-length region
overlaps nothing (20_memory.md R75). -/
def overlaps (x y : Region) : Bool :=
  decide (x.len ≠ 0) && decide (y.len ≠ 0) && decide (x.addr < y.addr + y.len) && decide (y.addr < x.addr + x.len)

/-- What 30_encoding.md R93 asks of a source slot's length register. -/
inductive LenRule where
  /-- "—": the register is neither checked nor read (R94). -/
  | unused
  /-- FIX(n). -/
  | fixed (n : Nat)
  /-- ANY, and the record length of CBC_DECRYPT, which the FORMAT step checks. -/
  | any
deriving DecidableEq, Repr

/-- The SRC0 column of 30_encoding.md R93. -/
def src0Rule (P : Params) : Instr → LenRule
  | .modexp => .fixed P.lp
  | .modexpInv => .fixed P.lp
  | .modmul => .fixed P.lp
  | .genExp => .unused
  | .sha256 => .any
  | .sha256Compress => .fixed 64
  | .hmacSha256 => .any
  | .cbcEncrypt => .any
  | .cbcDecrypt => .any

/-- The SRC1 column of 30_encoding.md R93. -/
def src1Rule (P : Params) : Instr → LenRule
  | .modexp => .fixed P.lp
  | .modexpInv => .fixed P.lp
  | .modmul => .fixed P.lp
  | .genExp => .unused
  | .sha256 => .unused
  | .sha256Compress => .fixed 32
  | .hmacSha256 => .fixed 64
  | .cbcEncrypt => .fixed 96
  | .cbcDecrypt => .fixed 96

/-- The length of the record CBC_ENCRYPT makes of `n` bytes: `48 + 16·(floor(n/16) + 1)` (30_encoding.md R93,
44_cbc_pkcs7.md R230). -/
def recordLength (n : Nat) : Nat := 48 + 16 * (n / 16 + 1)

/-- DSTMAX (30_encoding.md R93), on unbounded naturals. -/
def dstMax (P : Params) (i : Instr) (L : Descriptor) : Nat :=
  match i with
  | .modexp => P.lp
  | .modexpInv => P.lp
  | .modmul => P.lp
  | .genExp => P.lp
  | .sha256 => 32
  | .sha256Compress => 32
  | .hmacSha256 => 32
  | .cbcEncrypt => recordLength L.src0Len.toNat
  | .cbcDecrypt => L.src0Len.toNat - 49

/-- A length register meets its rule. -/
def lenOk : LenRule → Word → Bool
  | .unused, _ => true
  | .fixed n, len => decide (len.toNat = n)
  | .any, _ => true

/-- The region of a source slot, none where the command has no such slot (30_encoding.md R93, R94). -/
def sourceRegion : LenRule → Word → Word → Option Region
  | .unused, _, _ => none
  | .fixed _, addr, len => some ⟨addr.toNat, len.toNat⟩
  | .any, addr, len => some ⟨addr.toNat, len.toNat⟩

/-- The source regions a command uses. -/
def sources (P : Params) (i : Instr) (L : Descriptor) : List Region :=
  (sourceRegion (src0Rule P i) L.src0Addr L.src0Len).toList ++ (sourceRegion (src1Rule P i) L.src1Addr L.src1Len).toList

/-- The destination region that is checked: `(DST_ADDR, DSTMAX)` (40_command_execution.md R117). -/
def destination (P : Params) (i : Instr) (L : Descriptor) : Region := ⟨L.dstAddr.toNat, dstMax P i L⟩

/-- A CipherRecord of `R` bytes is well formed: `R ≥ 64` and `(R − 48) mod 16 = 0` (44_cbc_pkcs7.md R220). -/
def recordOk (R : Nat) : Bool := decide (64 ≤ R) && decide ((R - 48) % 16 = 0)

/-- Step 2 of 40_command_execution.md R117. -/
def formatOk (i : Instr) (L : Descriptor) : Bool :=
  match i with
  | .modexp => true
  | .modexpInv => true
  | .modmul => true
  | .genExp => true
  | .sha256 => true
  | .sha256Compress => true
  | .hmacSha256 => true
  | .cbcEncrypt => true
  | .cbcDecrypt => recordOk L.src0Len.toNat

/-- Step 3 of 40_command_execution.md R117: the FIX(n) slots, and `DST_LEN ≥ DSTMAX`. -/
def lengthsOk (P : Params) (i : Instr) (L : Descriptor) : Bool :=
  lenOk (src0Rule P i) L.src0Len && lenOk (src1Rule P i) L.src1Len && decide (dstMax P i L ≤ L.dstLen.toNat)

/-- Step 4 of 40_command_execution.md R117: every source region and the destination are in bounds. -/
def boundsOk (P : Params) (i : Instr) (L : Descriptor) : Bool :=
  (sources P i L).all (inBounds P) && inBounds P (destination P i L)

/-- Step 5 of 40_command_execution.md R117: the destination is disjoint from every source. -/
def disjointOk (P : Params) (i : Instr) (L : Descriptor) : Bool :=
  (sources P i L).all fun r => !overlaps (destination P i L) r

/-- Steps 0 and 2 to 5 of 40_command_execution.md R117, for a word that decodes to `i`: the first failure, if any. -/
def checks (P : Params) (i : Instr) (fatal : Bool) (L : Descriptor) : Option ErrCode :=
  if fatal then some .entropy
  else if !formatOk i L then some .format
  else if !lengthsOk P i L then some .length
  else if !boundsOk P i L then some .bounds
  else if !disjointOk P i L then some .overlap
  else none

end Sys2Proof.Machine
end

