-- ==== Sys2Proof/Machine/Ops.lean ====
section
/-! DEFINITION. Sys2Proof/Machine/Ops.lean: the life of a command: issue, acceptance, overrun, the checks, the draw, the
completion (40_command_execution.md R113–R119), the resets (70_reset_and_hazards.md R300, R302), and whose move it is. The
block has no trap and no trap return (60_exceptions.md R276, R277): a failing command ends in `complete` with an error
code, the one shared operation that stands where another machine has an exception entry. -/

namespace Sys2Proof.Machine

/-! ## Issue and acceptance -/

/-- The descriptor that accepting `v` latches: `v` and the current descriptor registers (40_command_execution.md R114). -/
def descriptorOf (v : Word) (s : State) : Descriptor where
  cmd := v
  src0Addr := s.src0Addr
  src0Len := s.src0Len
  src1Addr := s.src1Addr
  src1Len := s.src1Len
  dstAddr := s.dstAddr
  dstLen := s.dstLen

/-- `Accept(v)` (40_command_execution.md R114). -/
def accept (v : Word) (s : State) : State :=
  { s with
    cmd := v
    latched := some (descriptorOf v s)
    busy := true
    done := false
    errcode := okNumber
    outLen := 0 }

/-- `CmdOverrun()` (40_command_execution.md R115). -/
def cmdOverrun (s : State) : State := { s with cmdOvr := true }

/-- `IssueCommand(v)`, a host write of `v` to CMD (40_command_execution.md R113). -/
def issueCommand (v : Word) (s : State) : State := if s.busy then cmdOverrun s else accept v s

/-! ## Completion -/

/-- `Complete` (40_command_execution.md R118) for a command latched as `L` whose result is `r`. On an error DBUF keeps
every byte (R119), and ENTROPY sets FATAL (60_exceptions.md R272). -/
def complete (L : Descriptor) (r : Result) (s : State) : State :=
  match r with
  | .ok out =>
    { s with
      dbuf := memWrite s.dbuf L.dstAddr.toNat out
      outLen := BitVec.ofNat 32 out.length
      errcode := okNumber
      done := true
      busy := false
      latched := none }
  | .err c =>
    { s with
      outLen := 0
      errcode := errNumber c
      fatal := s.fatal || decide (c = .entropy)
      done := true
      busy := false
      latched := none }

/-- The RNG oracle's answer to the next draw, `none` for Fail, and the state after it (00_scope.md R12, R15): the
answer the environment supplies, or else the free one (log 4). -/
def draw (s : State) : Option Nat × State :=
  match s.rng with
  | a :: rest => (a, { s with rng := rest, draws := s.draws + 1 })
  | [] => (Config.rng s.draws, { s with draws := s.draws + 1 })

/-- A drawn exponent: the answer `n` as a value of `[1, q-1]` (00_scope.md R12, 41_modexp.md R147). Every value of that
range is the value of some answer (log 4). -/
def drawnExponent (P : Params) (n : Nat) : Nat := 1 + n % (P.q - 1)

/-- 16 drawn bytes: the answer `n` as a byte string. Every 16-byte string is the value of some answer
(00_scope.md R12, log 4). -/
def drawnBlock (n : Nat) : Bytes := int2be 16 n

/-- `Exec` (40_command_execution.md R117) and the completion for a command that draws nothing: the checks, then the
command's own computation `body` over the latched descriptor and DBUF. -/
def runCommand (P : Params) (i : Instr) (body : Descriptor → Memory → Result) (s : State) :
    Host.Outcome State Fault Refusal :=
  match s.latched with
  | none => .fault .noCommandInFlight
  | some L => .next
    (match checks P i s.fatal L with
    | some c => complete L (.err c) s
    | none => complete L (body L s.dbuf) s)

/-- The same for a command that makes one draw, after every check has passed (44_cbc_pkcs7.md R224); a Fail answer is
`Err(ENTROPY)` (00_scope.md R15). -/
def runDrawing (P : Params) (i : Instr) (body : Descriptor → Memory → Nat → Result) (s : State) :
    Host.Outcome State Fault Refusal :=
  match s.latched with
  | none => .fault .noCommandInFlight
  | some L => .next
    (match checks P i s.fatal L with
    | some c => complete L (.err c) s
    | none =>
      match draw s with
      | (none, s') => complete L (.err .entropy) s'
      | (some n, s') => complete L (body L s.dbuf n) s')

/-- The completion of an ILLEGAL word: ENTROPY under FATAL, else ILLEGAL_CMD (40_command_execution.md R117 steps 0 and
1, 30_encoding.md R92). -/
def runIllegal (s : State) : Host.Outcome State Fault Refusal :=
  match s.latched with
  | none => .fault .noCommandInFlight
  | some L => .next (complete L (.err (if s.fatal then .entropy else .illegalCmd)) s)

/-! ## Resets -/

/-- `HardwareReset()` (70_reset_and_hazards.md R300, 10_state.md R41): every piece of the block's state takes its reset
value; the moves still to come, the last reply and the oracle's answers are the environment's and stay (log 6). -/
def hardwareReset (s : State) : State :=
  { State.reset with turns := s.turns, reply := s.reply, rng := s.rng, draws := s.draws }

/-- `SoftReset()` (70_reset_and_hazards.md R302): nothing while busy; else everything but FATAL takes its reset value. -/
def softReset (s : State) : State :=
  if s.busy then s
  else
    { s with
      irqEn := false
      done := false
      cmdOvr := false
      accErr := false
      errcode := 0x00
      cmd := 0
      src0Addr := 0
      src0Len := 0
      src1Addr := 0
      src1Len := 0
      dstAddr := 0
      dstLen := 0
      outLen := 0
      dbuf := [] }

/-! ## Whose move it is -/

/-- The offset in the block's port space of a bus address that `master` uses, none where ACCESS_POLICY keeps the master
from the port or the address lies below BASE (20_memory.md R60, 60_exceptions.md R285, log 10). -/
def portOffset (P : Params) (master addr : Nat) : Option Nat :=
  if P.accessPolicy master = true ∧ P.base ≤ addr then some (addr - P.base) else none

/-- The access at the block's port that a bus master's access by address becomes, if it reaches the port. -/
def reach (P : Params) (master : Nat) : Access → Option Access
  | .read addr w => (portOffset P master addr).map fun off => .read off w
  | .write addr w v => (portOffset P master addr).map fun off => .write off w v

/-- What the next step does. -/
inductive Move where
  /-- A host access. -/
  | host (a : Access)
  /-- The engine completes the command in flight. -/
  | complete
  /-- A hardware reset. -/
  | reset
  /-- Nothing happens: the engine has the turn and is idle, or the idle block waits for the host, or a bus access does
  not reach the port. -/
  | idle
deriving DecidableEq, Repr

/-- The next move and the state from which it is made. The engine's step is enabled exactly when `busy = 1`
(40_command_execution.md R111). Where no move is scheduled, a command in flight completes (70_reset_and_hazards.md R312,
log 3) and an idle block waits. -/
def nextMove (s : State) : Move × State :=
  match s.turns with
  | [] => (if s.busy then .complete else .idle, s)
  | t :: rest =>
    let s' := { s with turns := rest }
    match t with
    | .host a => (.host a, s')
    | .bus master a =>
      match reach Config.params master a with
      | some a' => (.host a', s')
      | none => (.idle, s')
    | .engine => (if s.busy then .complete else .idle, s')
    | .reset => (.reset, s')

/-- The command word the engine runs: that of the latched descriptor (10_state.md R36, 20_memory.md R81). -/
def fetch (s : State) : Except Fault Word :=
  match s.latched with
  | none => .error .noCommandInFlight
  | some L => .ok L.cmd

/-- What the fetch of a command word needs: the word accepted as a host write of CMD to an idle block would be, and the
engine's turn next (log 8). -/
def placeCommand (w : Word) (s : State) : State :=
  { accept w s with turns := .engine :: s.turns }

end Sys2Proof.Machine
end

