-- ==== Sys2Proof/Machine/Sha256.lean ====
section
/-! DEFINITION. Sys2Proof/Machine/Sha256.lean: SHA256 and SHA256_COMPRESS (42_sha256.md). -/

namespace Sys2Proof.Machine

/-- Eight 32-bit words: a chaining value `H[0..7]`, or the working variables `a` to `h` (42_sha256.md R175). -/
structure HashState where
  a : Word
  b : Word
  c : Word
  d : Word
  e : Word
  f : Word
  g : Word
  h : Word
deriving DecidableEq, Repr

/-- `ROTR(x, n)` for `0 < n < 32` (00_scope.md R13). -/
def rotr (x : Word) (n : Nat) : Word := x >>> n ||| x <<< (32 - n)

/-- `Ch` (42_sha256.md R172). -/
def ch (e f g : Word) : Word := (e &&& f) ^^^ (~~~e &&& g)

/-- `Maj` (42_sha256.md R172). -/
def maj (a b c : Word) : Word := (a &&& b) ^^^ (a &&& c) ^^^ (b &&& c)

/-- `Σ0` (42_sha256.md R172). -/
def bigSigma0 (a : Word) : Word := rotr a 2 ^^^ rotr a 13 ^^^ rotr a 22

/-- `Σ1` (42_sha256.md R172). -/
def bigSigma1 (e : Word) : Word := rotr e 6 ^^^ rotr e 11 ^^^ rotr e 25

/-- `σ0` (42_sha256.md R172). -/
def smallSigma0 (x : Word) : Word := rotr x 7 ^^^ rotr x 18 ^^^ x >>> 3

/-- `σ1` (42_sha256.md R172). -/
def smallSigma1 (x : Word) : Word := rotr x 17 ^^^ rotr x 19 ^^^ x >>> 10

/-- `IV[0..7]` (42_sha256.md R170). -/
def initialHash : HashState :=
  ⟨0x6a09e667, 0xbb67ae85, 0x3c6ef372, 0xa54ff53a, 0x510e527f, 0x9b05688c, 0x1f83d9ab, 0x5be0cd19⟩

/-- `K[0..63]` (42_sha256.md R171). -/
def roundConstants : List Word :=
  [0x428a2f98, 0x71374491, 0xb5c0fbcf, 0xe9b5dba5, 0x3956c25b, 0x59f111f1, 0x923f82a4, 0xab1c5ed5] ++
  [0xd807aa98, 0x12835b01, 0x243185be, 0x550c7dc3, 0x72be5d74, 0x80deb1fe, 0x9bdc06a7, 0xc19bf174] ++
  [0xe49b69c1, 0xefbe4786, 0x0fc19dc6, 0x240ca1cc, 0x2de92c6f, 0x4a7484aa, 0x5cb0a9dc, 0x76f988da] ++
  [0x983e5152, 0xa831c66d, 0xb00327c8, 0xbf597fc7, 0xc6e00bf3, 0xd5a79147, 0x06ca6351, 0x14292967] ++
  [0x27b70a85, 0x2e1b2138, 0x4d2c6dfc, 0x53380d13, 0x650a7354, 0x766a0abb, 0x81c2c92e, 0x92722c85] ++
  [0xa2bfe8a1, 0xa81a664b, 0xc24b8b70, 0xc76c51a3, 0xd192e819, 0xd6990624, 0xf40e3585, 0x106aa070] ++
  [0x19a4c116, 0x1e376c08, 0x2748774c, 0x34b0bcb5, 0x391c0cb3, 0x4ed8aa4a, 0x5b9cca4f, 0x682e6ff3] ++
  [0x748f82ee, 0x78a5636f, 0x84c87814, 0x8cc70208, 0x90befffa, 0xa4506ceb, 0xbef9a3f7, 0xc67178f2]

/-- `Pad(M)`: `M || 0x80 || 0x00^k || int2be_8(8·n)` with `k = (55 − n) mod 64` (42_sha256.md R173). -/
def shaPad (M : Bytes) : Bytes :=
  M ++ 0x80 :: List.replicate ((55 - (M.length : Int)) % 64).toNat 0x00 ++ int2be 8 (8 * M.length)

/-- The first `n` big-endian words of a byte string. -/
def beWords : Nat → Bytes → List Word
  | 0, _ => []
  | n + 1, s => be32 (s.take 4) :: beWords n (s.drop 4)

/-- The next schedule word from the words before it, the latest first:
`W[t] = σ1(W[t−2]) + W[t−7] + σ0(W[t−15]) + W[t−16]` (42_sha256.md R174). -/
def nextScheduleWord (ws : List Word) : Word :=
  smallSigma1 (ws.getD 1 0) + ws.getD 6 0 + smallSigma0 (ws.getD 14 0) + ws.getD 15 0

/-- `n` more schedule words on top of `ws`, the latest first. -/
def extendSchedule : Nat → List Word → List Word
  | 0, ws => ws
  | n + 1, ws => extendSchedule n (nextScheduleWord ws :: ws)

/-- The message schedule `W[0..63]` of a 64-byte block (42_sha256.md R174). -/
def schedule (B : Bytes) : List Word := (extendSchedule 48 (beWords 16 B).reverse).reverse

/-- One round with the constant and schedule word `kw` (42_sha256.md R175). -/
def shaRound (v : HashState) (kw : Word × Word) : HashState :=
  let t1 := v.h + bigSigma1 v.e + ch v.e v.f v.g + kw.1 + kw.2
  let t2 := bigSigma0 v.a + maj v.a v.b v.c
  ⟨t1 + t2, v.a, v.b, v.c, v.d + t1, v.e, v.f, v.g⟩

/-- The final addition of the working variables into the chaining value (42_sha256.md R175). -/
def addHash (x y : HashState) : HashState :=
  ⟨x.a + y.a, x.b + y.b, x.c + y.c, x.d + y.d, x.e + y.e, x.f + y.f, x.g + y.g, x.h + y.h⟩

/-- `Compress(H, B)` (42_sha256.md R175). -/
def compress (H : HashState) (B : Bytes) : HashState :=
  addHash H ((roundConstants.zip (schedule B)).foldl shaRound H)

/-- The big-endian serialization of eight words, 32 bytes (42_sha256.md R176, 20_memory.md R69). -/
def hashBytes (H : HashState) : Bytes :=
  int2be 4 H.a.toNat ++ int2be 4 H.b.toNat ++ int2be 4 H.c.toNat ++ int2be 4 H.d.toNat ++
  int2be 4 H.e.toNat ++ int2be 4 H.f.toNat ++ int2be 4 H.g.toNat ++ int2be 4 H.h.toNat

/-- `H_j = be32(s[4j..4j+4))` for `j = 0 .. 7` (30_encoding.md R95). -/
def hashOfBytes (s : Bytes) : HashState where
  a := be32 (s.take 4)
  b := be32 ((s.drop 4).take 4)
  c := be32 ((s.drop 8).take 4)
  d := be32 ((s.drop 12).take 4)
  e := be32 ((s.drop 16).take 4)
  f := be32 ((s.drop 20).take 4)
  g := be32 ((s.drop 24).take 4)
  h := be32 ((s.drop 28).take 4)

/-- The 64-byte blocks of a padded message. -/
def shaBlocks (M : Bytes) : List Bytes := blocks 64 ((shaPad M).length / 64) (shaPad M)

/-- `SHA256(M)` (42_sha256.md R176). -/
def sha256 (M : Bytes) : Bytes := hashBytes ((shaBlocks M).foldl compress initialHash)

/-- `ExecOp(SHA256)` (42_sha256.md R177). -/
def sha256Result (L : Descriptor) (D : Memory) : Result :=
  .ok (sha256 (memRead D L.src0Addr.toNat L.src0Len.toNat))

/-- `ExecOp(SHA256_COMPRESS)` (42_sha256.md R178). -/
def sha256CompressResult (L : Descriptor) (D : Memory) : Result :=
  .ok (hashBytes (compress (hashOfBytes (memRead D L.src1Addr.toNat 32)) (memRead D L.src0Addr.toNat 64)))

/-- SHA256 at any parameters. -/
def sha256At (P : Params) (s : State) : Host.Outcome State Fault Refusal :=
  runCommand P .sha256 sha256Result s

/-- SHA256_COMPRESS at any parameters. -/
def sha256CompressAt (P : Params) (s : State) : Host.Outcome State Fault Refusal :=
  runCommand P .sha256Compress sha256CompressResult s

/-- SHA256 (42_sha256.md R177). -/
def execSha256 (s : State) : Host.Outcome State Fault Refusal := sha256At Config.params s

/-- SHA256_COMPRESS (42_sha256.md R178). -/
def execSha256Compress (s : State) : Host.Outcome State Fault Refusal := sha256CompressAt Config.params s

end Sys2Proof.Machine
end

