-- ==== Sys2Proof/Machine/Hmac.lean ====
section
/-! DEFINITION. Sys2Proof/Machine/Hmac.lean: HMAC_SHA256 (43_hmac.md). -/

namespace Sys2Proof.Machine

/-- `HMAC(K, M) = SHA256((K XOR 0x5c^64) || SHA256((K XOR 0x36^64) || M))` (43_hmac.md R200). -/
def hmac (K M : Bytes) : Bytes :=
  sha256 (xorBytes K (List.replicate 64 0x5c) ++ sha256 (xorBytes K (List.replicate 64 0x36) ++ M))

/-- `ExecOp(HMAC_SHA256)` (43_hmac.md R201). -/
def hmacResult (L : Descriptor) (D : Memory) : Result :=
  .ok (hmac (memRead D L.src1Addr.toNat 64) (memRead D L.src0Addr.toNat L.src0Len.toNat))

/-- HMAC_SHA256 at any parameters. -/
def hmacSha256At (P : Params) (s : State) : Host.Outcome State Fault Refusal :=
  runCommand P .hmacSha256 hmacResult s

/-- HMAC_SHA256 (43_hmac.md R201). -/
def execHmacSha256 (s : State) : Host.Outcome State Fault Refusal := hmacSha256At Config.params s

end Sys2Proof.Machine
end

