-- ==== Sys2Proof/Machine/Cbc.lean ====
section
/-! DEFINITION. Sys2Proof/Machine/Cbc.lean: CBC_ENCRYPT and CBC_DECRYPT (44_cbc_pkcs7.md). -/

namespace Sys2Proof.Machine

/-- `ck = K[0..32)`, the cipher sub-key of a SymmetricKey (44_cbc_pkcs7.md R216). -/
def cipherKey (K : Bytes) : Bytes := K.take 32

/-- `mk = K[32..96)`, the MAC sub-key (44_cbc_pkcs7.md R216). -/
def macKey (K : Bytes) : Bytes := (K.drop 32).take 64

/-- `Pad16`: `N` copies of the byte `N = 16 − (n mod 16)` appended (44_cbc_pkcs7.md R217). -/
def pad16 (M : Bytes) : Bytes :=
  M ++ List.replicate (16 - M.length % 16) (BitVec.ofNat 8 (16 - M.length % 16))

/-- The loop of `CbcEnc` over plaintext blocks, `prev` being the block before (44_cbc_pkcs7.md R218). -/
def cbcEncBlocks (P : Params) (ck : Bytes) : Bytes → List Bytes → Bytes
  | _, [] => []
  | prev, b :: rest =>
    let c := P.bcE ck (xorBytes prev b)
    c ++ cbcEncBlocks P ck c rest

/-- `CbcEnc(ck, iv, M)` for `M` of `16·m` bytes (44_cbc_pkcs7.md R218). -/
def cbcEnc (P : Params) (ck iv M : Bytes) : Bytes := cbcEncBlocks P ck iv (blocks 16 (M.length / 16) M)

/-- `RecordMac(mk, iv, C) = HMAC(mk, iv || C)`: encrypt-then-MAC (44_cbc_pkcs7.md R219). -/
def recordMac (mk iv C : Bytes) : Bytes := hmac mk (iv ++ C)

/-- `MacEqual`: every byte pair is examined and the differences are OR-ed together (44_cbc_pkcs7.md R221). -/
def macEqual (x y : Bytes) : Bool := decide ((xorBytes x y).foldl (· ||| ·) 0 = (0 : Byte))

/-- The loop of `CbcDec` over ciphertext blocks (44_cbc_pkcs7.md R222). -/
def cbcDecBlocks (P : Params) (ck : Bytes) : Bytes → List Bytes → Bytes
  | _, [] => []
  | prev, c :: rest => xorBytes (P.bcD ck c) prev ++ cbcDecBlocks P ck c rest

/-- `CbcDec(ck, iv, C)` for `C` of `16·m` bytes (44_cbc_pkcs7.md R222). -/
def cbcDec (P : Params) (ck iv C : Bytes) : Bytes := cbcDecBlocks P ck iv (blocks 16 (C.length / 16) C)

/-- `Unpad16`: the last byte `N` must be in `1..16` and the last `N` bytes must all equal it; `none` is invalid
(44_cbc_pkcs7.md R223). -/
def unpad16 (M : Bytes) : Option Bytes :=
  let last := M.getLastD 0
  let n := last.toNat
  if n < 1 ∨ 16 < n then none
  else if (M.drop (M.length - n)).all (fun b => decide (b = last)) then some (M.take (M.length - n))
  else none

/-- The record CBC_ENCRYPT makes: `mac || iv || C` (44_cbc_pkcs7.md R224). -/
def encryptRecord (P : Params) (K iv M : Bytes) : Bytes :=
  let C := cbcEnc P (cipherKey K) iv (pad16 M)
  recordMac (macKey K) iv C ++ iv ++ C

/-- The MAC field of a record, `rec[0..32)` (44_cbc_pkcs7.md R220). -/
def recordMacField (rec : Bytes) : Bytes := rec.take 32

/-- The IV field, `rec[32..48)` (44_cbc_pkcs7.md R220). -/
def recordIv (rec : Bytes) : Bytes := (rec.drop 32).take 16

/-- The ciphertext, `rec[48..R)` (44_cbc_pkcs7.md R220). -/
def recordCiphertext (rec : Bytes) : Bytes := rec.drop 48

/-- The stored MAC of a record matches the one computed from its IV and ciphertext (44_cbc_pkcs7.md R225). -/
def recordAuthentic (K rec : Bytes) : Bool :=
  macEqual (recordMacField rec) (recordMac (macKey K) (recordIv rec) (recordCiphertext rec))

/-- Verify, then decrypt, then validate the padding (44_cbc_pkcs7.md R225, R226); `none` is the one opaque failure
(R227). -/
def decryptRecord (P : Params) (K rec : Bytes) : Option Bytes :=
  if recordAuthentic K rec then unpad16 (cbcDec P (cipherKey K) (recordIv rec) (recordCiphertext rec)) else none

/-- The byte-string operand in SRC0: `MemRead(L.SRC0_ADDR, L.SRC0_LEN)` (30_encoding.md R95). -/
def source0 (L : Descriptor) (D : Memory) : Bytes := memRead D L.src0Addr.toNat L.src0Len.toNat

/-- The SymmetricKey operand in SRC1, 96 bytes (44_cbc_pkcs7.md R224, R225). -/
def symmetricKey (L : Descriptor) (D : Memory) : Bytes := memRead D L.src1Addr.toNat 96

/-- `ExecOp(CBC_ENCRYPT)` with the oracle's answer `n` for the IV (44_cbc_pkcs7.md R224). -/
def cbcEncryptResult (P : Params) (L : Descriptor) (D : Memory) (n : Nat) : Result :=
  .ok (encryptRecord P (symmetricKey L D) (drawnBlock n) (source0 L D))

/-- `ExecOp(CBC_DECRYPT)` (44_cbc_pkcs7.md R225). -/
def cbcDecryptResult (P : Params) (L : Descriptor) (D : Memory) : Result :=
  match decryptRecord P (symmetricKey L D) (source0 L D) with
  | some M => .ok M
  | none => .err .decryptFailed

/-- CBC_ENCRYPT at any parameters. -/
def cbcEncryptAt (P : Params) (s : State) : Host.Outcome State Fault Refusal :=
  runDrawing P .cbcEncrypt (cbcEncryptResult P) s

/-- CBC_DECRYPT at any parameters. -/
def cbcDecryptAt (P : Params) (s : State) : Host.Outcome State Fault Refusal :=
  runCommand P .cbcDecrypt (cbcDecryptResult P) s

/-- CBC_ENCRYPT (44_cbc_pkcs7.md R224). -/
def execCbcEncrypt (s : State) : Host.Outcome State Fault Refusal := cbcEncryptAt Config.params s

/-- CBC_DECRYPT (44_cbc_pkcs7.md R225). -/
def execCbcDecrypt (s : State) : Host.Outcome State Fault Refusal := cbcDecryptAt Config.params s

end Sys2Proof.Machine
end

