-- ==== Sys2Proof/Machine/ModExp.lean ====
section
/-! DEFINITION. Sys2Proof/Machine/ModExp.lean: MODEXP, MODEXP_INV, MODMUL, GEN_EXP (41_modexp.md). -/

namespace Sys2Proof.Machine

/-- `MULMOD(x, y)`: the exact product, reduced modulo `p` (41_modexp.md R142). -/
def mulmod (P : Params) (x y : Nat) : Nat := x * y % P.p

/-- `select(mask, new, old) = old XOR ((old XOR new) & mask)` (00_scope.md R15). -/
def select (mask new old : Nat) : Nat := old ^^^ ((old ^^^ new) &&& mask)

/-- The mask of ladder iteration `i`: ONES where exponent bit `i` is 1, else 0 (41_modexp.md R143). -/
def ladderMask (P : Params) (e i : Nat) : Nat := if e.testBit i then 2 ^ (8 * P.lp) - 1 else 0

/-- The ladder's loop (41_modexp.md R143): `n` iterations from bit position `i`, with the running `result` and `a`. Every
iteration computes both products. -/
def ladderFrom (P : Params) (e : Nat) : Nat → Nat → Nat → Nat → Nat
  | 0, _, result, _ => result
  | n + 1, i, result, a =>
    let squared := mulmod P a a
    let multiplied := mulmod P result a
    ladderFrom P e n (i + 1) (select (ladderMask P e i) multiplied result) squared

/-- `LADDER(base, e)` over all `LADDER_BITS` bit positions, least significant first (41_modexp.md R143). -/
def ladder (P : Params) (base e : Nat) : Nat := ladderFrom P e P.ladderBits 0 1 base

/-- The big-integer operand in SRC0: `be2int(MemRead(L.SRC0_ADDR, LP))` (30_encoding.md R95). -/
def operand0 (P : Params) (L : Descriptor) (D : Memory) : Nat := be2int (memRead D L.src0Addr.toNat P.lp)

/-- The big-integer operand in SRC1 (30_encoding.md R95). -/
def operand1 (P : Params) (L : Descriptor) (D : Memory) : Nat := be2int (memRead D L.src1Addr.toNat P.lp)

/-- `ExecOp(MODEXP)` (41_modexp.md R144). -/
def modexpResult (P : Params) (L : Descriptor) (D : Memory) : Result :=
  if P.p ≤ operand0 P L D then .err .range
  else .ok (int2be P.lp (ladder P (operand0 P L D) (operand1 P L D)))

/-- `ExecOp(MODEXP_INV)`: the base is tested before the exponent (41_modexp.md R145, 60_exceptions.md R273). -/
def modexpInvResult (P : Params) (L : Descriptor) (D : Memory) : Result :=
  if P.p ≤ operand0 P L D then .err .range
  else if operand1 P L D = 0 ∨ P.q ≤ operand1 P L D then .err .range
  else .ok (int2be P.lp (ladder P (operand0 P L D) (P.q - operand1 P L D)))

/-- `ExecOp(MODMUL)` (41_modexp.md R146). -/
def modmulResult (P : Params) (L : Descriptor) (D : Memory) : Result :=
  if P.p ≤ operand0 P L D ∨ P.p ≤ operand1 P L D then .err .range
  else .ok (int2be P.lp (mulmod P (operand0 P L D) (operand1 P L D)))

/-- `ExecOp(GEN_EXP)` with the oracle's answer `n` (41_modexp.md R147); the command reads no operand. -/
def genExpResult (P : Params) (_ : Descriptor) (_ : Memory) (n : Nat) : Result :=
  .ok (int2be P.lp (drawnExponent P n))

/-- MODEXP at any parameters. -/
def modexpAt (P : Params) (s : State) : Host.Outcome State Fault Refusal :=
  runCommand P .modexp (modexpResult P) s

/-- MODEXP_INV at any parameters. -/
def modexpInvAt (P : Params) (s : State) : Host.Outcome State Fault Refusal :=
  runCommand P .modexpInv (modexpInvResult P) s

/-- MODMUL at any parameters. -/
def modmulAt (P : Params) (s : State) : Host.Outcome State Fault Refusal :=
  runCommand P .modmul (modmulResult P) s

/-- GEN_EXP at any parameters. -/
def genExpAt (P : Params) (s : State) : Host.Outcome State Fault Refusal :=
  runDrawing P .genExp (genExpResult P) s

/-- MODEXP (41_modexp.md R144). -/
def execModexp (s : State) : Host.Outcome State Fault Refusal := modexpAt Config.params s

/-- MODEXP_INV (41_modexp.md R145). -/
def execModexpInv (s : State) : Host.Outcome State Fault Refusal := modexpInvAt Config.params s

/-- MODMUL (41_modexp.md R146). -/
def execModmul (s : State) : Host.Outcome State Fault Refusal := modmulAt Config.params s

/-- GEN_EXP (41_modexp.md R147). -/
def execGenExp (s : State) : Host.Outcome State Fault Refusal := genExpAt Config.params s

end Sys2Proof.Machine
end

