-- ==== Sys2Proof/Machine/Dispatch.lean ====
section
/-! DEFINITION. Sys2Proof/Machine/Dispatch.lean: the meaning of each command: the completion of the command in flight,
read as that command (40_command_execution.md R117, R118). -/

namespace Sys2Proof.Machine

-- One arm per command of 30_encoding.md R91.
def exec (i : Instr) (s : State) : Host.Outcome State Fault Refusal :=
  match i with
  | .modexp => Sys2Proof.Machine.execModexp s
  | .modexpInv => Sys2Proof.Machine.execModexpInv s
  | .modmul => Sys2Proof.Machine.execModmul s
  | .genExp => Sys2Proof.Machine.execGenExp s
  | .sha256 => Sys2Proof.Machine.execSha256 s
  | .sha256Compress => Sys2Proof.Machine.execSha256Compress s
  | .hmacSha256 => Sys2Proof.Machine.execHmacSha256 s
  | .cbcEncrypt => Sys2Proof.Machine.execCbcEncrypt s
  | .cbcDecrypt => Sys2Proof.Machine.execCbcDecrypt s

end Sys2Proof.Machine
end

