-- ==== Sys2Proof/Machine/Port.lean ====
section
/-! DEFINITION. Sys2Proof/Machine/Port.lean: the host port: register reads and writes (10_state.md R22–R34), DBUF accesses
and the dispatch by offset (20_memory.md R61, R63–R67). -/

namespace Sys2Proof.Machine

/-- The value of ID (10_state.md R23). -/
def idValue : Word := 0x54520107

/-- `RegRead(off)` (10_state.md R33). -/
def regRead (P : Params) (s : State) (off : Nat) : Word :=
  if off = 0x000 then idValue
  else if off = 0x004 then BitVec.ofNat 32 P.lp
  else if off = 0x008 then BitVec.ofNat 32 P.bufBytes
  else if off = 0x00C then ctrlWord s
  else if off = 0x010 then statusWord s
  else if off = 0x014 then s.cmd
  else if off = 0x018 then s.src0Addr
  else if off = 0x01C then s.src0Len
  else if off = 0x020 then s.src1Addr
  else if off = 0x024 then s.src1Len
  else if off = 0x028 then s.dstAddr
  else if off = 0x02C then s.dstLen
  else if off = 0x030 then s.outLen
  else 0

/-- A write of `v` to CTRL: IRQ_EN first, then the soft reset if bit 0 is set (10_state.md R26). -/
def writeCtrl (v : Word) (s : State) : State :=
  let s' := { s with irqEn := v.getLsbD 1 }
  if v.getLsbD 0 then softReset s' else s'

/-- `RegWrite(off, v)` (10_state.md R34). -/
def regWrite (off : Nat) (v : Word) (s : State) : State :=
  if off = 0x00C then writeCtrl v s
  else if off = 0x010 then clearStatus v s
  else if off = 0x014 then issueCommand v s
  else if off = 0x018 then { s with src0Addr := v }
  else if off = 0x01C then { s with src0Len := v }
  else if off = 0x020 then { s with src1Addr := v }
  else if off = 0x024 then { s with src1Len := v }
  else if off = 0x028 then { s with dstAddr := v }
  else if off = 0x02C then { s with dstLen := v }
  else s

/-- How many bytes an access moves. -/
def widthBytes : Width → Nat
  | .byte => 1
  | .half => 2
  | .word => 4

/-- `Σ_{k<w} dbuf[a+k]·256^k` (20_memory.md R65): little-endian lanes. -/
def lanesRead (m : Memory) : Nat → Nat → Nat
  | _, 0 => 0
  | a, w + 1 => (readByte m a).toNat + 256 * lanesRead m (a + 1) w

/-- The bytes of a written value, lane `k` carrying `(v >> 8k) & 0xFF` (20_memory.md R65). -/
def lanesOf : Nat → Nat → Bytes
  | _, 0 => []
  | v, w + 1 => BitVec.ofNat 8 v :: lanesOf (v / 256) w

/-- A DBUF read at byte `a` (20_memory.md R65, R67). -/
def dbufRead (a : Nat) (w : Width) (s : State) : Reply × State :=
  if s.busy then (⟨.okay, 0⟩, { s with accErr := true })
  else (⟨.okay, BitVec.ofNat 32 (lanesRead s.dbuf a (widthBytes w))⟩, s)

/-- A DBUF write at byte `a` (20_memory.md R65, R67). -/
def dbufWrite (a : Nat) (w : Width) (v : Word) (s : State) : Reply × State :=
  if s.busy then (⟨.okay, 0⟩, { s with accErr := true })
  else (⟨.okay, 0⟩, { s with dbuf := memWrite s.dbuf a (lanesOf v.toNat (widthBytes w)) })

/-- Where an access lands (20_memory.md R61, R63). -/
inductive Target where
  | register (off : Nat)
  | buffer (a : Nat)
  | refused
deriving DecidableEq, Repr

/-- The dispatch by offset of 20_memory.md R63. -/
def target (P : Params) (off : Nat) (w : Width) : Target :=
  if off < 0x1000 then
    if w = .word ∧ off % 4 = 0 then .register off else .refused
  else if 0x10000 ≤ off ∧ off + widthBytes w ≤ 0x10000 + P.bufBytes then
    if (off - 0x10000) % widthBytes w = 0 then .buffer (off - 0x10000) else .refused
  else .refused

/-- SLVERR: read data 0 and no effect (20_memory.md R64). -/
def slverr : Reply := ⟨.slverr, 0⟩

/-- `HostAccess` (20_memory.md R63): the reply and the block's state after it. -/
def portAccess (P : Params) (x : Access) (s : State) : Reply × State :=
  match x with
  | .read off w =>
    match target P off w with
    | .register r => (⟨.okay, regRead P s r⟩, s)
    | .buffer a => dbufRead a w s
    | .refused => (slverr, s)
  | .write off w v =>
    match target P off w with
    | .register r => (⟨.okay, 0⟩, regWrite r v s)
    | .buffer a => dbufWrite a w v s
    | .refused => (slverr, s)

/-- A host access as a step: the reply is kept for the host (log 5). -/
def hostAccess (P : Params) (x : Access) (s : State) : State :=
  let r := portAccess P x s
  { r.2 with reply := some r.1 }

end Sys2Proof.Machine
end

