-- ==== Sys2Proof/Machine/Step.lean ====
section
/-! DEFINITION. Sys2Proof/Machine/Step.lean: one step of the block and its environment (40_command_execution.md R111,
70_reset_and_hazards.md R300). -/

namespace Sys2Proof.Machine

/-- One step: a host access, the completion of the command in flight, a hardware reset, or nothing. The completion
decodes the latched command word and runs that command; an ILLEGAL word completes with ILLEGAL_CMD. -/
def step (s : State) : Host.Outcome State Fault Refusal :=
  match nextMove s with
  | (.host a, s') => .next (hostAccess Config.params a s')
  | (.reset, s') => .next (hardwareReset s')
  | (.idle, s') => .next s'
  | (.complete, s') =>
    match fetch s' with
    | .error f => .fault f
    | .ok w =>
      match decode w with
      | .ok i => exec i s'
      | .error _ => runIllegal s'

/-- `s` with the command word `w` of `nbits` bits (higher bits 0) in flight and the engine's turn next, so that the next
step runs that command (log 8). -/
def State.withFetchWord (s : State) (nbits w : Nat) : State := placeCommand (BitVec.ofNat 32 (w % 2 ^ nbits)) s

end Sys2Proof.Machine
end

