-- ==== Sys2Proof/Machine/KeyExchange.lean ====
section
/-! DEFINITION. Sys2Proof/Machine/KeyExchange.lean: the host's side: the host assembly (30_encoding.md R97, R98), the boot
sequence (70_reset_and_hazards.md R305), the host call and the ElGamal key exchange as host procedures over the commands
(49_key_exchange_host.md). Nothing here adds state to the block (00_scope.md R6). -/

namespace Sys2Proof.Machine

/-- Why a host procedure ends without a result. The block it leaves is in the procedure's answer beside it. -/
inductive HostStop where
  /-- A command completed with this error code (49_key_exchange_host.md R250). -/
  | code (c : Byte)
  /-- A wire form of the wrong length, or a boot check that failed (R252, R253; 70_reset_and_hazards.md R305). -/
  | malformed
  /-- The model stopped with a fault. -/
  | fault (f : Fault)
  /-- The model refused the instruction. -/
  | refusal (r : Refusal)
deriving DecidableEq, Repr

/-- A host procedure: from the block it starts on, an answer or the reason it stopped, and in both cases the block it
leaves (49_key_exchange_host.md R250: the caller that gets an error goes on with the same block). -/
abbrev Procedure (α : Type) : Type := EStateM HostStop State α

/-! ## Host assembly -/

/-- One move, made as the block's next step (log 11). -/
def perform (t : Turn) : Procedure Unit := fun s =>
  match step { s with turns := [t] } with
  | .next s' => .ok () s'
  | .fault f => .error (.fault f) s
  | .refused r => .error (.refusal r) s

/-- Several moves in order. -/
def performAll : List Turn → Procedure Unit
  | [] => pure ()
  | t :: ts => do
    perform t
    performAll ts

/-- `wr REG, v` (30_encoding.md R97). -/
def wr (off : Nat) (v : Word) : Turn := .host (.write off .word v)

/-- The data of the latest reply. -/
def replyData (s : State) : Word :=
  match s.reply with
  | some r => r.data
  | none => 0

/-- A read access and the data it returns. -/
def hostRead (off : Nat) (w : Width) : Procedure Word := do
  perform (.host (.read off w))
  let s ← get
  return replyData s

/-- The writes of `wrbuf`; the first argument bounds how many are left to make. -/
def wrbufFrom : Nat → Nat → Bytes → List Turn
  | 0, _, _ => []
  | _ + 1, _, [] => []
  | n + 1, a, b :: rest =>
    match rest with
    | b1 :: b2 :: b3 :: more =>
      if a % 4 = 0 then wr (0x10000 + a) (b3 ++ b2 ++ b1 ++ b) :: wrbufFrom n (a + 4) more
      else .host (.write (0x10000 + a) .byte (b.setWidth 32)) :: wrbufFrom n (a + 1) rest
    | _ => .host (.write (0x10000 + a) .byte (b.setWidth 32)) :: wrbufFrom n (a + 1) rest

/-- `wrbuf a, s`: 32-bit aligned writes where possible, 8-bit writes otherwise (30_encoding.md R97). -/
def wrbuf (a : Nat) (s : Bytes) : List Turn := wrbufFrom s.length a s

/-- `rdbuf a, n`: `n` bytes of DBUF from offset `a`, by 8-bit reads (30_encoding.md R97, log 11). -/
def rdbuf : Nat → Nat → Procedure Bytes
  | _, 0 => pure []
  | a, n + 1 => do
    let v ← hostRead (0x10000 + a) .byte
    let rest ← rdbuf (a + 1) n
    return v.setWidth 8 :: rest

/-- Where the host puts the operands and the result of one call, and how often it polls STATUS before the completion: the
choices that 49_key_exchange_host.md R250 leaves to the host and 20_memory.md R77 to the interleaving. Each call of a
procedure has its own. -/
structure HostChoice where
  a0 : Nat
  a1 : Nat
  ad : Nat
  polls : Nat
deriving DecidableEq, Repr

/-- `<MNEMONIC> dst=(da,dl), s0=(a0,l0), s1=(a1,l1)` (30_encoding.md R98). -/
def commandTurns (i : Instr) (da dl a0 l0 a1 l1 : Nat) : List Turn :=
  [wr 0x028 (BitVec.ofNat 32 da), wr 0x02C (BitVec.ofNat 32 dl), wr 0x018 (BitVec.ofNat 32 a0),
    wr 0x01C (BitVec.ofNat 32 l0), wr 0x020 (BitVec.ofNat 32 a1), wr 0x024 (BitVec.ofNat 32 l1), wr 0x014 (encode i)]

/-- `<MNEMONIC> dst=(da,dl)` with no source: the source registers keep their values (30_encoding.md R98). -/
def commandTurnsNoSource (i : Instr) (da dl : Nat) : List Turn :=
  [wr 0x028 (BitVec.ofNat 32 da), wr 0x02C (BitVec.ofNat 32 dl), wr 0x014 (encode i)]

/-- The polls of `wait` that find BUSY = 1, the engine's completion, and the end of `Call`: the last poll, the code, the
output bytes and `ack` (30_encoding.md R98, 49_key_exchange_host.md R250). On an error code nothing more is done: DONE is
not acknowledged, and the block stays as the completion left it. -/
def finishCall (c : HostChoice) : Procedure Bytes := do
  performAll (List.replicate c.polls (.host (.read 0x010 .word)) ++ [.engine])
  let st ← hostRead 0x010 .word
  let code : Byte := st.extractLsb' 8 8
  if code ≠ 0 then throw (.code code)
  else do
    let n ← hostRead 0x030 .word
    let out ← rdbuf c.ad n.toNat
    perform (wr 0x010 0x2)
    return out

/-- `Call(OP, s0, s1)` with a destination of LP bytes (49_key_exchange_host.md R250). -/
def call (i : Instr) (c : HostChoice) (s0 s1 : Bytes) : Procedure Bytes := do
  performAll (wrbuf c.a0 s0 ++ wrbuf c.a1 s1 ++ commandTurns i c.ad Config.params.lp c.a0 s0.length c.a1 s1.length)
  finishCall c

/-- `Call(GEN_EXP)` (49_key_exchange_host.md R250). -/
def callGenExp (c : HostChoice) : Procedure Bytes := do
  performAll (commandTurnsNoSource .genExp c.ad Config.params.lp)
  finishCall c

/-- LP zero bytes written over each of these offsets of DBUF: how the host removes a secret (log 14). -/
def erase (offsets : List Nat) : Procedure Unit :=
  performAll (offsets.flatMap fun a => wrbuf a (List.replicate Config.params.lp 0x00))

/-- `x`, and after it, whether it answers or stops, the secrets at these offsets removed (log 14). The answer is `x`'s own,
but where `x` answers and a removal stops. -/
def thenErase {α : Type} (offsets : List Nat) (x : Procedure α) : Procedure α := fun s =>
  match x s with
  | .ok a s1 =>
    match erase offsets s1 with
    | .ok _ s2 => .ok a s2
    | .error e s2 => .error e s2
  | .error e s1 =>
    match erase offsets s1 with
    | .ok _ s2 => .error e s2
    | .error _ s2 => .error e s2

/-! ## Boot -/

/-- One check of the boot sequence. -/
def bootCheck (holds : Bool) : Procedure Unit := if holds then pure () else throw .malformed

/-- Steps 2 to 5 of the host's boot sequence (70_reset_and_hazards.md R305), in its order, for a host whose `p` has `width`
bytes, whose largest command needs `need` bytes of DBUF, and which uses the interrupt or not. DESIGN CHOICE: where a check
fails the sequence stops there with `malformed` and makes no further access; R305 says only "check" (log 15). The host's own
side of it, the mapping of the window at BASE and the routing of IRQ_LINE, changes nothing in the block (log 11). -/
def hostBoot (width need : Nat) (useIrq : Bool) : Procedure Unit := do
  let ident ← hostRead 0x000 .word
  bootCheck (ident.extractLsb' 8 24 == 0x545201)
  let pBytes ← hostRead 0x004 .word
  bootCheck (pBytes.toNat == width)
  let bufSize ← hostRead 0x008 .word
  bootCheck (decide (need ≤ bufSize.toNat))
  let status ← hostRead 0x010 .word
  bootCheck (!status.getLsbD 0 && !status.getLsbD 2)
  if useIrq then perform (wr 0x00C 0x2)
  else pure ()

/-! ## Encodings -/

/-- The wire form of a public key: `int2be_LP(A)` (49_key_exchange_host.md R252). -/
def publicKeyWire (P : Params) (A : Nat) : Bytes := int2be P.lp A

/-- The wire form of an ephemeral message: `B` then `C` (49_key_exchange_host.md R253). -/
def ephemeralWire (B C : Bytes) : Bytes := B ++ C

/-- `encode(K)`: zero bytes at the most significant end, then the 96 key bytes (49_key_exchange_host.md R254). -/
def encodeKey (P : Params) (K : Bytes) : Bytes := List.replicate (P.lp - 96) 0x00 ++ K

/-- `decode(m)`: the low 96 bytes, the high ones unchecked (49_key_exchange_host.md R255). -/
def decodeKey (P : Params) (m : Bytes) : Bytes := (m.drop (P.lp - 96)).take 96

/-! ## Procedures

Each call of a procedure has its own choice of offsets and polls (R250). Each procedure removes from DBUF, when it ends,
the secrets that its calls left there (R256, R257, log 14). -/

/-- `Alice.generate()`: the secret exponent and the public key (49_key_exchange_host.md R256). The host keeps `a`; DBUF
does not: it is removed from where GEN_EXP (`cg`) left it and from where MODEXP (`cp`) read it. -/
def aliceGenerate (cg cp : HostChoice) : Procedure (Bytes × Bytes) := do
  let a ← callGenExp cg
  thenErase [cg.ad, cp.a1] do
    let A ← call .modexp cp (int2be Config.params.lp Config.params.g) a
    return (a, A)

/-- `Bob.encrypt_for_alice(A)` for Bob's key `K`, which the host draws (49_key_exchange_host.md R257). `discard b_bytes and
S_bytes`: `b` is removed from where GEN_EXP (`cg`) left it and from where the two MODEXP (`cb`, `cs`) read it, and `S` from
where the second MODEXP left it and from where MODMUL (`cm`) read it. -/
def bobEncrypt (cg cb cs cm : HostChoice) (K A : Bytes) : Procedure Bytes :=
  if A.length ≠ Config.params.lp then throw .malformed
  else do
    let b ← callGenExp cg
    thenErase [cg.ad, cb.a1, cs.a1, cs.ad, cm.a0] do
      let B ← call .modexp cb (int2be Config.params.lp Config.params.g) b
      let S ← call .modexp cs A b
      let C ← call .modmul cm S (encodeKey Config.params K)
      return ephemeralWire B C

/-- `Bob.extract_shared_secret()` (49_key_exchange_host.md R257). -/
def bobExtract (K : Bytes) : Bytes := K

/-- `Alice.extract_shared_secret(eph)` (49_key_exchange_host.md R258). `a` is removed from where MODEXP_INV (`ci`) read
it, its last use (R256). -/
def aliceExtract (ci cm : HostChoice) (a eph : Bytes) : Procedure Bytes :=
  if eph.length ≠ 2 * Config.params.lp then throw .malformed
  else thenErase [ci.a1] do
    let I ← call .modexpInv ci (eph.take Config.params.lp) a
    let M ← call .modmul cm (eph.drop Config.params.lp) I
    return decodeKey Config.params M

end Sys2Proof.Machine
end

