-- ==== Sys2Proof/Safety.lean ====
section
/-! DEFINITION. Sys2Proof/Safety.lean: what counts as a safe state and a safe run, in the terms the statements use. -/

namespace Sys2Proof.Machine

/-- What holds of the block in every state a run reaches. -/
structure Coherent (s : State) : Prop where
  /-- `busy = 1 ⇔ latched ≠ none` (10_state.md R20). -/
  busy_latched : s.busy = s.latched.isSome
  /-- While a command is in flight DONE, ERRCODE and OUT_LEN are 0 and CMD reads back the latched word
  (40_command_execution.md R114, R115; 10_state.md R27, R28, R36). -/
  in_flight : ∀ L, s.latched = some L → s.done = false ∧ s.errcode = 0 ∧ s.outLen = 0 ∧ s.cmd = L.cmd
  /-- ERRCODE is a code that 60_exceptions.md R270 lists. -/
  errcode_listed : s.errcode.toNat ≤ 8
  /-- An error leaves OUT_LEN 0 (60_exceptions.md R270). -/
  error_no_output : s.errcode ≠ 0 → s.outLen = 0
  /-- ENTROPY comes with FATAL (60_exceptions.md R272). -/
  entropy_fatal : s.errcode = 8 → s.fatal = true
  /-- The memory list is in canonical form. -/
  dbuf_wf : Memory.wf s.dbuf = true
  /-- DBUF has `BUF_BYTES` bytes (20_memory.md R62). -/
  dbuf_below : Memory.below Config.params.bufBytes s.dbuf = true

/-- The step gives a next state: the model stops with neither a fault nor a refusal. -/
def Answers (o : Host.Outcome State Fault Refusal) : Prop := ∃ t, o = .next t

/-- The host has kept the protocol so far (60_exceptions.md R275, 70_reset_and_hazards.md R310). -/
def ProtocolKept (s : State) : Prop := s.cmdOvr = false ∧ s.accErr = false

end Sys2Proof.Machine
end

