-- ==== Sys2Proof/Certificates/Slice0/Obligations.lean ====
section
/-! DEFINITION. Sys2Proof/Certificates/Slice0/Obligations.lean: the statements for the provers, and the few terms they are
written in. The terms restate the spec's tables in plain arithmetic, so that a statement does not lean on the model's own
checks. -/

namespace Sys2Proof.Claims

open Sys2Proof.Machine

/-- LP of the deployed block (00_scope.md R8). -/
abbrev LP : Nat := Config.params.lp

/-- BUF_BYTES of the deployed block (00_scope.md R8). -/
abbrev BUF : Nat := Config.params.bufBytes

/-- The state after a command latched as `L` has succeeded with output `out` (40_command_execution.md R118). -/
def okState (L : Descriptor) (out : Bytes) (s : State) : State :=
  { s with
    dbuf := memWrite s.dbuf L.dstAddr.toNat out
    outLen := BitVec.ofNat 32 out.length
    errcode := 0x00
    done := true
    busy := false
    latched := none }

/-- The state after a command has failed with a code other than ENTROPY (40_command_execution.md R118). -/
def errState (code : Byte) (s : State) : State :=
  { s with outLen := 0, errcode := code, done := true, busy := false, latched := none }

/-- The state after a command has failed with ENTROPY (40_command_execution.md R118, 60_exceptions.md R272). -/
def entropyState (s : State) : State :=
  { s with outLen := 0, errcode := 0x08, fatal := true, done := true, busy := false, latched := none }

/-- The state after a host access at the port: the effect and the answer of 20_memory.md R63, the answer being kept in the
model's own field `reply` (log 5). -/
def afterAccess (a : Access) (s : State) : State :=
  { (portAccess Config.params a s).2 with reply := some (portAccess Config.params a s).1 }

/-- The command latched as `L` is in flight in a block whose FATAL bit is 0. -/
def Ready (L : Descriptor) (s : State) : Prop := s.latched = some L ∧ s.fatal = false

/-- Offset `k` lies in the region of `n` bytes at `a`. -/
def Inside (a n k : Nat) : Prop := a ≤ k ∧ k < a + n

/-- Two regions share no byte (20_memory.md R75). -/
def ShareNoByte (a n b m : Nat) : Prop := ∀ k, Inside a n k → ¬Inside b m k

/-- A region of `n` bytes at the address in a register is in bounds (20_memory.md R75). -/
def Fits (addr : Word) (n : Nat) : Prop := addr.toNat + n ≤ BUF

/-- The bytes of a region. -/
def bytesAt (s : State) (addr : Word) (n : Nat) : Bytes := memRead s.dbuf addr.toNat n

/-- The big integer of LP bytes at an address (30_encoding.md R95). -/
def intAt (s : State) (addr : Word) : Nat := be2int (bytesAt s addr LP)

/-- One source of exactly `n` bytes, in bounds and disjoint from a destination of `d` bytes. -/
def SourceOk (addr len : Word) (n : Nat) (L : Descriptor) (d : Nat) : Prop :=
  len.toNat = n ∧ Fits addr n ∧ ShareNoByte L.dstAddr.toNat d addr.toNat n

/-- A destination of `d` bytes is wide enough and in bounds. -/
def DestOk (L : Descriptor) (d : Nat) : Prop := d ≤ L.dstLen.toNat ∧ Fits L.dstAddr d

/-- The descriptor passes every check of MODEXP, MODEXP_INV and MODMUL (30_encoding.md R93). -/
def TwoElementOperands (L : Descriptor) : Prop :=
  DestOk L LP ∧ SourceOk L.src0Addr L.src0Len LP L LP ∧ SourceOk L.src1Addr L.src1Len LP L LP

/-- The FIX(n) slots of 30_encoding.md R93 hold their lengths. -/
def FixedLengthsHold (i : Instr) (L : Descriptor) : Prop :=
  match i with
  | .modexp | .modexpInv | .modmul => L.src0Len.toNat = LP ∧ L.src1Len.toNat = LP
  | .genExp | .sha256 => True
  | .sha256Compress => L.src0Len.toNat = 64 ∧ L.src1Len.toNat = 32
  | .hmacSha256 => L.src1Len.toNat = 64
  | .cbcEncrypt | .cbcDecrypt => L.src1Len.toNat = 96

/-- The DSTMAX column of 30_encoding.md R93. -/
def outputMax (i : Instr) (L : Descriptor) : Nat :=
  match i with
  | .modexp | .modexpInv | .modmul | .genExp => LP
  | .sha256 | .sha256Compress | .hmacSha256 => 32
  | .cbcEncrypt => 48 + 16 * (L.src0Len.toNat / 16 + 1)
  | .cbcDecrypt => L.src0Len.toNat - 49

/-- The source regions of 30_encoding.md R93, as pairs of address and length. -/
def sourceList (i : Instr) (L : Descriptor) : List (Nat × Nat) :=
  let s0 := (L.src0Addr.toNat, L.src0Len.toNat)
  let s1 := (L.src1Addr.toNat, L.src1Len.toNat)
  match i with
  | .genExp => []
  | .sha256 => [s0]
  | .modexp | .modexpInv | .modmul | .sha256Compress | .hmacSha256 | .cbcEncrypt | .cbcDecrypt => [s0, s1]

/-- Step 2 of 40_command_execution.md R117 fails. -/
def FormatBad (i : Instr) (L : Descriptor) : Prop :=
  i = .cbcDecrypt ∧ ¬(64 ≤ L.src0Len.toNat ∧ (L.src0Len.toNat - 48) % 16 = 0)

/-- Step 3 fails. -/
def LengthBad (i : Instr) (L : Descriptor) : Prop := ¬FixedLengthsHold i L ∨ L.dstLen.toNat < outputMax i L

/-- Step 4 fails. -/
def BoundsBad (i : Instr) (L : Descriptor) : Prop :=
  (∃ r ∈ sourceList i L, BUF < r.1 + r.2) ∨ BUF < L.dstAddr.toNat + outputMax i L

/-- Step 5 fails: some source byte lies in the destination. -/
def OverlapBad (i : Instr) (L : Descriptor) : Prop :=
  ∃ r ∈ sourceList i L, ¬ShareNoByte L.dstAddr.toNat (outputMax i L) r.1 r.2

/-- The words that 30_encoding.md R96 lists as ILLEGAL. -/
def ListedIllegal (w : Word) : Prop :=
  w.toNat / 256 ≠ 0 ∨ w.toNat % 256 = 0 ∨ (0x05 ≤ w.toNat % 256 ∧ w.toNat % 256 ≤ 0x0F) ∨
    (0x12 ≤ w.toNat % 256 ∧ w.toNat % 256 ≤ 0x1F) ∨ (0x21 ≤ w.toNat % 256 ∧ w.toNat % 256 ≤ 0x2F) ∨
    0x32 ≤ w.toNat % 256

/-- An access that 20_memory.md R61 permits. -/
def Permitted (P : Params) (off : Nat) (w : Width) : Prop :=
  (off < 0x1000 ∧ w = .word ∧ off % 4 = 0) ∨
    (0x10000 ≤ off ∧ off + widthBytes w ≤ 0x10000 + P.bufBytes ∧ off % widthBytes w = 0)

/-- Byte block `i` of 16 bytes. -/
def block16 (X : Bytes) (i : Nat) : Bytes := (X.drop (16 * i)).take 16

/-! The compression function of 42_sha256.md in terms of its own: sequences `W`, `K`, `v` that meet the spec's equations,
where the model folds over lists. -/

/-- The first 64 primes. -/
def primes64 : List Nat :=
  [2, 3, 5, 7, 11, 13, 17, 19, 23, 29, 31, 37, 41, 43, 47, 53] ++
  [59, 61, 67, 71, 73, 79, 83, 89, 97, 101, 103, 107, 109, 113, 127, 131] ++
  [137, 139, 149, 151, 157, 163, 167, 173, 179, 181, 191, 193, 197, 199, 211, 223] ++
  [227, 229, 233, 239, 241, 251, 257, 263, 269, 271, 277, 281, 283, 293, 307, 311]

/-- `x` is the low 32 bits of `floor(prime_t^(1/k) · 2^32)` (42_sha256.md R171; `k = 2` for `IV`, `k = 3` for `K`). -/
def IsRootBits (k t : Nat) (x : Word) : Prop :=
  ∃ r, r ^ k ≤ primes64.getD t 0 * 2 ^ (32 * k) ∧ primes64.getD t 0 * 2 ^ (32 * k) < (r + 1) ^ k ∧ x = BitVec.ofNat 32 r

/-- The big-endian word in bytes `4t` to `4t+3` (30_encoding.md R95). -/
def wordAt (s : Bytes) (t : Nat) : Word :=
  s.getD (4 * t) 0 ++ s.getD (4 * t + 1) 0 ++ s.getD (4 * t + 2) 0 ++ s.getD (4 * t + 3) 0

/-- The big-endian bytes of a word. -/
def bytesOf (x : Word) : Bytes := [x.extractLsb' 24 8, x.extractLsb' 16 8, x.extractLsb' 8 8, x.extractLsb' 0 8]

/-- `W` is the message schedule of the block `B` (42_sha256.md R174, with `σ0` and `σ1` of R172 written out). -/
def IsSchedule (B : Bytes) (W : Nat → Word) : Prop :=
  (∀ t, t < 16 → W t = wordAt B t) ∧
  ∀ t, 16 ≤ t → t < 64 →
    W t = ((W (t - 2)).rotateRight 17 ^^^ (W (t - 2)).rotateRight 19 ^^^ W (t - 2) >>> 10) + W (t - 7) +
      ((W (t - 15)).rotateRight 7 ^^^ (W (t - 15)).rotateRight 18 ^^^ W (t - 15) >>> 3) + W (t - 16)

/-- `v t` are the eight working variables, numbered from `a = 0` to `h = 7`, before round `t`, from the chaining value `H`
with the schedule `W` and the constants `K` (42_sha256.md R175, with `Σ0`, `Σ1`, `Ch` and `Maj` of R172 written out). -/
def AreRounds (H K W : Nat → Word) (v : Nat → Nat → Word) : Prop :=
  (∀ j, j < 8 → v 0 j = H j) ∧
  ∀ t, t < 64 →
    let t1 := v t 7 + ((v t 4).rotateRight 6 ^^^ (v t 4).rotateRight 11 ^^^ (v t 4).rotateRight 25) +
      ((v t 4 &&& v t 5) ^^^ (~~~v t 4 &&& v t 6)) + K t + W t
    let t2 := ((v t 0).rotateRight 2 ^^^ (v t 0).rotateRight 13 ^^^ (v t 0).rotateRight 22) +
      ((v t 0 &&& v t 1) ^^^ (v t 0 &&& v t 2) ^^^ (v t 1 &&& v t 2))
    v (t + 1) 0 = t1 + t2 ∧ v (t + 1) 1 = v t 0 ∧ v (t + 1) 2 = v t 1 ∧ v (t + 1) 3 = v t 2 ∧
      v (t + 1) 4 = v t 3 + t1 ∧ v (t + 1) 5 = v t 4 ∧ v (t + 1) 6 = v t 5 ∧ v (t + 1) 7 = v t 6

/-- `out` is the compression of the block `B` from the 32-byte chaining value `S`: 64 rounds, then the addition of the
chaining value (42_sha256.md R175, R178). -/
def IsCompression (S B out : Bytes) : Prop :=
  ∃ (K W : Nat → Word) (v : Nat → Nat → Word),
    (∀ t, t < 64 → IsRootBits 3 t (K t)) ∧ IsSchedule B W ∧ AreRounds (wordAt S) K W v ∧
    out = (List.range 8).flatMap fun j => bytesOf (wordAt S j + v 64 j)

/-- Every byte of the LP bytes at each of these offsets reads 0. -/
def Zeroed (offsets : List Nat) (s : State) : Prop := ∀ a ∈ offsets, ∀ k, Inside a LP k → readByte s.dbuf k = 0x00

/-- Bob's side of one exchange in values: `B = g^b`, `C = A^b · encode(K) mod p` (49_key_exchange_host.md R257), by the
ladder and multiplier of the commands. -/
def bobValues (P : Params) (A b : Nat) (K : Bytes) : Nat × Nat :=
  (ladder P P.g b, mulmod P (ladder P A b) (be2int (encodeKey P K)))

/-- Alice's side in values: `decode(C · B^(q−a) mod p)` (49_key_exchange_host.md R258). -/
def aliceValue (P : Params) (a : Nat) (BC : Nat × Nat) : Bytes :=
  decodeKey P (int2be P.lp (mulmod P BC.2 (ladder P BC.1 (P.q - a))))

/-- A block that can take a call: nothing is in flight and FATAL is 0. -/
def Free (s : State) : Prop := s.busy = false ∧ s.fatal = false ∧ Memory.wf s.dbuf = true

/-- The three regions of a host call are in bounds and share no byte (49_key_exchange_host.md R250). -/
def Separate (c : HostChoice) : Prop :=
  c.a0 + LP ≤ BUF ∧ c.a1 + LP ≤ BUF ∧ c.ad + LP ≤ BUF ∧
    ShareNoByte c.a0 LP c.a1 LP ∧ ShareNoByte c.ad LP c.a0 LP ∧ ShareNoByte c.ad LP c.a1 LP

end Sys2Proof.Claims

open Sys2Proof Sys2Proof.Machine Sys2Proof.Claims

/-! ## Decoding -/

/-- 30_encoding.md R91, R92: each command is selected by exactly one word, its OPCODE with RSVD zero, and encoding it gives
that word. -/
def Obligations.EachCommandHasExactlyOneWord : Prop :=
  ∀ w : Word,
    (decode w = .ok .modexp ↔ w = 0x00000001) ∧ (decode w = .ok .modexpInv ↔ w = 0x00000002) ∧
    (decode w = .ok .modmul ↔ w = 0x00000003) ∧ (decode w = .ok .genExp ↔ w = 0x00000004) ∧
    (decode w = .ok .sha256 ↔ w = 0x00000010) ∧ (decode w = .ok .sha256Compress ↔ w = 0x00000011) ∧
    (decode w = .ok .hmacSha256 ↔ w = 0x00000020) ∧ (decode w = .ok .cbcEncrypt ↔ w = 0x00000030) ∧
    (decode w = .ok .cbcDecrypt ↔ w = 0x00000031) ∧ ∀ i, decode w = .ok i ↔ w = encode i

/-- A few words of 30_encoding.md R91 and R96, decoded. -/
def Obligations.SpecWordsDecodeToTheirCommands : Prop :=
  decode 0x00000001 = .ok .modexp ∧ decode 0x00000011 = .ok .sha256Compress ∧ decode 0x00000020 = .ok .hmacSha256 ∧
    decode 0x00000031 = .ok .cbcDecrypt ∧ decode 0x00000110 = .error .reservedBits ∧
    decode 0x00000005 = .error .unassignedOpcode

/-- Decoding an encoded well-formed command gives it back (30_encoding.md section 1). -/
def Obligations.DecodeOfEncodeIsTheCommand : Prop :=
  ∀ i : Instr, i.wellFormed = true → decode (encode i) = .ok i

/-- 30_encoding.md R96: the ILLEGAL words are exactly the listed ones, and all of them behave alike: taken by the engine,
each completes with ILLEGAL_CMD and has no other effect, and with ENTROPY where FATAL is already 1, whatever the word
(40_command_execution.md section 3). That the engine's turn is the first of a list, and is taken off it, is the model's
choice (log 2). -/
def Obligations.ListedWordsAreIllegalAndBehaveAlike : Prop :=
  (∀ w : Word, (∃ e, decode w = .error e) ↔ ListedIllegal w) ∧
  (∀ (s : State) (L : Descriptor) (rest : List Turn), s.turns = .engine :: rest → s.busy = true → Ready L s →
    ListedIllegal L.cmd → step s = .next (errState 0x01 { s with turns := rest })) ∧
  ∀ (s : State) (L : Descriptor) (rest : List Turn), s.turns = .engine :: rest → s.busy = true → s.latched = some L →
    s.fatal = true → ListedIllegal L.cmd → step s = .next (entropyState { s with turns := rest })

/-! ## A step -/

/-- When the engine has the turn and a command is in flight, a step runs the command that the latched word decodes to, from
the state with that turn taken (40_command_execution.md R111, R118; the list of turns is the model's own, log 2). -/
def Obligations.StepRunsTheDecodedCommand : Prop :=
  ∀ (s : State) (L : Descriptor) (i : Instr) (rest : List Turn), s.turns = .engine :: rest → s.busy = true →
    s.latched = some L → decode L.cmd = .ok i → step s = exec i { s with turns := rest }

/-- The model's choice (log 3): with no turn left, a command in flight completes at the next step, and an idle block does
nothing. A word in flight that is no command completes as well, with ILLEGAL_CMD, or with ENTROPY where FATAL is 1
(30_encoding.md R92). -/
def Obligations.StepWithNoTurnLeft : Prop :=
  ∀ s : State, s.turns = [] →
    (s.busy = false → step s = .next s) ∧
    (∀ L i, s.busy = true → s.latched = some L → decode L.cmd = .ok i → step s = exec i s) ∧
    (∀ L, s.busy = true → s.latched = some L → ListedIllegal L.cmd →
      step s = .next (if s.fatal then entropyState s else errState 0x01 s))

/-- A host access or a hardware reset takes its turn whether or not a command is in flight (40_command_execution.md R111,
70_reset_and_hazards.md R300); a host access has the effect and the answer of the port, a refused one too (20_memory.md
R63). The rest is the model's choice. The list of turns (log 2) and the field that keeps the answer (log 5) are the model's
own. So are the bus clauses (log 10): an access by a bus address comes to the port at its distance from BASE for a master that ACCESS_POLICY
admits, and changes nothing otherwise, where 20_memory.md R60 and 60_exceptions.md R285 leave BASE and ACCESS_POLICY open.
So is the last clause (log 2): an engine turn of an idle block only takes its turn, where R111 has no such step. -/
def Obligations.StepTakesTheScheduledTurn : Prop :=
  (∀ (s : State) (a : Access) (rest : List Turn), s.turns = .host a :: rest →
    step s = .next (afterAccess a { s with turns := rest })) ∧
  (∀ (s : State) (m addr : Nat) (w : Width) (rest : List Turn), s.turns = .bus m (.read addr w) :: rest →
    step s = .next
      (if Config.params.accessPolicy m = true ∧ Config.params.base ≤ addr then
        afterAccess (.read (addr - Config.params.base) w) { s with turns := rest }
      else { s with turns := rest })) ∧
  (∀ (s : State) (m addr : Nat) (w : Width) (v : Word) (rest : List Turn), s.turns = .bus m (.write addr w v) :: rest →
    step s = .next
      (if Config.params.accessPolicy m = true ∧ Config.params.base ≤ addr then
        afterAccess (.write (addr - Config.params.base) w v) { s with turns := rest }
      else { s with turns := rest })) ∧
  (∀ (s : State) (rest : List Turn), s.turns = .reset :: rest → step s = .next (hardwareReset { s with turns := rest })) ∧
  (∀ (s : State) (rest : List Turn), s.turns = .engine :: rest → s.busy = false →
    step s = .next { s with turns := rest })

/-! ## The checks -/

/-- 40_command_execution.md section 3, steps 0 and 2 to 5: the first failing check decides the code, for every command. -/
def Obligations.FirstFailingCheckDecidesTheCode : Prop :=
  ∀ (i : Instr) (s : State) (L : Descriptor), s.latched = some L →
    (s.fatal = true → exec i s = .next (entropyState s)) ∧
    (s.fatal = false → FormatBad i L → exec i s = .next (errState 0x02 s)) ∧
    (s.fatal = false → ¬FormatBad i L → LengthBad i L → exec i s = .next (errState 0x03 s)) ∧
    (s.fatal = false → ¬FormatBad i L → ¬LengthBad i L → BoundsBad i L → exec i s = .next (errState 0x04 s)) ∧
    (s.fatal = false → ¬FormatBad i L → ¬LengthBad i L → ¬BoundsBad i L → OverlapBad i L →
      exec i s = .next (errState 0x05 s))

/-- 20_memory.md section 4 (region arithmetic): a region is in bounds when its end, an unbounded sum, is at most BUF_BYTES,
and two regions overlap exactly when they share a byte. Where the spec's formula and its words differ, at a zero-length
region inside another, the model follows the words (log 13). -/
def Obligations.RegionsOverlapWhenTheyShareAByte : Prop :=
  ∀ (P : Params) (x y : Region),
    (inBounds P x = true ↔ x.addr + x.len ≤ P.bufBytes) ∧
    (overlaps x y = true ↔ ∃ k, Inside x.addr x.len k ∧ Inside y.addr y.len k)

/-- 30_encoding.md R94: a command ignores every descriptor register it does not use. -/
def Obligations.UnusedRegistersAreIgnored : Prop :=
  (∀ (s : State) (L : Descriptor) (x y : Word),
    exec .sha256 { s with latched := some { L with src1Addr := x, src1Len := y } } =
      exec .sha256 { s with latched := some L }) ∧
  (∀ (s : State) (L : Descriptor) (x y z w : Word),
    exec .genExp { s with latched := some { L with src0Addr := x, src0Len := y, src1Addr := z, src1Len := w } } =
      exec .genExp { s with latched := some L })

/-! ## The ModExp family -/

/-- MODEXP on operands that pass every check writes `base^e mod p` in LP bytes (41_modexp.md section 2). -/
def Obligations.ModexpWritesThePower : Prop :=
  ∀ (s : State) (L : Descriptor), Ready L s → TwoElementOperands L → intAt s L.src0Addr < Config.params.p →
    exec .modexp s =
      .next (okState L (int2be LP (intAt s L.src0Addr ^ intAt s L.src1Addr % Config.params.p)) s)

/-- MODEXP_INV with an exponent in `[1, q−1]` writes `base^(q−e) mod p` (41_modexp.md section 2). -/
def Obligations.ModexpInvWritesTheInversePower : Prop :=
  ∀ (s : State) (L : Descriptor), Ready L s → TwoElementOperands L → intAt s L.src0Addr < Config.params.p →
    1 ≤ intAt s L.src1Addr → intAt s L.src1Addr < Config.params.q →
    exec .modexpInv s =
      .next (okState L
        (int2be LP (intAt s L.src0Addr ^ (Config.params.q - intAt s L.src1Addr) % Config.params.p)) s)

/-- MODMUL writes `x·y mod p` (41_modexp.md section 2). -/
def Obligations.ModmulWritesTheProduct : Prop :=
  ∀ (s : State) (L : Descriptor), Ready L s → TwoElementOperands L → intAt s L.src0Addr < Config.params.p →
    intAt s L.src1Addr < Config.params.p →
    exec .modmul s =
      .next (okState L (int2be LP (intAt s L.src0Addr * intAt s L.src1Addr % Config.params.p)) s)

/-- Out-of-range operands give RANGE and nothing else (41_modexp.md sections 1 and 2). -/
def Obligations.OutOfRangeOperandsGiveRange : Prop :=
  ∀ (s : State) (L : Descriptor), Ready L s → TwoElementOperands L →
    (Config.params.p ≤ intAt s L.src0Addr →
      exec .modexp s = .next (errState 0x06 s) ∧ exec .modexpInv s = .next (errState 0x06 s) ∧
        exec .modmul s = .next (errState 0x06 s)) ∧
    (intAt s L.src0Addr < Config.params.p → (intAt s L.src1Addr = 0 ∨ Config.params.q ≤ intAt s L.src1Addr) →
      exec .modexpInv s = .next (errState 0x06 s)) ∧
    (intAt s L.src0Addr < Config.params.p → Config.params.p ≤ intAt s L.src1Addr →
      exec .modmul s = .next (errState 0x06 s))

/-- GEN_EXP writes the drawn exponent; every exponent in `[1, q−1]` is drawn on some answer of the oracle (41_modexp.md
section 2; that the answer `x − 1` stands for the exponent `x` is the model's choice, log 4). -/
def Obligations.GenExpWritesTheDrawnExponent : Prop :=
  ∀ (s : State) (L : Descriptor) (x : Nat) (rest : List (Option Nat)), Ready L s → DestOk L LP →
    1 ≤ x → x < Config.params.q → s.rng = some (x - 1) :: rest →
    exec .genExp s = .next (okState L (int2be LP x) { s with rng := rest, draws := s.draws + 1 })

/-- Whatever the oracle answers, an exponent that GEN_EXP commits lies in `[1, q−1]` (41_modexp.md section 4). -/
def Obligations.GenExpNeverCommitsAnExponentOutOfRange : Prop :=
  ∀ (s t : State) (L : Descriptor), Memory.wf s.dbuf = true → s.latched = some L → exec .genExp s = .next t →
    t.errcode = 0 → 1 ≤ intAt t L.dstAddr ∧ intAt t L.dstAddr < Config.params.q

/-- A Fail answer ends GEN_EXP and CBC_ENCRYPT with ENTROPY, sets FATAL and changes no byte of DBUF (60_exceptions.md
section 1; that the answer is taken off the list is the model's choice, log 4). -/
def Obligations.FailedDrawGivesEntropyAndFatal : Prop :=
  ∀ (s : State) (L : Descriptor) (rest : List (Option Nat)), Ready L s → s.rng = none :: rest →
    (DestOk L LP → exec .genExp s = .next (entropyState { s with rng := rest, draws := s.draws + 1 })) ∧
    (DestOk L (48 + 16 * (L.src0Len.toNat / 16 + 1)) →
      SourceOk L.src0Addr L.src0Len L.src0Len.toNat L (48 + 16 * (L.src0Len.toNat / 16 + 1)) →
      SourceOk L.src1Addr L.src1Len 96 L (48 + 16 * (L.src0Len.toNat / 16 + 1)) →
      exec .cbcEncrypt s = .next (entropyState { s with rng := rest, draws := s.draws + 1 }))

/-- 41_modexp.md R149: the ladder computes the power, at every parameters with `p > 1`, with `0^0 = 1`. -/
def Obligations.LadderIsThePower : Prop :=
  ∀ (P : Params) (base e : Nat), 1 < P.p → base < P.p → e < 2 ^ P.ladderBits →
    ladder P base e = base ^ e % P.p

/-- 41_modexp.md R150: for a base of order dividing `q`, the two powers multiply to 1; so MODMUL of the results of MODEXP
and MODEXP_INV on the same operands gives 1. -/
def Obligations.PowerTimesInversePowerIsOne : Prop :=
  (∀ (P : Params) (base e : Nat), 1 < P.p → base < P.p → base ^ P.q % P.p = 1 → 1 ≤ e → e < P.q →
    mulmod P (ladder P base e) (ladder P base (P.q - e)) = 1) ∧
  ∀ (P : Params) (L M : Descriptor) (D E : Memory) (u v : Bytes), 1 < P.p → operand0 P L D ^ P.q % P.p = 1 →
    modexpResult P L D = .ok u → modexpInvResult P L D = .ok v → operand0 P M E = be2int u → operand1 P M E = be2int v →
    modmulResult P M E = .ok (int2be P.lp 1)

/-! ## The SHA-256 and HMAC families -/

/-- SHA256 writes the digest of its message, of any length (42_sha256.md section 2). -/
def Obligations.Sha256WritesTheDigest : Prop :=
  ∀ (s : State) (L : Descriptor), Ready L s → DestOk L 32 →
    SourceOk L.src0Addr L.src0Len L.src0Len.toNat L 32 →
    exec .sha256 s = .next (okState L (sha256 (bytesAt s L.src0Addr L.src0Len.toNat)) s)

/-- SHA256_COMPRESS writes the compression of its block from its chaining value (42_sha256.md R174, R175, R178), and the
compression function itself is the schedule, the 64 rounds and the final addition of the spec, for every chaining value
and every block. -/
def Obligations.CompressWritesTheNextChainingValue : Prop :=
  (∀ S B : Bytes, S.length = 32 → B.length = 64 → IsCompression S B (hashBytes (compress (hashOfBytes S) B))) ∧
  ∀ (s : State) (L : Descriptor), Ready L s → DestOk L 32 → SourceOk L.src0Addr L.src0Len 64 L 32 →
    SourceOk L.src1Addr L.src1Len 32 L 32 →
    ∃ out, IsCompression (bytesAt s L.src1Addr 32) (bytesAt s L.src0Addr 64) out ∧
      exec .sha256Compress s = .next (okState L out s)

/-- HMAC_SHA256 writes `SHA256((K XOR opad) || SHA256((K XOR ipad) || M))` (43_hmac.md sections 1 and 2). -/
def Obligations.HmacWritesTheNestedHash : Prop :=
  ∀ (s : State) (L : Descriptor), Ready L s → DestOk L 32 →
    SourceOk L.src0Addr L.src0Len L.src0Len.toNat L 32 → SourceOk L.src1Addr L.src1Len 64 L 32 →
    exec .hmacSha256 s =
      .next (okState L
        (sha256 (xorBytes (bytesAt s L.src1Addr 64) (List.replicate 64 0x5c) ++
          sha256 (xorBytes (bytesAt s L.src1Addr 64) (List.replicate 64 0x36) ++
            bytesAt s L.src0Addr L.src0Len.toNat))) s)

/-- 42_sha256.md R173: the padding of a message of `n` bytes, with the least `k` that fills the last block, and the bit
length fits its field for every message that fits in DBUF. -/
def Obligations.PaddingFillsTheLastBlock : Prop :=
  (∀ M : Bytes, ∃ k, k ≤ 63 ∧
    shaPad M = M ++ [0x80] ++ List.replicate k 0x00 ++ int2be 8 (8 * M.length) ∧
    ((k : Int) = (55 - (M.length : Int)) % 64) ∧
    (shaPad M).length = M.length + 9 + k ∧ (shaPad M).length % 64 = 0 ∧
    ∀ j, j < k → (M.length + 9 + j) % 64 ≠ 0) ∧
  ∀ n, n ≤ BUF → 8 * n < 2 ^ 64

/-- 42_sha256.md R180: from the serialized `IV`, the compression of one 64-byte slice of the padded message after another
ends in the digest. -/
def Obligations.CompressionFoldIsTheDigest : Prop :=
  ∀ M : Bytes, ∃ (iv : Nat → Word) (S : Nat → Bytes),
    (∀ j, j < 8 → IsRootBits 2 j (iv j)) ∧ S 0 = (List.range 8).flatMap (fun j => bytesOf (iv j)) ∧
    (∀ j, j < (shaPad M).length / 64 → IsCompression (S j) (((shaPad M).drop (64 * j)).take 64) (S (j + 1))) ∧
    S ((shaPad M).length / 64) = sha256 M

/-! ## The CBC family -/

/-- CBC_ENCRYPT writes `mac || iv || C` for the drawn IV: the plaintext padded, chained through the permutation under the
cipher sub-key, and the MAC taken over `iv || C` under the MAC sub-key (44_cbc_pkcs7.md sections 1 and 2; that the answer
`be2int(iv)` stands for the IV is the model's choice, log 4). -/
def Obligations.EncryptWritesTheRecord : Prop :=
  ∀ (s : State) (L : Descriptor) (iv : Bytes) (rest : List (Option Nat)), Ready L s →
    DestOk L (48 + 16 * (L.src0Len.toNat / 16 + 1)) →
    SourceOk L.src0Addr L.src0Len L.src0Len.toNat L (48 + 16 * (L.src0Len.toNat / 16 + 1)) →
    SourceOk L.src1Addr L.src1Len 96 L (48 + 16 * (L.src0Len.toNat / 16 + 1)) →
    iv.length = 16 → s.rng = some (be2int iv) :: rest →
    let K := bytesAt s L.src1Addr 96
    let M := bytesAt s L.src0Addr L.src0Len.toNat
    let N := 16 - M.length % 16
    let C := cbcEnc Config.params (K.take 32) iv (M ++ List.replicate N (BitVec.ofNat 8 N))
    exec .cbcEncrypt s =
      .next (okState L (hmac (K.drop 32) (iv ++ C) ++ iv ++ C) { s with rng := rest, draws := s.draws + 1 })

/-- CBC_DECRYPT of a record whose MAC matches and whose padding is valid writes the plaintext (44_cbc_pkcs7.md sections 1
and 2). -/
def Obligations.DecryptWritesThePlaintext : Prop :=
  ∀ (s : State) (L : Descriptor) (M : Bytes), Ready L s → 64 ≤ L.src0Len.toNat → (L.src0Len.toNat - 48) % 16 = 0 →
    DestOk L (L.src0Len.toNat - 49) →
    SourceOk L.src0Addr L.src0Len L.src0Len.toNat L (L.src0Len.toNat - 49) →
    SourceOk L.src1Addr L.src1Len 96 L (L.src0Len.toNat - 49) →
    let K := bytesAt s L.src1Addr 96
    let R := bytesAt s L.src0Addr L.src0Len.toNat
    R.take 32 = hmac (K.drop 32) (R.drop 32) →
    unpad16 (cbcDec Config.params (K.take 32) ((R.drop 32).take 16) (R.drop 48)) = some M →
    exec .cbcDecrypt s = .next (okState L M s)

/-- 44_cbc_pkcs7.md R227: a MAC mismatch and an invalid padding give one and the same state. -/
def Obligations.DecryptFailuresAreIndistinguishable : Prop :=
  ∀ (s : State) (L : Descriptor), Ready L s → 64 ≤ L.src0Len.toNat → (L.src0Len.toNat - 48) % 16 = 0 →
    DestOk L (L.src0Len.toNat - 49) →
    SourceOk L.src0Addr L.src0Len L.src0Len.toNat L (L.src0Len.toNat - 49) →
    SourceOk L.src1Addr L.src1Len 96 L (L.src0Len.toNat - 49) →
    let K := bytesAt s L.src1Addr 96
    let R := bytesAt s L.src0Addr L.src0Len.toNat
    (R.take 32 ≠ hmac (K.drop 32) (R.drop 32) ∨
      unpad16 (cbcDec Config.params (K.take 32) ((R.drop 32).take 16) (R.drop 48)) = none) →
    exec .cbcDecrypt s =
      .next { s with errcode := 0x07, outLen := 0, done := true, busy := false, latched := none }

/-- 44_cbc_pkcs7.md R228: whatever record a CBC_ENCRYPT that succeeds has written, a CBC_DECRYPT of that record under the
same key, in any state and at any offsets, writes the plaintext back, for every plaintext and every answer of the oracle. -/
def Obligations.DecryptOfEncryptIsThePlaintext : Prop :=
  ∀ (s t u : State) (E L : Descriptor), Memory.wf s.dbuf = true → s.latched = some E → exec .cbcEncrypt s = .next t →
    t.errcode = 0 →
    let K := bytesAt s E.src1Addr 96
    let M := bytesAt s E.src0Addr E.src0Len.toNat
    let R := bytesAt t E.dstAddr t.outLen.toNat
    Ready L u → bytesAt u L.src0Addr R.length = R → bytesAt u L.src1Addr 96 = K →
    DestOk L (R.length - 49) → SourceOk L.src0Addr L.src0Len R.length L (R.length - 49) →
    SourceOk L.src1Addr L.src1Len 96 L (R.length - 49) →
    exec .cbcDecrypt u = .next (okState L M u) ∧ (okState L M u).outLen.toNat = M.length

/-- 44_cbc_pkcs7.md R230: the length of a record, and the ciphertext is always longer than the plaintext, by 16 bytes when
that is a multiple of 16. -/
def Obligations.RecordIsLongerThanThePlaintext : Prop :=
  (∀ (s t : State) (L : Descriptor), s.latched = some L → exec .cbcEncrypt s = .next t → t.errcode = 0 →
    t.outLen.toNat = 48 + 16 * (L.src0Len.toNat / 16 + 1)) ∧
  ∀ (P : Params) (K iv M : Bytes), P.Admissible → K.length = 96 → iv.length = 16 →
    (encryptRecord P K iv M).length = 48 + 16 * (M.length / 16 + 1) ∧
    M.length < (recordCiphertext (encryptRecord P K iv M)).length ∧
    (M.length % 16 = 0 → (recordCiphertext (encryptRecord P K iv M)).length = M.length + 16)

/-- 44_cbc_pkcs7.md R218 and R222: block `i` of the ciphertext is the permutation of plaintext block `i` XOR the block
before it (the IV for the first), and decryption undoes exactly that. -/
def Obligations.CbcChainsEachBlockToTheOneBefore : Prop :=
  ∀ (P : Params) (ck iv X : Bytes) (m : Nat), P.Admissible → ck.length = 32 → iv.length = 16 → X.length = 16 * m →
    (cbcEnc P ck iv X).length = 16 * m ∧ (cbcDec P ck iv X).length = 16 * m ∧
    ∀ i, i < m →
      block16 (cbcEnc P ck iv X) i =
        P.bcE ck (xorBytes (if i = 0 then iv else block16 (cbcEnc P ck iv X) (i - 1)) (block16 X i)) ∧
      block16 (cbcDec P ck iv X) i =
        xorBytes (P.bcD ck (block16 X i)) (if i = 0 then iv else block16 X (i - 1))

/-- 44_cbc_pkcs7.md R217 and R223: the padding of every plaintext, the validation of every decrypted string of whole
blocks byte by byte, and both together: validation accepts exactly the padded strings and gives back what was padded. -/
def Obligations.UnpadAcceptsExactlyThePaddedStrings : Prop :=
  (∀ M : Bytes, ∃ n, n = 16 - M.length % 16 ∧ 1 ≤ n ∧ n ≤ 16 ∧
    pad16 M = M ++ List.replicate n (BitVec.ofNat 8 n) ∧ (pad16 M).length = M.length + n ∧
    (pad16 M).length % 16 = 0) ∧
  (∀ (X : Bytes) (n : Nat), X.length % 16 = 0 → X ≠ [] → n = (X.getD (X.length - 1) 0x00).toNat →
    ((n < 1 ∨ 16 < n ∨ ∃ j, 1 ≤ j ∧ j ≤ n ∧ (X.getD (X.length - j) 0x00).toNat ≠ n) → unpad16 X = none) ∧
    (1 ≤ n → n ≤ 16 → (∀ j, 1 ≤ j → j ≤ n → (X.getD (X.length - j) 0x00).toNat = n) →
      unpad16 X = some (X.take (X.length - n)))) ∧
  ∀ X M : Bytes, X.length % 16 = 0 → (unpad16 X = some M ↔ X = pad16 M)

/-- The OR-accumulated comparison holds exactly for equal MACs (44_cbc_pkcs7.md section 1). -/
def Obligations.MacComparisonIsEquality : Prop :=
  ∀ x y : Bytes, x.length = 32 → y.length = 32 → (macEqual x y = true ↔ x = y)

/-! ## What a command leaves unchanged -/

/-- The registers: a completion writes BUSY, DONE, ERRCODE, OUT_LEN and the latch, and FATAL only on ENTROPY, and raises
the interrupt output exactly when it is enabled; CMD, CTRL, the descriptor registers, CMD_OVR and ACC_ERR keep their values
(40_command_execution.md section 3, 10_state.md section 2, 60_exceptions.md section 4). That the controller input IRQ_LINE
carries the level of the interrupt output, and no other input carries anything, is the model's choice (log 10): R280 leaves
IRQ_LINE open. That the turns (log 2) and the last reply (log 5) are kept, and that only the two drawing commands take an
answer from the oracle's list or count one (log 4), is about the model's own fields, of which the spec says nothing. -/
def Obligations.CompletionLeavesTheOtherRegisters : Prop :=
  ∀ (i : Instr) (s t : State), exec i s = .next t →
    t.irqEn = s.irqEn ∧ t.cmdOvr = s.cmdOvr ∧ t.accErr = s.accErr ∧ t.cmd = s.cmd ∧
    t.src0Addr = s.src0Addr ∧ t.src0Len = s.src0Len ∧ t.src1Addr = s.src1Addr ∧ t.src1Len = s.src1Len ∧
    t.dstAddr = s.dstAddr ∧ t.dstLen = s.dstLen ∧ t.turns = s.turns ∧ t.reply = s.reply ∧
    t.done = true ∧ t.busy = false ∧ t.latched = none ∧
    t.fatal = (s.fatal || decide (t.errcode = 0x08)) ∧ irq t = s.irqEn ∧
    irqInput Config.params Config.params.irqLine t = s.irqEn ∧
    (∀ n, n ≠ Config.params.irqLine → irqInput Config.params n t = false) ∧
    (i ≠ .genExp → i ≠ .cbcEncrypt → t.rng = s.rng ∧ t.draws = s.draws)

/-- DBUF under the four ModExp commands: an error changes nothing; a success writes LP bytes at the latched destination
and no other byte (40_command_execution.md section 3). -/
def Obligations.ModExpCommandsWriteOnlyTheirResult : Prop :=
  ∀ (i : Instr) (s t : State) (L : Descriptor), (i = .modexp ∨ i = .modexpInv ∨ i = .modmul ∨ i = .genExp) →
    s.latched = some L → exec i s = .next t →
    (t.errcode ≠ 0 → t.dbuf = s.dbuf ∧ t.outLen = 0) ∧ (t.errcode = 0 → t.outLen.toNat = LP) ∧
    ∀ a, ¬Inside L.dstAddr.toNat LP a → readByte t.dbuf a = readByte s.dbuf a

/-- DBUF under SHA256, SHA256_COMPRESS and HMAC_SHA256: 32 bytes at the latched destination, or nothing. -/
def Obligations.HashCommandsWriteOnlyTheirDigest : Prop :=
  ∀ (i : Instr) (s t : State) (L : Descriptor), (i = .sha256 ∨ i = .sha256Compress ∨ i = .hmacSha256) →
    s.latched = some L → exec i s = .next t →
    (t.errcode ≠ 0 → t.dbuf = s.dbuf ∧ t.outLen = 0) ∧ (t.errcode = 0 → t.outLen.toNat = 32) ∧
    ∀ a, ¬Inside L.dstAddr.toNat 32 a → readByte t.dbuf a = readByte s.dbuf a

/-- DBUF under CBC_ENCRYPT: the whole record at the latched destination, or nothing. -/
def Obligations.EncryptWritesOnlyItsRecord : Prop :=
  ∀ (s t : State) (L : Descriptor), s.latched = some L → exec .cbcEncrypt s = .next t →
    (t.errcode ≠ 0 → t.dbuf = s.dbuf ∧ t.outLen = 0) ∧
    (t.errcode = 0 → t.outLen.toNat = 48 + 16 * (L.src0Len.toNat / 16 + 1)) ∧
    ∀ a, ¬Inside L.dstAddr.toNat (48 + 16 * (L.src0Len.toNat / 16 + 1)) a → readByte t.dbuf a = readByte s.dbuf a

/-- DBUF under CBC_DECRYPT: OUT_LEN bytes at the latched destination, at most `R − 49`, or nothing; the rest of the
destination region keeps its old bytes. -/
def Obligations.DecryptWritesOnlyItsPlaintext : Prop :=
  ∀ (s t : State) (L : Descriptor), s.latched = some L → exec .cbcDecrypt s = .next t →
    (t.errcode ≠ 0 → t.dbuf = s.dbuf ∧ t.outLen = 0) ∧ t.outLen.toNat ≤ L.src0Len.toNat - 49 ∧
    ∀ a, ¬Inside L.dstAddr.toNat t.outLen.toNat a → readByte t.dbuf a = readByte s.dbuf a

/-- The result of a command is a function of the latched descriptor, DBUF, FATAL and the oracle's answers
(40_command_execution.md section 3): no other register matters. -/
def Obligations.ResultDependsOnlyOnTheLatchedInputs : Prop :=
  ∀ (i : Instr) (s s' t : State), s'.latched = s.latched → s'.dbuf = s.dbuf → s'.fatal = s.fatal → s'.rng = s.rng →
    s'.draws = s.draws → exec i s = .next t →
    ∃ t', exec i s' = .next t' ∧ t'.dbuf = t.dbuf ∧ t'.errcode = t.errcode ∧ t'.outLen = t.outLen ∧ t'.fatal = t.fatal

/-- A command reads nothing outside its source regions (20_memory.md section 4): two DBUFs that agree there give the same
code, the same length and the same output bytes. -/
def Obligations.OnlyTheSourceRegionsAreRead : Prop :=
  ∀ (i : Instr) (s s' t : State) (L : Descriptor), s.latched = some L → s'.latched = some L → s'.fatal = s.fatal →
    s'.rng = s.rng → s'.draws = s.draws → Memory.wf s.dbuf = true → Memory.wf s'.dbuf = true →
    (∀ r ∈ sourceList i L, ∀ a, Inside r.1 r.2 a → readByte s'.dbuf a = readByte s.dbuf a) →
    exec i s = .next t →
    ∃ t', exec i s' = .next t' ∧ t'.errcode = t.errcode ∧ t'.outLen = t.outLen ∧
      ∀ a, Inside L.dstAddr.toNat t.outLen.toNat a → readByte t'.dbuf a = readByte t.dbuf a

/-! ## Every step -/

/-- Every step keeps the invariant of `Coherent`: the latch goes with BUSY, the flags of a command in flight, the listed
codes, FATAL with ENTROPY, and DBUF's canonical form and size. -/
def Obligations.EveryStepKeepsCoherence : Prop :=
  ∀ s t : State, Coherent s → step s = .next t → Coherent t

/-- The state after reset meets the invariant. -/
def Obligations.ResetIsCoherent : Prop := Coherent State.reset

/-- From a coherent state every step answers a next state: no input makes the block, or the model, stop
(40_command_execution.md section 3, "No malformed input crashes the block"). -/
def Obligations.CoherentBlockNeverStops : Prop :=
  ∀ s : State, Coherent s → Answers (step s)

/-- Every command in flight completes, whatever its descriptor and DBUF hold, with a listed code, and the block is then
idle with DONE set (40_command_execution.md section 3). -/
def Obligations.EveryCommandInFlightCompletes : Prop :=
  ∀ (i : Instr) (s : State) (L : Descriptor), s.latched = some L →
    ∃ t, exec i s = .next t ∧ t.done = true ∧ t.busy = false ∧ t.latched = none ∧ t.errcode.toNat ≤ 8

/-- FATAL is cleared by nothing but a hardware reset (70_reset_and_hazards.md section 1). -/
def Obligations.OnlyAHardwareResetClearsFatal : Prop :=
  ∀ s t : State, step s = .next t → s.fatal = true → t.fatal = true ∨ ∃ rest, s.turns = .reset :: rest

/-- FATAL is set by nothing but a completion with ENTROPY (10_state.md section 2). -/
def Obligations.OnlyAnEntropyCompletionSetsFatal : Prop :=
  ∀ s t : State, step s = .next t → s.fatal = false → t.fatal = true →
    s.busy = true ∧ t.busy = false ∧ t.done = true ∧ t.errcode = 0x08

/-- A command in flight is disturbed by nothing that leaves it in flight: no host access changes its latch, CMD, the
flags of its result or any byte of DBUF (40_command_execution.md section 2, 10_state.md section 4). -/
def Obligations.NothingDisturbsACommandInFlight : Prop :=
  ∀ s t : State, step s = .next t → s.busy = true → t.busy = true →
    t.latched = s.latched ∧ t.dbuf = s.dbuf ∧ t.cmd = s.cmd ∧ t.errcode = s.errcode ∧ t.outLen = s.outLen ∧
      t.fatal = s.fatal

/-! ## The host port -/

/-- 40_command_execution.md R113, R114 and R115: a write to CMD is accepted by an idle block, whatever the word and
whatever FATAL, and is dropped by a busy one, which sets CMD_OVR and nothing else. -/
def Obligations.CommandWriteIsAcceptedOrOverrun : Prop :=
  ∀ (P : Params) (v : Word) (s : State),
    (s.busy = false →
      portAccess P (.write 0x014 .word v) s =
        (⟨.okay, 0⟩,
          { s with
            cmd := v
            latched := some ⟨v, s.src0Addr, s.src0Len, s.src1Addr, s.src1Len, s.dstAddr, s.dstLen⟩
            busy := true
            done := false
            errcode := 0x00
            outLen := 0 }) ∧
      irq (portAccess P (.write 0x014 .word v) s).2 = false) ∧
    (s.busy = true → portAccess P (.write 0x014 .word v) s = (⟨.okay, 0⟩, { s with cmdOvr := true }))

/-- The register window read by offset, with no side effect; every other aligned offset reads 0 (10_state.md section 2). -/
def Obligations.RegisterReadsFollowTheMap : Prop :=
  ∀ (P : Params) (s : State),
    (∀ off, off < 0x1000 → off % 4 = 0 →
      portAccess P (.read off .word) s = (⟨.okay, regRead P s off⟩, s)) ∧
    regRead P s 0x000 = 0x54520107 ∧ regRead P s 0x004 = BitVec.ofNat 32 P.lp ∧
    regRead P s 0x008 = BitVec.ofNat 32 P.bufBytes ∧ regRead P s 0x00C = (if s.irqEn then 2 else 0) ∧
    regRead P s 0x014 = s.cmd ∧ regRead P s 0x018 = s.src0Addr ∧ regRead P s 0x01C = s.src0Len ∧
    regRead P s 0x020 = s.src1Addr ∧ regRead P s 0x024 = s.src1Len ∧ regRead P s 0x028 = s.dstAddr ∧
    regRead P s 0x02C = s.dstLen ∧ regRead P s 0x030 = s.outLen ∧
    ∀ off, 0x034 ≤ off → regRead P s off = 0

/-- A write to a descriptor register stores the value, busy or not; a write to a read-only or reserved offset is ignored
(10_state.md section 2). -/
def Obligations.RegisterWritesFollowTheMap : Prop :=
  ∀ (P : Params) (v : Word) (s : State),
    portAccess P (.write 0x018 .word v) s = (⟨.okay, 0⟩, { s with src0Addr := v }) ∧
    portAccess P (.write 0x01C .word v) s = (⟨.okay, 0⟩, { s with src0Len := v }) ∧
    portAccess P (.write 0x020 .word v) s = (⟨.okay, 0⟩, { s with src1Addr := v }) ∧
    portAccess P (.write 0x024 .word v) s = (⟨.okay, 0⟩, { s with src1Len := v }) ∧
    portAccess P (.write 0x028 .word v) s = (⟨.okay, 0⟩, { s with dstAddr := v }) ∧
    portAccess P (.write 0x02C .word v) s = (⟨.okay, 0⟩, { s with dstLen := v }) ∧
    ∀ off, off < 0x1000 → off % 4 = 0 → (off < 0x00C ∨ 0x030 ≤ off) →
      portAccess P (.write off .word v) s = (⟨.okay, 0⟩, s)

/-- STATUS read as a number, and a write of 1 clearing DONE, CMD_OVR and ACC_ERR and nothing else (10_state.md section 2). -/
def Obligations.StatusPacksTheFlagsAndClearsByOnes : Prop :=
  ∀ (P : Params) (v : Word) (s : State),
    (regRead P s 0x010).toNat =
      s.busy.toNat + 2 * s.done.toNat + 4 * s.fatal.toNat + 8 * s.cmdOvr.toNat + 16 * s.accErr.toNat
        + 256 * s.errcode.toNat ∧
    portAccess P (.write 0x010 .word v) s =
      (⟨.okay, 0⟩,
        { s with
          done := if v.getLsbD 1 then false else s.done
          cmdOvr := if v.getLsbD 3 then false else s.cmdOvr
          accErr := if v.getLsbD 4 then false else s.accErr })

/-- 70_reset_and_hazards.md R302 and 10_state.md R26: CTRL reads IRQ_EN in bit 1 and 0 elsewhere; a write to it sets
IRQ_EN from bit 1, busy or not; with bit 0 set
an idle block is then reset but for FATAL, and a busy one is left alone. -/
def Obligations.ControlWriteAndSoftReset : Prop :=
  State.reset.irqEn = false ∧ ∀ (P : Params) (v : Word) (s : State),
    portAccess P (.read 0x00C .word) s = (⟨.okay, if s.irqEn then 2 else 0⟩, s) ∧
    (v.getLsbD 0 = false ∨ s.busy = true →
      portAccess P (.write 0x00C .word v) s = (⟨.okay, 0⟩, { s with irqEn := v.getLsbD 1 })) ∧
    (v.getLsbD 0 = true → s.busy = false →
      portAccess P (.write 0x00C .word v) s =
        (⟨.okay, 0⟩,
          { s with
            irqEn := false, done := false, cmdOvr := false, accErr := false, errcode := 0x00, cmd := 0,
            src0Addr := 0, src0Len := 0, src1Addr := 0, src1Len := 0, dstAddr := 0, dstLen := 0, outLen := 0,
            dbuf := [] }) ∧
      ∀ a, readByte (portAccess P (.write 0x00C .word v) s).2.dbuf a = 0x00)

/-- 70_reset_and_hazards.md R300: a hardware reset gives every piece of state its reset value, in every state, whether or
not a command is in flight. That the moves still to come, the oracle's answers, their count and the last reply stay is
the model's choice (log 2, log 6): R300 says nothing of them. -/
def Obligations.HardwareResetClearsEveryPieceOfState : Prop :=
  ∀ (s : State) (rest : List Turn), s.turns = .reset :: rest →
    ∃ t, step s = .next t ∧
      t.irqEn = false ∧ t.busy = false ∧ t.done = false ∧ t.fatal = false ∧ t.cmdOvr = false ∧ t.accErr = false ∧
      t.errcode = 0x00 ∧ t.cmd = 0 ∧ t.src0Addr = 0 ∧ t.src0Len = 0 ∧ t.src1Addr = 0 ∧ t.src1Len = 0 ∧
      t.dstAddr = 0 ∧ t.dstLen = 0 ∧ t.outLen = 0 ∧ t.latched = none ∧ (∀ a, readByte t.dbuf a = 0x00) ∧
      irq t = false ∧ t.turns = rest ∧ t.rng = s.rng ∧ t.draws = s.draws ∧ t.reply = s.reply

/-- What every register and every DBUF byte reads right after reset (10_state.md sections 2 and 5). -/
def Obligations.ResetValuesOfTheRegisters : Prop :=
  regRead Config.params State.reset 0x000 = 0x54520107 ∧
  (regRead Config.params State.reset 0x004).toNat = LP ∧
  (regRead Config.params State.reset 0x008).toNat = BUF ∧
  (∀ off, 0x00C ≤ off → regRead Config.params State.reset off = 0) ∧
  (∀ a, readByte State.reset.dbuf a = 0x00) ∧ State.reset.latched = none ∧ irq State.reset = false

/-- 20_memory.md R64: an access that is not permitted gets SLVERR with data 0 and changes no state; a permitted one gets
OKAY. -/
def Obligations.RefusedAccessChangesNothing : Prop :=
  ∀ (P : Params) (off : Nat) (w : Width) (v : Word) (s : State),
    (¬Permitted P off w →
      portAccess P (.read off w) s = (⟨.slverr, 0⟩, s) ∧ portAccess P (.write off w v) s = (⟨.slverr, 0⟩, s)) ∧
    (Permitted P off w →
      (portAccess P (.read off w) s).1.resp = .okay ∧ (portAccess P (.write off w v) s).1.resp = .okay)

/-- 20_memory.md R65: the lanes of the DBUF window are little-endian, for every width, while the engine is idle. That a
narrow read is 0 above its `8·w` bits, and that a narrow write takes the low bits of a 32-bit word, is the model's choice
(log 12). -/
def Obligations.BufferLanesAreLittleEndian : Prop :=
  ∀ (P : Params) (s : State) (a : Nat) (v : Word), s.busy = false → Memory.wf s.dbuf = true →
    (a + 1 ≤ P.bufBytes →
      portAccess P (.read (0x10000 + a) .byte) s = (⟨.okay, (readByte s.dbuf a).setWidth 32⟩, s)) ∧
    (a % 2 = 0 → a + 2 ≤ P.bufBytes →
      portAccess P (.read (0x10000 + a) .half) s =
        (⟨.okay, (readByte s.dbuf (a + 1) ++ readByte s.dbuf a : BitVec 16).setWidth 32⟩, s)) ∧
    (a % 4 = 0 → a + 4 ≤ P.bufBytes →
      portAccess P (.read (0x10000 + a) .word) s =
        (⟨.okay, readByte s.dbuf (a + 3) ++ readByte s.dbuf (a + 2) ++ readByte s.dbuf (a + 1) ++ readByte s.dbuf a⟩,
          s)) ∧
    (∀ w : Width, a % widthBytes w = 0 → a + widthBytes w ≤ P.bufBytes →
      ∃ m, portAccess P (.write (0x10000 + a) w v) s = (⟨.okay, 0⟩, { s with dbuf := m }) ∧
        (∀ k, k < widthBytes w → readByte m (a + k) = v.extractLsb' (8 * k) 8) ∧
        ∀ x, ¬Inside a (widthBytes w) x → readByte m x = readByte s.dbuf x)

/-- 20_memory.md R67: while a command is in flight a DBUF write is dropped, a read returns 0, both set ACC_ERR and respond
OKAY, and DBUF changes only by the completion itself. -/
def Obligations.BufferIsClosedWhileBusy : Prop :=
  (∀ (P : Params) (s : State) (a : Nat) (w : Width) (v : Word), s.busy = true → a % widthBytes w = 0 →
    a + widthBytes w ≤ P.bufBytes →
    portAccess P (.read (0x10000 + a) w) s = (⟨.okay, 0⟩, { s with accErr := true }) ∧
    portAccess P (.write (0x10000 + a) w v) s = (⟨.okay, 0⟩, { s with accErr := true })) ∧
  ∀ s t : State, step s = .next t → s.busy = true → t.busy = true → t.dbuf = s.dbuf

/-! ## The key exchange -/

/-- 49_key_exchange_host.md R254: a 96-byte key encodes to a group element. -/
def Obligations.EncodedKeyIsAGroupElement : Prop :=
  ∀ (P : Params) (K : Bytes), P.Admissible → K.length = 96 →
    (encodeKey P K).length = P.lp ∧ encodeKey P K = List.replicate (P.lp - 96) 0x00 ++ K ∧
    be2int (encodeKey P K) = be2int K ∧ be2int K < 256 ^ 96 ∧ 256 ^ 96 ≤ 2 ^ (P.nbits - 1) ∧
    2 ^ (P.nbits - 1) < P.p ∧ be2int (encodeKey P K) < P.p

/-- Exchange correctness in values (49_key_exchange_host.md section 4): for every admissible group, every exponents of
`[1, q−1]` and every key, Alice's decoding of Bob's message under her public key is Bob's key; and every operand on the way
is a group element, so that no command answers RANGE. -/
def Obligations.ExchangeDeliversBobsKey : Prop :=
  ∀ (P : Params) (a b : Nat) (K : Bytes), P.Admissible → K.length = 96 → 1 ≤ a → a < P.q → 1 ≤ b → b < P.q →
    aliceValue P a (bobValues P (ladder P P.g a) b K) = K ∧
    ladder P P.g a < P.p ∧ (bobValues P (ladder P P.g a) b K).1 < P.p ∧
    (bobValues P (ladder P P.g a) b K).2 < P.p

/-- The key exchange over the block (49_key_exchange_host.md sections 3 and 4): Alice generates her key on one free block,
Bob encrypts his key for her on another, Alice extracts it on a third (all three may be the same block one after the
other), every call with its own offsets and number of polls, whatever the oracle answers short of Fail. Alice ends with
Bob's key, every block is free again, and no secret exponent and no shared value is left where a call put it. A public key
that is no group element stops Bob with RANGE, with the same left of the block. That a procedure is alone with the block
is the model's choice (log 11), and so are the form of the oracle's answers (log 4) and of the removal (log 14). -/
def Obligations.ExchangeOverTheBlockDeliversBobsKey : Prop :=
  ∀ (ag ap bg bb bs bm ei em : HostChoice) (s u v : State) (x y : Nat) (rest rest' : List (Option Nat)) (K : Bytes),
    (∀ c ∈ [ag, ap, bg, bb, bs, bm, ei, em], Separate c) → Free s → Free u → Free v →
    s.rng = some x :: rest → u.rng = some y :: rest' → K.length = 96 →
    (∃ a A m s' u' v',
      aliceGenerate ag ap s = .ok (a, A) s' ∧ bobEncrypt bg bb bs bm K A u = .ok m u' ∧
      aliceExtract ei em a m v = .ok K v' ∧ bobExtract K = K ∧ Free s' ∧ Free u' ∧ Free v' ∧
      s'.rng = rest ∧ u'.rng = rest' ∧ v'.rng = v.rng ∧ Zeroed [ag.ad, ap.a1] s' ∧
      Zeroed [bg.ad, bb.a1, bs.a1, bs.ad, bm.a0] u' ∧ Zeroed [ei.a1] v') ∧
    ∀ A : Bytes, A.length = LP → Config.params.p ≤ be2int A →
      ∃ u', bobEncrypt bg bb bs bm K A u = .error (.code 0x06) u' ∧ Free u' ∧ u'.errcode = 0x06 ∧ u'.rng = rest' ∧
        Zeroed [bg.ad, bb.a1, bs.a1, bs.ad, bm.a0] u'

/-- The host's boot sequence succeeds exactly where its checks hold (70_reset_and_hazards.md section 2): the host's width is
the block's, its commands fit, no command is in flight and FATAL is 0. It then changes no more than IRQ_EN, which it sets
when the interrupt is used; right after reset it succeeds on any block that the host's group and commands fit. That a check
that fails stops the sequence with this reason and no further access (log 15), that the host is alone with the block and
starts from the state its step 1 leaves (log 11), and the fields `turns` and `reply` (log 2, log 5) are the model's choice. -/
def Obligations.BootSucceedsAfterReset : Prop :=
  (∀ (width need : Nat) (useIrq : Bool) (s : State), width = LP → need ≤ BUF → s.busy = false → s.fatal = false →
    ∃ r, hostBoot width need useIrq s = .ok () { s with turns := [], reply := r, irqEn := s.irqEn || useIrq }) ∧
  (∀ (width need : Nat) (useIrq : Bool) (s : State), (width ≠ LP ∨ BUF < need ∨ s.busy = true ∨ s.fatal = true) →
    ∃ r, hostBoot width need useIrq s = .error .malformed { s with turns := [], reply := r }) ∧
  ∀ (need : Nat) (useIrq : Bool), need ≤ BUF →
    ∃ s', hostBoot LP need useIrq State.reset = .ok () s' ∧ s'.irqEn = useIrq ∧ s'.busy = false ∧ irq s' = false
end

