-- ==== Sys2Proof/Laws/Memory.lean ====
section
/-! SUPPORT. Sys2Proof/Laws/Memory.lean: the laws of DBUF's operations: read after write, the canonical form, and the
integers of byte strings. -/

namespace Sys2Proof.Machine

/-! ## One byte -/

@[simp] theorem readByte_nil (a : Nat) : readByte [] a = unlistedByte := rfl

/-- Below every listed offset, a memory list in canonical form reads as unlisted. -/
theorem readByte_of_wfFrom {a : Nat} : ∀ {m : Memory} {lo : Nat}, wfFrom lo m = true → a < lo →
    readByte m a = unlistedByte
  | [], _, _, _ => rfl
  | (k, v) :: rest, lo, h, ha => by
    simp only [wfFrom, Bool.and_eq_true, decide_eq_true_eq] at h
    have hk : k ≠ a := by omega
    simp only [readByte, if_neg hk]
    exact readByte_of_wfFrom h.2 (by omega)

theorem wfFrom_mono {lo lo' : Nat} : ∀ {m : Memory}, wfFrom lo m = true → lo' ≤ lo → wfFrom lo' m = true
  | [], _, _ => rfl
  | (k, v) :: rest, h, hl => by
    simp only [wfFrom, Bool.and_eq_true, decide_eq_true_eq] at h ⊢
    exact ⟨⟨by omega, h.1.2⟩, h.2⟩

theorem wfFrom_writeByte {a : Nat} {b : Byte} : ∀ {m : Memory} {lo : Nat}, wfFrom lo m = true → lo ≤ a →
    wfFrom lo (writeByte m a b) = true
  | [], lo, _, ha => by
    by_cases hb : b = unlistedByte <;> simp [writeByte, wfFrom, hb, ha]
  | (k, v) :: rest, lo, h, ha => by
    have h' := h
    simp only [wfFrom, Bool.and_eq_true, decide_eq_true_eq] at h
    unfold writeByte
    split
    · split
      · exact h'
      · rename_i h1 h2
        simp only [wfFrom, Bool.and_eq_true, decide_eq_true_eq]
        exact ⟨⟨ha, h2⟩, ⟨⟨by omega, h.1.2⟩, h.2⟩⟩
    · split
      · split
        · exact wfFrom_mono h.2 (by omega)
        · rename_i h1 h2 h3
          simp only [wfFrom, Bool.and_eq_true, decide_eq_true_eq]
          exact ⟨⟨ha, h3⟩, by subst h2; exact h.2⟩
      · simp only [wfFrom, Bool.and_eq_true, decide_eq_true_eq]
        exact ⟨h.1, wfFrom_writeByte h.2 (by omega)⟩

/-- A byte write keeps the canonical form. -/
theorem wf_writeByte {m : Memory} (h : Memory.wf m = true) (a : Nat) (b : Byte) :
    Memory.wf (writeByte m a b) = true := wfFrom_writeByte h (Nat.zero_le a)

/-- Reading after writing one byte of a memory in canonical form. -/
theorem readByte_writeByte_of_wfFrom {a x : Nat} {b : Byte} : ∀ {m : Memory} {lo : Nat}, wfFrom lo m = true →
    readByte (writeByte m a b) x = if x = a then b else readByte m x
  | [], lo, _ => by
    by_cases hx : x = a
    · by_cases hb : b = unlistedByte <;> simp [writeByte, readByte, hb, hx]
    · have hx' : ¬a = x := fun hh => hx hh.symm
      by_cases hb : b = unlistedByte <;> simp [writeByte, readByte, hb, hx, hx']
  | (k, v) :: rest, lo, h => by
    simp only [wfFrom, Bool.and_eq_true, decide_eq_true_eq] at h
    have ih := readByte_writeByte_of_wfFrom (a := a) (x := x) (b := b) h.2
    unfold writeByte
    split
    · rename_i hak
      split
      · rename_i hb
        by_cases hx : x = a
        · subst hx
          rw [if_pos rfl, hb]
          exact readByte_of_wfFrom (lo := k) (m := (k, v) :: rest)
            (by simp only [wfFrom, Bool.and_eq_true, decide_eq_true_eq]; exact ⟨⟨le_refl _, h.1.2⟩, h.2⟩) hak
        · rw [if_neg hx]
      · by_cases hx : x = a
        · simp [readByte, hx]
        · rw [if_neg hx]
          conv_lhs => unfold readByte
          rw [if_neg (fun hh => hx hh.symm)]
    · rename_i hak
      split
      · rename_i hek
        subst hek
        split
        · rename_i hb
          by_cases hx : x = a
          · subst hx
            rw [if_pos rfl, hb]
            exact readByte_of_wfFrom h.2 (by omega)
          · have hx' : ¬a = x := fun hh => hx hh.symm
            simp [readByte, hx, hx']
        · by_cases hx : x = a
          · simp [readByte, hx]
          · have hx' : ¬a = x := fun hh => hx hh.symm
            simp [readByte, hx, hx']
      · rename_i hne
        by_cases hkx : k = x
        · subst hkx
          have : k ≠ a := fun hh => hne hh.symm
          simp [readByte, this]
        · simp only [readByte, if_neg hkx]
          exact ih

/-- Reading after writing one byte. -/
theorem readByte_writeByte {m : Memory} (h : Memory.wf m = true) (a x : Nat) (b : Byte) :
    readByte (writeByte m a b) x = if x = a then b else readByte m x := readByte_writeByte_of_wfFrom h

/-- A byte write leaves every other byte alone, in canonical form or not. -/
theorem readByte_writeByte_ne {a x : Nat} {b : Byte} (hx : x ≠ a) :
    ∀ m : Memory, readByte (writeByte m a b) x = readByte m x
  | [] => by
    unfold writeByte
    split
    · rfl
    · simp [readByte, hx.symm]
  | (k, v) :: rest => by
    unfold writeByte
    split
    · split
      · rfl
      · conv_lhs => unfold readByte
        rw [if_neg hx.symm]
    · split
      · rename_i hek
        subst hek
        split <;> simp [readByte, hx.symm]
      · by_cases hkx : k = x
        · simp [readByte, hkx]
        · simp only [readByte, if_neg hkx]
          exact readByte_writeByte_ne hx rest

theorem below_writeByte {n a : Nat} {b : Byte} (ha : a < n) :
    ∀ {m : Memory}, Memory.below n m = true → Memory.below n (writeByte m a b) = true
  | [], _ => by
    unfold writeByte
    split <;> simp [Memory.below, ha]
  | (k, v) :: rest, h => by
    simp only [Memory.below, List.all_cons, Bool.and_eq_true, decide_eq_true_eq] at h
    have ih := below_writeByte (b := b) ha (m := rest) h.2
    simp only [Memory.below] at ih
    unfold writeByte
    split
    · split <;> simp [Memory.below, ha, h.1, h.2]
    · split
      · split <;> simp [Memory.below, ha, h.2]
      · simp only [Memory.below, List.all_cons, Bool.and_eq_true, decide_eq_true_eq]
        exact ⟨h.1, ih⟩

/-! ## Byte strings -/

@[simp] theorem memRead_length (m : Memory) : ∀ (a n : Nat), (memRead m a n).length = n
  | _, 0 => rfl
  | a, n + 1 => by simp [memRead, memRead_length m (a + 1) n]

theorem memRead_congr {m m' : Memory} : ∀ {a n : Nat}, (∀ k, a ≤ k → k < a + n → readByte m k = readByte m' k) →
    memRead m a n = memRead m' a n
  | _, 0, _ => rfl
  | a, n + 1, h => by
    rw [memRead, memRead, h a (le_refl a) (by omega), memRead_congr fun k h1 h2 => h k (by omega) (by omega)]

theorem wf_memWrite : ∀ {m : Memory}, Memory.wf m = true → ∀ (a : Nat) (bs : Bytes), Memory.wf (memWrite m a bs) = true
  | _, h, _, [] => h
  | _, h, a, b :: bs => wf_memWrite (wf_writeByte h a b) (a + 1) bs

theorem below_memWrite {n : Nat} : ∀ {m : Memory} {a : Nat} {bs : Bytes}, Memory.below n m = true →
    a + bs.length ≤ n → Memory.below n (memWrite m a bs) = true
  | _, _, [], h, _ => h
  | m, a, b :: bs, h, hn => by
    simp only [List.length_cons] at hn
    exact below_memWrite (m := writeByte m a b) (below_writeByte (by omega) h) (by omega)

/-- A byte string write leaves every byte outside it alone. -/
theorem readByte_memWrite_outside {x : Nat} : ∀ {m : Memory} {a : Nat} {bs : Bytes}, (x < a ∨ a + bs.length ≤ x) →
    readByte (memWrite m a bs) x = readByte m x
  | _, _, [], _ => rfl
  | m, a, b :: bs, h => by
    simp only [List.length_cons] at h
    rw [memWrite, readByte_memWrite_outside (m := writeByte m a b) (by omega), readByte_writeByte_ne (by omega)]

/-- Reading back what was written. -/
theorem memRead_memWrite : ∀ {m : Memory} {a : Nat} {bs : Bytes}, Memory.wf m = true →
    memRead (memWrite m a bs) a bs.length = bs
  | _, _, [], _ => rfl
  | m, a, b :: bs, h => by
    rw [memWrite, List.length_cons, memRead, memRead_memWrite (wf_writeByte h a b),
      readByte_memWrite_outside (by omega), readByte_writeByte h, if_pos rfl]

/-- A byte read inside a write. -/
theorem readByte_memWrite_inside : ∀ {m : Memory} {a : Nat} {bs : Bytes}, Memory.wf m = true → ∀ k, k < bs.length →
    bs[k]? = some (readByte (memWrite m a bs) (a + k))
  | m, a, b :: bs, h, 0, _ => by
    rw [memWrite, readByte_memWrite_outside (by omega), Nat.add_zero, readByte_writeByte h, if_pos rfl]
    rfl
  | m, a, b :: bs, h, k + 1, hk => by
    rw [memWrite, List.getElem?_cons_succ, readByte_memWrite_inside (wf_writeByte h a b) k (by simpa using hk)]
    congr 2
    omega

/-- What zeros written over a region leave. -/
theorem readByte_memWrite_zeros {m : Memory} (h : Memory.wf m = true) (a n k : Nat) :
    readByte (memWrite m a (List.replicate n 0x00)) k = if a ≤ k ∧ k < a + n then 0x00 else readByte m k := by
  split
  · rename_i hk
    have := readByte_memWrite_inside (a := a) (bs := List.replicate n 0x00) h (k - a)
      (by rw [List.length_replicate]; omega)
    rw [Nat.add_sub_cancel' hk.1, List.getElem?_replicate, if_pos (by omega)] at this
    exact (Option.some.inj this).symm
  · rw [readByte_memWrite_outside (by rw [List.length_replicate]; omega)]

/-- A byte string read outside a write. -/
theorem memRead_memWrite_disjoint {m : Memory} {a n a' : Nat} {bs : Bytes} (h : a + n ≤ a' ∨ a' + bs.length ≤ a) :
    memRead (memWrite m a' bs) a n = memRead m a n :=
  memRead_congr fun _ _ _ => readByte_memWrite_outside (by omega)

/-! ## Integers of byte strings -/

@[simp] theorem int2be_length : ∀ n x : Nat, (int2be n x).length = n
  | 0, _ => rfl
  | n + 1, x => by simp [int2be, int2be_length n x]

theorem foldl_be (s : Bytes) : ∀ acc : Nat,
    s.foldl (fun acc b => acc * 256 + b.toNat) acc = acc * 256 ^ s.length + be2int s := by
  induction s with
  | nil => intro acc; simp [be2int]
  | cons b s ih =>
    intro acc
    simp only [List.foldl_cons, List.length_cons, be2int]
    rw [ih (acc * 256 + b.toNat), ih (0 * 256 + b.toNat)]
    ring

@[simp] theorem be2int_nil : be2int [] = 0 := rfl

theorem be2int_cons (b : Byte) (s : Bytes) : be2int (b :: s) = b.toNat * 256 ^ s.length + be2int s := by
  rw [be2int, List.foldl_cons, foldl_be]
  simp

theorem be2int_lt (s : Bytes) : be2int s < 256 ^ s.length := by
  induction s with
  | nil => simp
  | cons b s ih =>
    rw [be2int_cons, List.length_cons, pow_succ]
    have hb := b.isLt
    have : (b.toNat + 1) * 256 ^ s.length ≤ 256 * 256 ^ s.length := Nat.mul_le_mul_right _ (by omega)
    rw [Nat.add_mul] at this
    omega

/-- The integer of a fixed-width string. -/
theorem be2int_int2be : ∀ n x : Nat, be2int (int2be n x) = x % 256 ^ n
  | 0, x => by simp [int2be, Nat.mod_one]
  | n + 1, x => by
    rw [int2be, be2int_cons, int2be_length, be2int_int2be n x, BitVec.toNat_ofNat, pow_succ 256 n,
      Nat.mod_mul (a := 256 ^ n), Nat.add_comm, Nat.mul_comm]

/-- A fixed-width string has only the low bytes of its integer. -/
theorem int2be_add_mul : ∀ n x y : Nat, int2be n (y * 256 ^ n + x) = int2be n x
  | 0, _, _ => rfl
  | n + 1, x, y => by
    rw [int2be, int2be]
    congr 1
    · rw [pow_succ, ← mul_assoc, mul_right_comm, Nat.add_comm, Nat.add_mul_div_right _ _ (by positivity)]
      apply BitVec.eq_of_toNat_eq
      simp
    · rw [pow_succ, mul_comm (256 ^ n), ← mul_assoc, int2be_add_mul n]

/-- The string of a string's integer, at its own width. -/
theorem int2be_be2int : ∀ l : Bytes, int2be l.length (be2int l) = l
  | [] => rfl
  | b :: l => by
    rw [List.length_cons, int2be, be2int_cons, int2be_add_mul, int2be_be2int l]
    congr 1
    rw [Nat.add_comm, Nat.add_mul_div_right _ _ (by positivity), Nat.div_eq_of_lt (be2int_lt l), Nat.zero_add]
    simp

/-- The memory after reset is in canonical form. -/
theorem wf_reset : Memory.wf State.reset.dbuf = true := rfl

theorem xorBytes_length (x y : Bytes) : (xorBytes x y).length = min x.length y.length := by
  simp [xorBytes]

theorem blocks_length (n : Nat) : ∀ (m : Nat) (s : Bytes), (blocks n m s).length = m
  | 0, _ => rfl
  | m + 1, s => by simp [blocks, blocks_length n m]

/-- Every block of a string of `n·m` bytes has `n` bytes. -/
theorem blocks_forall_length {n : Nat} : ∀ {m : Nat} {s : Bytes}, s.length = n * m → ∀ b ∈ blocks n m s, b.length = n
  | 0, _, _, b, hb => by simp [blocks] at hb
  | m + 1, s, h, b, hb => by
    rw [Nat.mul_succ] at h
    simp only [blocks, List.mem_cons] at hb
    rcases hb with rfl | hb
    · simp; omega
    · exact blocks_forall_length (by simp; omega) b hb

end Sys2Proof.Machine
end

