-- ==== Sys2Proof/Laws/Params.lean ====
section
/-! SUPPORT. Sys2Proof/Laws/Params.lean: arithmetic facts of the parameters (00_scope.md R8, R10). -/

namespace Sys2Proof.Params

/-- `p < 2^NBITS`. -/
theorem p_lt_two_pow_nbits (P : Params) : P.p < 2 ^ P.nbits := Nat.lt_log2_self

/-- A number below `p` fits in `LP` bytes: `p < 2^(8·LP)`. -/
theorem p_lt_two_pow (P : Params) : P.p < 2 ^ (8 * P.lp) :=
  lt_of_lt_of_le P.p_lt_two_pow_nbits (Nat.pow_le_pow_right (by norm_num) (by unfold lp; omega))

/-- A number below `p` fits in `LP` bytes: `p < 256^LP`. -/
theorem p_lt_pow (P : Params) : P.p < 256 ^ P.lp := by
  have h := P.p_lt_two_pow
  rwa [pow_mul] at h

theorem pow_le_of_log2 {x n : Nat} (h0 : x ≠ 0) (hn : 8 * n ≤ Nat.log2 x) : 256 ^ n ≤ x := by
  have h : 2 ^ (8 * n) ≤ x := le_trans (Nat.pow_le_pow_right (by norm_num) hn) (Nat.log2_self_le h0)
  rwa [pow_mul] at h

namespace Admissible

variable {P : Params} (h : P.Admissible)
include h

theorem lp_ge : 97 ≤ P.lp := by
  have := h.nbits_ge
  unfold lp
  omega

theorem buf_ge_lp : 4 * P.lp ≤ P.bufBytes := le_trans (le_max_right _ _) h.buf_ge

theorem buf_ge_512 : 512 ≤ P.bufBytes := le_trans (le_max_left _ _) h.buf_ge

/-- A 96-byte string is below `p` (00_scope.md R10, 49_key_exchange_host.md R254). -/
theorem pow_le_p : 256 ^ 96 ≤ P.p := by
  have hn := h.nbits_ge
  unfold nbits at hn
  exact pow_le_of_log2 h.p_prime.ne_zero (by omega)

/-- `p = 2q + 1`. -/
theorem p_eq : P.p = 2 * P.q + 1 := by
  have hp := h.p_prime.eq_two_or_odd
  have hq := h.q_prime.two_le
  unfold q at hq ⊢
  omega

theorem q_ge_two : 2 ≤ P.q := h.q_prime.two_le

theorem q_lt_p : P.q < P.p := by
  have := h.p_eq
  omega

theorem one_lt_p : 1 < P.p := h.p_prime.one_lt

end Admissible

end Sys2Proof.Params

namespace Sys2Proof.Config

theorem lp_ge : 97 ≤ params.lp := params_admissible.lp_ge
theorem lp_le : params.lp ≤ 1024 := params_admissible.lp_le
theorem buf_ge_lp : 4 * params.lp ≤ params.bufBytes := params_admissible.buf_ge_lp
theorem buf_ge_512 : 512 ≤ params.bufBytes := params_admissible.buf_ge_512
theorem buf_le : params.bufBytes ≤ 65536 := params_admissible.buf_le
theorem one_lt_p : 1 < params.p := params_admissible.one_lt_p

end Sys2Proof.Config
end

