-- ==== Sys2Proof/Laws/Results.lean ====
section
/-! SUPPORT. Sys2Proof/Laws/Results.lean: the lengths of the commands' outputs (30_encoding.md R93). -/

namespace Sys2Proof.Machine

@[simp] theorem hashBytes_length (H : HashState) : (hashBytes H).length = 32 := by
  simp [hashBytes]

@[simp] theorem sha256_length (M : Bytes) : (sha256 M).length = 32 := hashBytes_length _

@[simp] theorem hmac_length (K M : Bytes) : (hmac K M).length = 32 := sha256_length _

@[simp] theorem recordMac_length (mk iv C : Bytes) : (recordMac mk iv C).length = 32 := hmac_length _ _

@[simp] theorem drawnBlock_length (n : Nat) : (drawnBlock n).length = 16 := int2be_length _ _

theorem pad16_length (M : Bytes) : (pad16 M).length = 16 * (M.length / 16 + 1) := by
  simp only [pad16, List.length_append, List.length_replicate]
  omega

theorem cipherKey_length {K : Bytes} (h : K.length = 96) : (cipherKey K).length = 32 := by
  simp [cipherKey, h]

theorem macKey_length {K : Bytes} (h : K.length = 96) : (macKey K).length = 64 := by
  simp [macKey, h]

theorem cbcEncBlocks_length {P : Params} (hP : P.Admissible) {ck : Bytes} (hk : ck.length = 32) :
    ∀ {bs : List Bytes} {prev : Bytes}, prev.length = 16 → (∀ b ∈ bs, b.length = 16) →
      (cbcEncBlocks P ck prev bs).length = 16 * bs.length
  | [], _, _, _ => rfl
  | b :: rest, prev, hp, hb => by
    have h0 : b.length = 16 := hb b (by simp)
    have hc : (P.bcE ck (xorBytes prev b)).length = 16 := hP.bcE_length _ _ hk (by simp [xorBytes_length, hp, h0])
    have ih := cbcEncBlocks_length hP hk (bs := rest) hc fun x hx => hb x (by simp [hx])
    simp only [cbcEncBlocks, List.length_append, List.length_cons, hc, ih]
    ring

theorem cbcEnc_length {P : Params} (hP : P.Admissible) {ck iv M : Bytes} (hk : ck.length = 32) (hi : iv.length = 16)
    (hM : M.length % 16 = 0) : (cbcEnc P ck iv M).length = M.length := by
  have hl : M.length = 16 * (M.length / 16) := by omega
  rw [cbcEnc, cbcEncBlocks_length hP hk hi (blocks_forall_length hl), blocks_length]
  omega

theorem xorBytes_cancel : ∀ {x y : Bytes}, x.length = y.length → xorBytes (xorBytes x y) x = y
  | [], [], _ => rfl
  | a :: x, b :: y, h => by
    have := xorBytes_cancel (x := x) (y := y) (by simpa using h)
    simp only [xorBytes] at this
    simp [xorBytes, this]

theorem blocks_flatten {n : Nat} : ∀ {m : Nat} {s : Bytes}, s.length = n * m → (blocks n m s).flatten = s
  | 0, s, h => by
    simp only [Nat.mul_zero, List.length_eq_zero_iff] at h
    simp [blocks, h]
  | m + 1, s, h => by
    rw [Nat.mul_succ] at h
    rw [blocks, List.flatten_cons, blocks_flatten (by simp; omega), List.take_append_drop]

/-- Decryption of whole blocks undoes their encryption (44_cbc_pkcs7.md R215, R218, R222). -/
theorem cbcDecBlocks_cbcEncBlocks {P : Params} (hP : P.Admissible) {ck : Bytes} (hk : ck.length = 32) :
    ∀ {bs : List Bytes} {prev : Bytes}, prev.length = 16 → (∀ b ∈ bs, b.length = 16) →
      cbcDecBlocks P ck prev (blocks 16 bs.length (cbcEncBlocks P ck prev bs)) = bs.flatten
  | [], _, _, _ => rfl
  | b :: rest, prev, hp, hb => by
    have h0 : b.length = 16 := hb b (by simp)
    have hx : (xorBytes prev b).length = 16 := by simp [xorBytes_length, hp, h0]
    have hc : (P.bcE ck (xorBytes prev b)).length = 16 := hP.bcE_length _ _ hk hx
    have ih := cbcDecBlocks_cbcEncBlocks hP hk (bs := rest) hc fun x hx => hb x (by simp [hx])
    simp only [cbcEncBlocks, List.length_cons, blocks, cbcDecBlocks]
    rw [List.take_append_of_le_length (by omega), List.take_of_length_le (by omega), List.drop_left' hc, ih,
      hP.bc_inverse _ _ hk hx, xorBytes_cancel (by omega), List.flatten_cons]

theorem cbcDec_cbcEnc {P : Params} (hP : P.Admissible) {ck iv M : Bytes} (hk : ck.length = 32) (hi : iv.length = 16)
    (hM : M.length % 16 = 0) : cbcDec P ck iv (cbcEnc P ck iv M) = M := by
  have hl : M.length = 16 * (M.length / 16) := by omega
  have h := cbcDecBlocks_cbcEncBlocks hP hk hi (blocks_forall_length hl)
  rw [blocks_length, blocks_flatten hl] at h
  rw [cbcDec, cbcEnc_length hP hk hi hM, cbcEnc, h]

theorem unpad16_length {M X : Bytes} (h : unpad16 M = some X) : X.length + 1 ≤ M.length := by
  unfold unpad16 at h
  simp only at h
  split at h
  · cases h
  · rename_i hn
    split at h
    · cases h
      rcases M with _ | ⟨b, M⟩
      · simp at hn
      · simp only [List.length_take, List.length_cons] at *
        omega
    · cases h

theorem cbcDecBlocks_length_le {P : Params} {ck : Bytes} :
    ∀ {bs : List Bytes} {prev : Bytes}, prev.length ≤ 16 → (∀ b ∈ bs, b.length ≤ 16) →
      (cbcDecBlocks P ck prev bs).length ≤ 16 * bs.length
  | [], _, _, _ => le_refl _
  | c :: rest, prev, hp, hb => by
    have h0 : c.length ≤ 16 := hb c (by simp)
    have ih := cbcDecBlocks_length_le (P := P) (ck := ck) (bs := rest) h0 fun x hx => hb x (by simp [hx])
    simp only [cbcDecBlocks, List.length_append, xorBytes_length, List.length_cons]
    omega

theorem blocks_forall_length_le {n : Nat} : ∀ {m : Nat} {s : Bytes}, ∀ b ∈ blocks n m s, b.length ≤ n
  | 0, _, b, hb => by simp [blocks] at hb
  | m + 1, s, b, hb => by
    simp only [blocks, List.mem_cons] at hb
    rcases hb with rfl | hb
    · simp
    · exact blocks_forall_length_le b hb

theorem cbcDec_length_le {P : Params} {ck iv C : Bytes} (hi : iv.length ≤ 16) : (cbcDec P ck iv C).length ≤ C.length := by
  have h := cbcDecBlocks_length_le (P := P) (ck := ck) hi (blocks_forall_length_le (n := 16) (m := C.length / 16) (s := C))
  rw [blocks_length] at h
  rw [cbcDec]
  omega

/-- A decrypted plaintext has at most `R − 49` bytes (44_cbc_pkcs7.md R225). -/
theorem decryptRecord_length {P : Params} {K rec M : Bytes} (h : decryptRecord P K rec = some M) :
    M.length ≤ rec.length - 49 := by
  unfold decryptRecord at h
  split at h
  · have h1 := unpad16_length h
    have h2 : (cbcDec P (cipherKey K) (recordIv rec) (recordCiphertext rec)).length ≤ (recordCiphertext rec).length :=
      cbcDec_length_le (by simp [recordIv])
    simp only [recordCiphertext, List.length_drop] at h1 h2
    omega
  · cases h

end Sys2Proof.Machine
end

