-- ==== Sys2Proof/Laws/State.lean ====
section
/-! SUPPORT. Sys2Proof/Laws/State.lean: what each update of the state does to each field. -/

namespace Sys2Proof.Machine

/-! ## Acceptance -/

@[simp] theorem accept_irqEn (v : Word) (s : State) : (accept v s).irqEn = s.irqEn := rfl
@[simp] theorem accept_busy (v : Word) (s : State) : (accept v s).busy = true := rfl
@[simp] theorem accept_done (v : Word) (s : State) : (accept v s).done = false := rfl
@[simp] theorem accept_fatal (v : Word) (s : State) : (accept v s).fatal = s.fatal := rfl
@[simp] theorem accept_cmdOvr (v : Word) (s : State) : (accept v s).cmdOvr = s.cmdOvr := rfl
@[simp] theorem accept_accErr (v : Word) (s : State) : (accept v s).accErr = s.accErr := rfl
@[simp] theorem accept_errcode (v : Word) (s : State) : (accept v s).errcode = okNumber := rfl
@[simp] theorem accept_cmd (v : Word) (s : State) : (accept v s).cmd = v := rfl
@[simp] theorem accept_src0Addr (v : Word) (s : State) : (accept v s).src0Addr = s.src0Addr := rfl
@[simp] theorem accept_src0Len (v : Word) (s : State) : (accept v s).src0Len = s.src0Len := rfl
@[simp] theorem accept_src1Addr (v : Word) (s : State) : (accept v s).src1Addr = s.src1Addr := rfl
@[simp] theorem accept_src1Len (v : Word) (s : State) : (accept v s).src1Len = s.src1Len := rfl
@[simp] theorem accept_dstAddr (v : Word) (s : State) : (accept v s).dstAddr = s.dstAddr := rfl
@[simp] theorem accept_dstLen (v : Word) (s : State) : (accept v s).dstLen = s.dstLen := rfl
@[simp] theorem accept_outLen (v : Word) (s : State) : (accept v s).outLen = 0 := rfl
@[simp] theorem accept_latched (v : Word) (s : State) : (accept v s).latched = some (descriptorOf v s) := rfl
@[simp] theorem accept_dbuf (v : Word) (s : State) : (accept v s).dbuf = s.dbuf := rfl
@[simp] theorem accept_turns (v : Word) (s : State) : (accept v s).turns = s.turns := rfl
@[simp] theorem accept_reply (v : Word) (s : State) : (accept v s).reply = s.reply := rfl
@[simp] theorem accept_rng (v : Word) (s : State) : (accept v s).rng = s.rng := rfl
@[simp] theorem accept_draws (v : Word) (s : State) : (accept v s).draws = s.draws := rfl

/-! ## Overrun -/

@[simp] theorem cmdOverrun_irqEn (s : State) : (cmdOverrun s).irqEn = s.irqEn := rfl
@[simp] theorem cmdOverrun_busy (s : State) : (cmdOverrun s).busy = s.busy := rfl
@[simp] theorem cmdOverrun_done (s : State) : (cmdOverrun s).done = s.done := rfl
@[simp] theorem cmdOverrun_fatal (s : State) : (cmdOverrun s).fatal = s.fatal := rfl
@[simp] theorem cmdOverrun_cmdOvr (s : State) : (cmdOverrun s).cmdOvr = true := rfl
@[simp] theorem cmdOverrun_accErr (s : State) : (cmdOverrun s).accErr = s.accErr := rfl
@[simp] theorem cmdOverrun_errcode (s : State) : (cmdOverrun s).errcode = s.errcode := rfl
@[simp] theorem cmdOverrun_cmd (s : State) : (cmdOverrun s).cmd = s.cmd := rfl
@[simp] theorem cmdOverrun_src0Addr (s : State) : (cmdOverrun s).src0Addr = s.src0Addr := rfl
@[simp] theorem cmdOverrun_src0Len (s : State) : (cmdOverrun s).src0Len = s.src0Len := rfl
@[simp] theorem cmdOverrun_src1Addr (s : State) : (cmdOverrun s).src1Addr = s.src1Addr := rfl
@[simp] theorem cmdOverrun_src1Len (s : State) : (cmdOverrun s).src1Len = s.src1Len := rfl
@[simp] theorem cmdOverrun_dstAddr (s : State) : (cmdOverrun s).dstAddr = s.dstAddr := rfl
@[simp] theorem cmdOverrun_dstLen (s : State) : (cmdOverrun s).dstLen = s.dstLen := rfl
@[simp] theorem cmdOverrun_outLen (s : State) : (cmdOverrun s).outLen = s.outLen := rfl
@[simp] theorem cmdOverrun_latched (s : State) : (cmdOverrun s).latched = s.latched := rfl
@[simp] theorem cmdOverrun_dbuf (s : State) : (cmdOverrun s).dbuf = s.dbuf := rfl
@[simp] theorem cmdOverrun_turns (s : State) : (cmdOverrun s).turns = s.turns := rfl
@[simp] theorem cmdOverrun_reply (s : State) : (cmdOverrun s).reply = s.reply := rfl
@[simp] theorem cmdOverrun_rng (s : State) : (cmdOverrun s).rng = s.rng := rfl
@[simp] theorem cmdOverrun_draws (s : State) : (cmdOverrun s).draws = s.draws := rfl

/-! ## Successful completion -/

@[simp] theorem complete_ok_irqEn (L : Descriptor) (out : Bytes) (s : State) : (complete L (.ok out) s).irqEn = s.irqEn := rfl
@[simp] theorem complete_ok_busy (L : Descriptor) (out : Bytes) (s : State) : (complete L (.ok out) s).busy = false := rfl
@[simp] theorem complete_ok_done (L : Descriptor) (out : Bytes) (s : State) : (complete L (.ok out) s).done = true := rfl
@[simp] theorem complete_ok_fatal (L : Descriptor) (out : Bytes) (s : State) : (complete L (.ok out) s).fatal = s.fatal := rfl
@[simp] theorem complete_ok_cmdOvr (L : Descriptor) (out : Bytes) (s : State) : (complete L (.ok out) s).cmdOvr = s.cmdOvr := rfl
@[simp] theorem complete_ok_accErr (L : Descriptor) (out : Bytes) (s : State) : (complete L (.ok out) s).accErr = s.accErr := rfl
@[simp] theorem complete_ok_errcode (L : Descriptor) (out : Bytes) (s : State) : (complete L (.ok out) s).errcode = okNumber := rfl
@[simp] theorem complete_ok_cmd (L : Descriptor) (out : Bytes) (s : State) : (complete L (.ok out) s).cmd = s.cmd := rfl
@[simp] theorem complete_ok_src0Addr (L : Descriptor) (out : Bytes) (s : State) : (complete L (.ok out) s).src0Addr = s.src0Addr := rfl
@[simp] theorem complete_ok_src0Len (L : Descriptor) (out : Bytes) (s : State) : (complete L (.ok out) s).src0Len = s.src0Len := rfl
@[simp] theorem complete_ok_src1Addr (L : Descriptor) (out : Bytes) (s : State) : (complete L (.ok out) s).src1Addr = s.src1Addr := rfl
@[simp] theorem complete_ok_src1Len (L : Descriptor) (out : Bytes) (s : State) : (complete L (.ok out) s).src1Len = s.src1Len := rfl
@[simp] theorem complete_ok_dstAddr (L : Descriptor) (out : Bytes) (s : State) : (complete L (.ok out) s).dstAddr = s.dstAddr := rfl
@[simp] theorem complete_ok_dstLen (L : Descriptor) (out : Bytes) (s : State) : (complete L (.ok out) s).dstLen = s.dstLen := rfl
@[simp] theorem complete_ok_outLen (L : Descriptor) (out : Bytes) (s : State) : (complete L (.ok out) s).outLen = BitVec.ofNat 32 out.length := rfl
@[simp] theorem complete_ok_latched (L : Descriptor) (out : Bytes) (s : State) : (complete L (.ok out) s).latched = none := rfl
@[simp] theorem complete_ok_dbuf (L : Descriptor) (out : Bytes) (s : State) : (complete L (.ok out) s).dbuf = memWrite s.dbuf L.dstAddr.toNat out := rfl
@[simp] theorem complete_ok_turns (L : Descriptor) (out : Bytes) (s : State) : (complete L (.ok out) s).turns = s.turns := rfl
@[simp] theorem complete_ok_reply (L : Descriptor) (out : Bytes) (s : State) : (complete L (.ok out) s).reply = s.reply := rfl
@[simp] theorem complete_ok_rng (L : Descriptor) (out : Bytes) (s : State) : (complete L (.ok out) s).rng = s.rng := rfl
@[simp] theorem complete_ok_draws (L : Descriptor) (out : Bytes) (s : State) : (complete L (.ok out) s).draws = s.draws := rfl

/-! ## Completion with an error -/

@[simp] theorem complete_err_irqEn (L : Descriptor) (c : ErrCode) (s : State) : (complete L (.err c) s).irqEn = s.irqEn := rfl
@[simp] theorem complete_err_busy (L : Descriptor) (c : ErrCode) (s : State) : (complete L (.err c) s).busy = false := rfl
@[simp] theorem complete_err_done (L : Descriptor) (c : ErrCode) (s : State) : (complete L (.err c) s).done = true := rfl
@[simp] theorem complete_err_fatal (L : Descriptor) (c : ErrCode) (s : State) : (complete L (.err c) s).fatal = (s.fatal || decide (c = .entropy)) := rfl
@[simp] theorem complete_err_cmdOvr (L : Descriptor) (c : ErrCode) (s : State) : (complete L (.err c) s).cmdOvr = s.cmdOvr := rfl
@[simp] theorem complete_err_accErr (L : Descriptor) (c : ErrCode) (s : State) : (complete L (.err c) s).accErr = s.accErr := rfl
@[simp] theorem complete_err_errcode (L : Descriptor) (c : ErrCode) (s : State) : (complete L (.err c) s).errcode = errNumber c := rfl
@[simp] theorem complete_err_cmd (L : Descriptor) (c : ErrCode) (s : State) : (complete L (.err c) s).cmd = s.cmd := rfl
@[simp] theorem complete_err_src0Addr (L : Descriptor) (c : ErrCode) (s : State) : (complete L (.err c) s).src0Addr = s.src0Addr := rfl
@[simp] theorem complete_err_src0Len (L : Descriptor) (c : ErrCode) (s : State) : (complete L (.err c) s).src0Len = s.src0Len := rfl
@[simp] theorem complete_err_src1Addr (L : Descriptor) (c : ErrCode) (s : State) : (complete L (.err c) s).src1Addr = s.src1Addr := rfl
@[simp] theorem complete_err_src1Len (L : Descriptor) (c : ErrCode) (s : State) : (complete L (.err c) s).src1Len = s.src1Len := rfl
@[simp] theorem complete_err_dstAddr (L : Descriptor) (c : ErrCode) (s : State) : (complete L (.err c) s).dstAddr = s.dstAddr := rfl
@[simp] theorem complete_err_dstLen (L : Descriptor) (c : ErrCode) (s : State) : (complete L (.err c) s).dstLen = s.dstLen := rfl
@[simp] theorem complete_err_outLen (L : Descriptor) (c : ErrCode) (s : State) : (complete L (.err c) s).outLen = 0 := rfl
@[simp] theorem complete_err_latched (L : Descriptor) (c : ErrCode) (s : State) : (complete L (.err c) s).latched = none := rfl
@[simp] theorem complete_err_dbuf (L : Descriptor) (c : ErrCode) (s : State) : (complete L (.err c) s).dbuf = s.dbuf := rfl
@[simp] theorem complete_err_turns (L : Descriptor) (c : ErrCode) (s : State) : (complete L (.err c) s).turns = s.turns := rfl
@[simp] theorem complete_err_reply (L : Descriptor) (c : ErrCode) (s : State) : (complete L (.err c) s).reply = s.reply := rfl
@[simp] theorem complete_err_rng (L : Descriptor) (c : ErrCode) (s : State) : (complete L (.err c) s).rng = s.rng := rfl
@[simp] theorem complete_err_draws (L : Descriptor) (c : ErrCode) (s : State) : (complete L (.err c) s).draws = s.draws := rfl

/-! ## Hardware reset -/

@[simp] theorem hardwareReset_irqEn (s : State) : (hardwareReset s).irqEn = false := rfl
@[simp] theorem hardwareReset_busy (s : State) : (hardwareReset s).busy = false := rfl
@[simp] theorem hardwareReset_done (s : State) : (hardwareReset s).done = false := rfl
@[simp] theorem hardwareReset_fatal (s : State) : (hardwareReset s).fatal = false := rfl
@[simp] theorem hardwareReset_cmdOvr (s : State) : (hardwareReset s).cmdOvr = false := rfl
@[simp] theorem hardwareReset_accErr (s : State) : (hardwareReset s).accErr = false := rfl
@[simp] theorem hardwareReset_errcode (s : State) : (hardwareReset s).errcode = 0 := rfl
@[simp] theorem hardwareReset_cmd (s : State) : (hardwareReset s).cmd = 0 := rfl
@[simp] theorem hardwareReset_src0Addr (s : State) : (hardwareReset s).src0Addr = 0 := rfl
@[simp] theorem hardwareReset_src0Len (s : State) : (hardwareReset s).src0Len = 0 := rfl
@[simp] theorem hardwareReset_src1Addr (s : State) : (hardwareReset s).src1Addr = 0 := rfl
@[simp] theorem hardwareReset_src1Len (s : State) : (hardwareReset s).src1Len = 0 := rfl
@[simp] theorem hardwareReset_dstAddr (s : State) : (hardwareReset s).dstAddr = 0 := rfl
@[simp] theorem hardwareReset_dstLen (s : State) : (hardwareReset s).dstLen = 0 := rfl
@[simp] theorem hardwareReset_outLen (s : State) : (hardwareReset s).outLen = 0 := rfl
@[simp] theorem hardwareReset_latched (s : State) : (hardwareReset s).latched = none := rfl
@[simp] theorem hardwareReset_dbuf (s : State) : (hardwareReset s).dbuf = [] := rfl
@[simp] theorem hardwareReset_turns (s : State) : (hardwareReset s).turns = s.turns := rfl
@[simp] theorem hardwareReset_reply (s : State) : (hardwareReset s).reply = s.reply := rfl
@[simp] theorem hardwareReset_rng (s : State) : (hardwareReset s).rng = s.rng := rfl
@[simp] theorem hardwareReset_draws (s : State) : (hardwareReset s).draws = s.draws := rfl

/-! ## A write to STATUS -/

@[simp] theorem clearStatus_irqEn (v : Word) (s : State) : (clearStatus v s).irqEn = s.irqEn := rfl
@[simp] theorem clearStatus_busy (v : Word) (s : State) : (clearStatus v s).busy = s.busy := rfl
@[simp] theorem clearStatus_done (v : Word) (s : State) : (clearStatus v s).done = (s.done && !v.getLsbD 1) := rfl
@[simp] theorem clearStatus_fatal (v : Word) (s : State) : (clearStatus v s).fatal = s.fatal := rfl
@[simp] theorem clearStatus_cmdOvr (v : Word) (s : State) : (clearStatus v s).cmdOvr = (s.cmdOvr && !v.getLsbD 3) := rfl
@[simp] theorem clearStatus_accErr (v : Word) (s : State) : (clearStatus v s).accErr = (s.accErr && !v.getLsbD 4) := rfl
@[simp] theorem clearStatus_errcode (v : Word) (s : State) : (clearStatus v s).errcode = s.errcode := rfl
@[simp] theorem clearStatus_cmd (v : Word) (s : State) : (clearStatus v s).cmd = s.cmd := rfl
@[simp] theorem clearStatus_src0Addr (v : Word) (s : State) : (clearStatus v s).src0Addr = s.src0Addr := rfl
@[simp] theorem clearStatus_src0Len (v : Word) (s : State) : (clearStatus v s).src0Len = s.src0Len := rfl
@[simp] theorem clearStatus_src1Addr (v : Word) (s : State) : (clearStatus v s).src1Addr = s.src1Addr := rfl
@[simp] theorem clearStatus_src1Len (v : Word) (s : State) : (clearStatus v s).src1Len = s.src1Len := rfl
@[simp] theorem clearStatus_dstAddr (v : Word) (s : State) : (clearStatus v s).dstAddr = s.dstAddr := rfl
@[simp] theorem clearStatus_dstLen (v : Word) (s : State) : (clearStatus v s).dstLen = s.dstLen := rfl
@[simp] theorem clearStatus_outLen (v : Word) (s : State) : (clearStatus v s).outLen = s.outLen := rfl
@[simp] theorem clearStatus_latched (v : Word) (s : State) : (clearStatus v s).latched = s.latched := rfl
@[simp] theorem clearStatus_dbuf (v : Word) (s : State) : (clearStatus v s).dbuf = s.dbuf := rfl
@[simp] theorem clearStatus_turns (v : Word) (s : State) : (clearStatus v s).turns = s.turns := rfl
@[simp] theorem clearStatus_reply (v : Word) (s : State) : (clearStatus v s).reply = s.reply := rfl
@[simp] theorem clearStatus_rng (v : Word) (s : State) : (clearStatus v s).rng = s.rng := rfl
@[simp] theorem clearStatus_draws (v : Word) (s : State) : (clearStatus v s).draws = s.draws := rfl

/-! ## A draw changes only the oracle's fields -/

@[simp] theorem draw_irqEn (s : State) : (draw s).2.irqEn = s.irqEn := by
  unfold draw
  split <;> rfl
@[simp] theorem draw_busy (s : State) : (draw s).2.busy = s.busy := by
  unfold draw
  split <;> rfl
@[simp] theorem draw_done (s : State) : (draw s).2.done = s.done := by
  unfold draw
  split <;> rfl
@[simp] theorem draw_fatal (s : State) : (draw s).2.fatal = s.fatal := by
  unfold draw
  split <;> rfl
@[simp] theorem draw_cmdOvr (s : State) : (draw s).2.cmdOvr = s.cmdOvr := by
  unfold draw
  split <;> rfl
@[simp] theorem draw_accErr (s : State) : (draw s).2.accErr = s.accErr := by
  unfold draw
  split <;> rfl
@[simp] theorem draw_errcode (s : State) : (draw s).2.errcode = s.errcode := by
  unfold draw
  split <;> rfl
@[simp] theorem draw_cmd (s : State) : (draw s).2.cmd = s.cmd := by
  unfold draw
  split <;> rfl
@[simp] theorem draw_src0Addr (s : State) : (draw s).2.src0Addr = s.src0Addr := by
  unfold draw
  split <;> rfl
@[simp] theorem draw_src0Len (s : State) : (draw s).2.src0Len = s.src0Len := by
  unfold draw
  split <;> rfl
@[simp] theorem draw_src1Addr (s : State) : (draw s).2.src1Addr = s.src1Addr := by
  unfold draw
  split <;> rfl
@[simp] theorem draw_src1Len (s : State) : (draw s).2.src1Len = s.src1Len := by
  unfold draw
  split <;> rfl
@[simp] theorem draw_dstAddr (s : State) : (draw s).2.dstAddr = s.dstAddr := by
  unfold draw
  split <;> rfl
@[simp] theorem draw_dstLen (s : State) : (draw s).2.dstLen = s.dstLen := by
  unfold draw
  split <;> rfl
@[simp] theorem draw_outLen (s : State) : (draw s).2.outLen = s.outLen := by
  unfold draw
  split <;> rfl
@[simp] theorem draw_latched (s : State) : (draw s).2.latched = s.latched := by
  unfold draw
  split <;> rfl
@[simp] theorem draw_dbuf (s : State) : (draw s).2.dbuf = s.dbuf := by
  unfold draw
  split <;> rfl
@[simp] theorem draw_turns (s : State) : (draw s).2.turns = s.turns := by
  unfold draw
  split <;> rfl
@[simp] theorem draw_reply (s : State) : (draw s).2.reply = s.reply := by
  unfold draw
  split <;> rfl

theorem draw_supplied {s : State} {a : Option Nat} {rest : List (Option Nat)} (h : s.rng = a :: rest) :
    draw s = (a, { s with rng := rest, draws := s.draws + 1 }) := by
  simp [draw, h]

theorem draw_free {s : State} (h : s.rng = []) :
    draw s = (Config.rng s.draws, { s with draws := s.draws + 1 }) := by
  simp [draw, h]

/-! ## A soft reset -/

theorem softReset_busy {s : State} (h : s.busy = true) : softReset s = s := by
  simp [softReset, h]

end Sys2Proof.Machine
end

