-- ==== Sys2Proof/Laws/Ops.lean ====
section
/-! SUPPORT. Sys2Proof/Laws/Ops.lean: for each shared operation, once, everything it can do. -/

namespace Sys2Proof.Machine

/-! ## Regions -/

theorem inBounds_iff {P : Params} {r : Region} : inBounds P r = true ↔ r.addr + r.len ≤ P.bufBytes := by
  simp [inBounds]

theorem overlaps_false_iff {x y : Region} :
    overlaps x y = false ↔ x.len = 0 ∨ y.len = 0 ∨ y.addr + y.len ≤ x.addr ∨ x.addr + x.len ≤ y.addr := by
  rw [← Bool.not_eq_true]
  simp only [overlaps, Bool.and_eq_true, decide_eq_true_eq, not_and, not_lt]
  constructor
  · intro h
    by_cases hx : x.len = 0
    · exact .inl hx
    · by_cases hy : y.len = 0
      · exact .inr (.inl hy)
      · by_cases hlt : x.addr < y.addr + y.len
        · exact .inr (.inr (.inr (h ⟨⟨hx, hy⟩, hlt⟩)))
        · exact .inr (.inr (.inl (by omega)))
  · rintro (h | h | h | h) ⟨⟨h1, h2⟩, h3⟩ <;> omega

/-! ## The checks -/

/-- The checks pass exactly when each step passes (40_command_execution.md R117). -/
theorem checks_eq_none_iff {P : Params} {i : Instr} {fatal : Bool} {L : Descriptor} :
    checks P i fatal L = none ↔ fatal = false ∧ formatOk i L = true ∧ lengthsOk P i L = true ∧ boundsOk P i L = true ∧
      disjointOk P i L = true := by
  unfold checks
  cases fatal <;> cases formatOk i L <;> cases lengthsOk P i L <;> cases boundsOk P i L <;> cases disjointOk P i L <;>
    simp

/-- Where the checks pass the destination is in bounds. -/
theorem destination_fits {P : Params} {i : Instr} {fatal : Bool} {L : Descriptor} (h : checks P i fatal L = none) :
    L.dstAddr.toNat + dstMax P i L ≤ P.bufBytes := by
  have hb := (checks_eq_none_iff.1 h).2.2.2.1
  simp only [boundsOk, Bool.and_eq_true] at hb
  exact inBounds_iff.1 hb.2

/-- The checks can give only these codes. -/
theorem checks_code {P : Params} {i : Instr} {fatal : Bool} {L : Descriptor} {c : ErrCode}
    (h : checks P i fatal L = some c) :
    (c = .entropy ∧ fatal = true) ∨ c = .format ∨ c = .length ∨ c = .bounds ∨ c = .overlap := by
  unfold checks at h
  repeat' split at h
  all_goals simp_all

/-! ## Running a command -/

theorem runCommand_fault {P : Params} {i : Instr} {body : Descriptor → Memory → Result} {s : State}
    (h : s.latched = none) : runCommand P i body s = .fault .noCommandInFlight := by
  simp [runCommand, h]

theorem runCommand_err {P : Params} {i : Instr} {body : Descriptor → Memory → Result} {s : State} {L : Descriptor}
    {c : ErrCode} (h : s.latched = some L) (hc : checks P i s.fatal L = some c) :
    runCommand P i body s = .next (complete L (.err c) s) := by
  simp [runCommand, h, hc]

theorem runCommand_ok {P : Params} {i : Instr} {body : Descriptor → Memory → Result} {s : State} {L : Descriptor}
    (h : s.latched = some L) (hc : checks P i s.fatal L = none) :
    runCommand P i body s = .next (complete L (body L s.dbuf) s) := by
  simp [runCommand, h, hc]

/-- If `runCommand` answers a next state, a command is latched and it completes, with the first failing check's code or
with its own result. -/
theorem runCommand_next {P : Params} {i : Instr} {body : Descriptor → Memory → Result} {s t : State}
    (h : runCommand P i body s = .next t) :
    ∃ L, s.latched = some L ∧
      ((∃ c, checks P i s.fatal L = some c ∧ t = complete L (.err c) s) ∨
        (checks P i s.fatal L = none ∧ t = complete L (body L s.dbuf) s)) := by
  cases hl : s.latched with
  | none => rw [runCommand_fault hl] at h; cases h
  | some L =>
    refine ⟨L, rfl, ?_⟩
    cases hc : checks P i s.fatal L with
    | some c =>
      rw [runCommand_err hl hc] at h
      injection h with h
      exact .inl ⟨c, rfl, h.symm⟩
    | none =>
      rw [runCommand_ok hl hc] at h
      injection h with h
      exact .inr ⟨rfl, h.symm⟩

theorem runDrawing_fault {P : Params} {i : Instr} {body : Descriptor → Memory → Nat → Result} {s : State}
    (h : s.latched = none) : runDrawing P i body s = .fault .noCommandInFlight := by
  simp [runDrawing, h]

theorem runDrawing_err {P : Params} {i : Instr} {body : Descriptor → Memory → Nat → Result} {s : State} {L : Descriptor}
    {c : ErrCode} (h : s.latched = some L) (hc : checks P i s.fatal L = some c) :
    runDrawing P i body s = .next (complete L (.err c) s) := by
  simp [runDrawing, h, hc]

theorem runDrawing_fail {P : Params} {i : Instr} {body : Descriptor → Memory → Nat → Result} {s : State}
    {L : Descriptor} (h : s.latched = some L) (hc : checks P i s.fatal L = none) (hd : (draw s).1 = none) :
    runDrawing P i body s = .next (complete L (.err .entropy) (draw s).2) := by
  simp only [runDrawing, h, hc]
  rcases hs : draw s with ⟨a, s'⟩
  rw [hs] at hd
  cases hd
  rfl

theorem runDrawing_ok {P : Params} {i : Instr} {body : Descriptor → Memory → Nat → Result} {s : State}
    {L : Descriptor} {n : Nat} (h : s.latched = some L) (hc : checks P i s.fatal L = none) (hd : (draw s).1 = some n) :
    runDrawing P i body s = .next (complete L (body L s.dbuf n) (draw s).2) := by
  simp only [runDrawing, h, hc]
  rcases hs : draw s with ⟨a, s'⟩
  rw [hs] at hd
  cases hd
  rfl

/-- If `runDrawing` answers a next state, a command is latched and it completes: with the first failing check's code and
no draw, or with ENTROPY on a Fail answer, or with its own result on the answer drawn. -/
theorem runDrawing_next {P : Params} {i : Instr} {body : Descriptor → Memory → Nat → Result} {s t : State}
    (h : runDrawing P i body s = .next t) :
    ∃ L, s.latched = some L ∧
      ((∃ c, checks P i s.fatal L = some c ∧ t = complete L (.err c) s) ∨
        (checks P i s.fatal L = none ∧ (draw s).1 = none ∧ t = complete L (.err .entropy) (draw s).2) ∨
        (∃ n, checks P i s.fatal L = none ∧ (draw s).1 = some n ∧ t = complete L (body L s.dbuf n) (draw s).2)) := by
  cases hl : s.latched with
  | none => rw [runDrawing_fault hl] at h; cases h
  | some L =>
    refine ⟨L, rfl, ?_⟩
    cases hc : checks P i s.fatal L with
    | some c =>
      rw [runDrawing_err hl hc] at h
      injection h with h
      exact .inl ⟨c, rfl, h.symm⟩
    | none =>
      cases hd : (draw s).1 with
      | none =>
        rw [runDrawing_fail hl hc hd] at h
        injection h with h
        exact .inr (.inl ⟨rfl, rfl, h.symm⟩)
      | some n =>
        rw [runDrawing_ok hl hc hd] at h
        injection h with h
        exact .inr (.inr ⟨n, rfl, rfl, h.symm⟩)

/-- `runIllegal` completes with ENTROPY under FATAL, else with ILLEGAL_CMD. -/
theorem runIllegal_next {s t : State} (h : runIllegal s = .next t) :
    ∃ L, s.latched = some L ∧ t = complete L (.err (if s.fatal then .entropy else .illegalCmd)) s := by
  unfold runIllegal at h
  split at h
  · cases h
  · rename_i L hl
    injection h with h
    exact ⟨L, hl, h.symm⟩

/-! ## The host port -/

theorem ite_of_both {α : Type} {q : α → Prop} {c : Prop} [Decidable c] {x y : α} (hx : q x) (hy : q y) :
    q (if c then x else y) := by
  split
  · exact hx
  · exact hy

/-- What a register write can leave. -/
def RegWriteOutcome (v : Word) (s t : State) : Prop :=
  t = s ∨ t = writeCtrl v s ∨ t = clearStatus v s ∨ t = issueCommand v s ∨
    ∃ a b c d e f, t =
      { s with src0Addr := a, src0Len := b, src1Addr := c, src1Len := d, dstAddr := e, dstLen := f }

/-- What a register write can do (10_state.md R34). -/
theorem regWrite_cases (off : Nat) (v : Word) (s : State) : RegWriteOutcome v s (regWrite off v s) := by
  have hd : ∀ a b c d e f, RegWriteOutcome v s
      { s with src0Addr := a, src0Len := b, src1Addr := c, src1Len := d, dstAddr := e, dstLen := f } :=
    fun a b c d e f => .inr (.inr (.inr (.inr ⟨a, b, c, d, e, f, rfl⟩)))
  unfold regWrite
  refine ite_of_both (.inr (.inl rfl)) (ite_of_both (.inr (.inr (.inl rfl))) (ite_of_both
    (.inr (.inr (.inr (.inl rfl)))) (ite_of_both ?_ (ite_of_both ?_ (ite_of_both ?_ (ite_of_both ?_ (ite_of_both ?_
      (ite_of_both ?_ (.inl rfl)))))))))
  · exact hd v s.src0Len s.src1Addr s.src1Len s.dstAddr s.dstLen
  · exact hd s.src0Addr v s.src1Addr s.src1Len s.dstAddr s.dstLen
  · exact hd s.src0Addr s.src0Len v s.src1Len s.dstAddr s.dstLen
  · exact hd s.src0Addr s.src0Len s.src1Addr v s.dstAddr s.dstLen
  · exact hd s.src0Addr s.src0Len s.src1Addr s.src1Len v s.dstLen
  · exact hd s.src0Addr s.src0Len s.src1Addr s.src1Len s.dstAddr v

theorem lanesOf_length : ∀ v w : Nat, (lanesOf v w).length = w
  | _, 0 => rfl
  | v, w + 1 => by simp [lanesOf, lanesOf_length (v / 256) w]

/-- Where an access of the DBUF window lands (20_memory.md R63). -/
theorem target_buffer {P : Params} {off a : Nat} {w : Width} (h : target P off w = .buffer a) :
    off = 0x10000 + a ∧ a + widthBytes w ≤ P.bufBytes ∧ a % widthBytes w = 0 := by
  unfold target at h
  split at h
  · split at h <;> cases h
  · split at h
    · rename_i h1 h2
      split at h
      · rename_i h3
        injection h with h
        subst h
        exact ⟨by omega, by omega, h3⟩
      · cases h
    · cases h

/-- What a host access can do to the block's state (20_memory.md R63–R67). -/
theorem portAccess_cases (P : Params) (x : Access) (s : State) :
    (portAccess P x s).2 = s ∨
      (∃ r v, (portAccess P x s).2 = regWrite r v s) ∨
      (s.busy = true ∧ (portAccess P x s).2 = { s with accErr := true }) ∨
      (s.busy = false ∧ ∃ a bs, a + bs.length ≤ P.bufBytes ∧
        (portAccess P x s).2 = { s with dbuf := memWrite s.dbuf a bs }) := by
  cases x with
  | read off w =>
    simp only [portAccess]
    cases ht : target P off w with
    | register r => exact .inl rfl
    | refused => exact .inl rfl
    | buffer a =>
      simp only [dbufRead]
      split
      · rename_i hb
        exact .inr (.inr (.inl ⟨hb, rfl⟩))
      · exact .inl rfl
  | write off w v =>
    simp only [portAccess]
    cases ht : target P off w with
    | register r => exact .inr (.inl ⟨r, v, rfl⟩)
    | refused => exact .inl rfl
    | buffer a =>
      simp only [dbufWrite]
      split
      · rename_i hb
        exact .inr (.inr (.inl ⟨hb, rfl⟩))
      · rename_i hb
        refine .inr (.inr (.inr ⟨by simpa using hb, a, _, ?_, rfl⟩))
        rw [lanesOf_length]
        exact (target_buffer ht).2.1

/-! ## One step -/

/-- If a step answers a next state, it was a host access, a reset, a completion of the latched command word, or nothing. -/
theorem step_next {s t : State} (h : step s = .next t) :
    (∃ a s', nextMove s = (.host a, s') ∧ t = hostAccess Config.params a s') ∨
      (∃ s', nextMove s = (.reset, s') ∧ t = hardwareReset s') ∨
      (∃ s', nextMove s = (.idle, s') ∧ t = s') ∨
      (∃ s' L i, nextMove s = (.complete, s') ∧ s'.latched = some L ∧ decode L.cmd = .ok i ∧ exec i s' = .next t) ∨
      (∃ s' L e, nextMove s = (.complete, s') ∧ s'.latched = some L ∧ decode L.cmd = .error e ∧
        runIllegal s' = .next t) := by
  unfold step at h
  split at h
  · rename_i a s' hm
    injection h with h
    exact .inl ⟨a, s', hm, h.symm⟩
  · rename_i s' hm
    injection h with h
    exact .inr (.inl ⟨s', hm, h.symm⟩)
  · rename_i s' hm
    injection h with h
    exact .inr (.inr (.inl ⟨s', hm, h.symm⟩))
  · rename_i s' hm
    unfold fetch at h
    cases hl : s'.latched with
    | none => rw [hl] at h; cases h
    | some L =>
      rw [hl] at h
      simp only at h
      cases hd : decode L.cmd with
      | ok i =>
        rw [hd] at h
        exact .inr (.inr (.inr (.inl ⟨s', L, i, hm, hl, hd, h⟩)))
      | error e =>
        rw [hd] at h
        exact .inr (.inr (.inr (.inr ⟨s', L, e, hm, hl, hd, h⟩)))

theorem nextMove_host {s : State} {a : Access} {rest : List Turn} (h : s.turns = .host a :: rest) :
    nextMove s = (.host a, { s with turns := rest }) := by
  simp only [nextMove, h]

theorem nextMove_reset {s : State} {rest : List Turn} (h : s.turns = .reset :: rest) :
    nextMove s = (.reset, { s with turns := rest }) := by
  simp only [nextMove, h]

theorem nextMove_engine {s : State} {rest : List Turn} (h : s.turns = .engine :: rest) :
    nextMove s = (if s.busy then .complete else .idle, { s with turns := rest }) := by
  simp only [nextMove, h]

/-- A bus access that reaches the port is a host access there. -/
theorem nextMove_bus_reaches {s : State} {m : Nat} {a a' : Access} {rest : List Turn} (h : s.turns = .bus m a :: rest)
    (hr : reach Config.params m a = some a') : nextMove s = (.host a', { s with turns := rest }) := by
  simp only [nextMove, h, hr]

/-- A bus access that does not reach the port only takes its turn. -/
theorem nextMove_bus_kept {s : State} {m : Nat} {a : Access} {rest : List Turn} (h : s.turns = .bus m a :: rest)
    (hr : reach Config.params m a = none) : nextMove s = (.idle, { s with turns := rest }) := by
  simp only [nextMove, h, hr]

/-- A hardware reset is the next move only where it is the next turn. -/
theorem turns_of_nextMove_reset {s s' : State} (h : nextMove s = (.reset, s')) : ∃ rest, s.turns = .reset :: rest := by
  cases ht : s.turns with
  | nil => simp only [nextMove, ht] at h; split at h <;> cases h
  | cons t rest =>
    cases t with
    | host a => rw [nextMove_host ht] at h; cases h
    | bus m a =>
      cases hr : reach Config.params m a with
      | some a' => rw [nextMove_bus_reaches ht hr] at h; cases h
      | none => rw [nextMove_bus_kept ht hr] at h; cases h
    | engine => rw [nextMove_engine ht] at h; split at h <;> cases h
    | reset => exact ⟨rest, rfl⟩

/-- Where a bus address lands: BASE taken off, for a master that ACCESS_POLICY admits. -/
theorem portOffset_eq_some_iff {P : Params} {m addr off : Nat} :
    portOffset P m addr = some off ↔ P.accessPolicy m = true ∧ addr = P.base + off := by
  unfold portOffset
  split
  · rename_i h
    rw [Option.some.injEq]
    exact ⟨fun e => ⟨h.1, by omega⟩, fun e => by omega⟩
  · rename_i h
    exact ⟨fun e => (by cases e), fun e => absurd ⟨e.1, by omega⟩ h⟩

theorem portOffset_eq_none_iff {P : Params} {m addr : Nat} :
    portOffset P m addr = none ↔ P.accessPolicy m = false ∨ addr < P.base := by
  unfold portOffset
  split
  · rename_i h
    simp only [reduceCtorEq, false_iff, not_or]
    exact ⟨by simp [h.1], by omega⟩
  · rename_i h
    simp only [true_iff]
    by_cases hp : P.accessPolicy m = true
    · exact .inr (by by_contra hb; exact h ⟨hp, by omega⟩)
    · exact .inl (by simpa using hp)

/-- The next move changes no field but `turns`, and a completion is the move only of a busy block. -/
theorem nextMove_spec (s : State) :
    ∃ ts, (nextMove s).2 = { s with turns := ts } ∧ ((nextMove s).1 = .complete → s.busy = true) := by
  unfold nextMove
  split
  · refine ⟨s.turns, rfl, ?_⟩
    intro h
    by_contra hb
    simp [hb] at h
  · rename_i t rest ht
    cases t with
    | host a => exact ⟨rest, rfl, fun h => by cases h⟩
    | bus m a =>
      cases hr : reach Config.params m a with
      | some a' => exact ⟨rest, by simp only [hr], fun h => by simp only [hr, reduceCtorEq] at h⟩
      | none => exact ⟨rest, by simp only [hr], fun h => by simp only [hr, reduceCtorEq] at h⟩
    | engine =>
      refine ⟨rest, rfl, ?_⟩
      intro h
      by_contra hb
      simp [hb] at h
    | reset => exact ⟨rest, rfl, fun h => by cases h⟩

end Sys2Proof.Machine
end

