-- ==== Sys2Proof/Laws/Exec.lean ====
section
/-! SUPPORT. Sys2Proof/Laws/Exec.lean: each command as an instance of the shared operations, and what any command's
completion can be. -/

namespace Sys2Proof.Machine

/-! ## The arms -/

theorem exec_modexp (s : State) :
    exec .modexp s = runCommand Config.params .modexp (modexpResult Config.params) s := rfl

theorem exec_modexpInv (s : State) :
    exec .modexpInv s = runCommand Config.params .modexpInv (modexpInvResult Config.params) s := rfl

theorem exec_modmul (s : State) :
    exec .modmul s = runCommand Config.params .modmul (modmulResult Config.params) s := rfl

theorem exec_genExp (s : State) :
    exec .genExp s = runDrawing Config.params .genExp (genExpResult Config.params) s := rfl

theorem exec_sha256 (s : State) : exec .sha256 s = runCommand Config.params .sha256 sha256Result s := rfl

theorem exec_sha256Compress (s : State) :
    exec .sha256Compress s = runCommand Config.params .sha256Compress sha256CompressResult s := rfl

theorem exec_hmacSha256 (s : State) : exec .hmacSha256 s = runCommand Config.params .hmacSha256 hmacResult s := rfl

theorem exec_cbcEncrypt (s : State) :
    exec .cbcEncrypt s = runDrawing Config.params .cbcEncrypt (cbcEncryptResult Config.params) s := rfl

theorem exec_cbcDecrypt (s : State) :
    exec .cbcDecrypt s = runCommand Config.params .cbcDecrypt (cbcDecryptResult Config.params) s := rfl

/-! ## Output lengths -/

theorem modexpResult_length {P : Params} {L : Descriptor} {D : Memory} {out : Bytes}
    (h : modexpResult P L D = .ok out) : out.length = P.lp := by
  unfold modexpResult at h
  split at h
  · cases h
  · injection h with h
    rw [← h, int2be_length]

theorem modexpInvResult_length {P : Params} {L : Descriptor} {D : Memory} {out : Bytes}
    (h : modexpInvResult P L D = .ok out) : out.length = P.lp := by
  unfold modexpInvResult at h
  split at h
  · cases h
  · split at h
    · cases h
    · injection h with h
      rw [← h, int2be_length]

theorem modmulResult_length {P : Params} {L : Descriptor} {D : Memory} {out : Bytes}
    (h : modmulResult P L D = .ok out) : out.length = P.lp := by
  unfold modmulResult at h
  split at h
  · cases h
  · injection h with h
    rw [← h, int2be_length]

theorem genExpResult_length {P : Params} {L : Descriptor} {D : Memory} {n : Nat} {out : Bytes}
    (h : genExpResult P L D n = .ok out) : out.length = P.lp := by
  injection h with h
  rw [← h, int2be_length]

theorem sha256Result_length {L : Descriptor} {D : Memory} {out : Bytes} (h : sha256Result L D = .ok out) :
    out.length = 32 := by
  injection h with h
  rw [← h, sha256_length]

theorem sha256CompressResult_length {L : Descriptor} {D : Memory} {out : Bytes}
    (h : sha256CompressResult L D = .ok out) : out.length = 32 := by
  injection h with h
  rw [← h, hashBytes_length]

theorem hmacResult_length {L : Descriptor} {D : Memory} {out : Bytes} (h : hmacResult L D = .ok out) :
    out.length = 32 := by
  injection h with h
  rw [← h, hmac_length]

/-- The record CBC_ENCRYPT makes has `48` bytes and its ciphertext. -/
theorem encryptRecord_parts_length {P : Params} (hP : P.Admissible) {K iv M : Bytes} (hK : K.length = 96)
    (hi : iv.length = 16) :
    (cbcEnc P (cipherKey K) iv (pad16 M)).length = (pad16 M).length :=
  cbcEnc_length hP (cipherKey_length hK) hi (by rw [pad16_length]; omega)

theorem cbcEncryptResult_length {P : Params} (hP : P.Admissible) {L : Descriptor} {D : Memory} {n : Nat} {out : Bytes}
    (h : cbcEncryptResult P L D n = .ok out) : out.length = recordLength L.src0Len.toNat := by
  injection h with h
  rw [← h, encryptRecord]
  simp only [List.length_append, recordMac_length, drawnBlock_length,
    encryptRecord_parts_length hP (K := symmetricKey L D) (memRead_length _ _ _) (drawnBlock_length n), pad16_length,
    source0, memRead_length, recordLength]

theorem cbcDecryptResult_length {P : Params} {L : Descriptor} {D : Memory} {out : Bytes}
    (h : cbcDecryptResult P L D = .ok out) : out.length ≤ L.src0Len.toNat - 49 := by
  unfold cbcDecryptResult at h
  split at h
  · rename_i M hM
    injection h with h
    have := decryptRecord_length hM
    rw [source0, memRead_length] at this
    rw [← h]
    exact this
  · cases h

/-! ## Any command -/

/-- The commands that ask the RNG oracle (41_modexp.md R147, 44_cbc_pkcs7.md R224). -/
def Draws (i : Instr) : Prop := i = .genExp ∨ i = .cbcEncrypt

/-- What a completion of `i` from `s` with the latched descriptor `L` can be: the result `r`, from the state `s'` that the
draw, if any, leaves. -/
structure Completes (i : Instr) (L : Descriptor) (r : Result) (s s' t : State) : Prop where
  latched : s.latched = some L
  result : t = complete L r s'
  drawn : s' = s ∨ (Draws i ∧ s' = (draw s).2)
  /-- A result is committed only after every check has passed, and it fits the destination (40_command_execution.md R120). -/
  fits : ∀ out, r = .ok out → checks Config.params i s.fatal L = none ∧ out.length ≤ dstMax Config.params i L
  /-- FATAL admits no other code than ENTROPY. -/
  fatal_code : s.fatal = true → r = .err .entropy

theorem completes_of_runCommand {i : Instr} {body : Descriptor → Memory → Result} {s t : State}
    (hlen : ∀ L out, body L s.dbuf = .ok out → out.length ≤ dstMax Config.params i L)
    (h : runCommand Config.params i body s = .next t) : ∃ L r s', Completes i L r s s' t := by
  obtain ⟨L, hl, ⟨c, hc, ht⟩ | ⟨hc, ht⟩⟩ := runCommand_next h
  · refine ⟨L, .err c, s, hl, ht, .inl rfl, fun _ h => (by cases h), fun hf => ?_⟩
    rw [checks, if_pos hf] at hc
    injection hc with hc
    rw [hc]
  · refine ⟨L, _, s, hl, ht, .inl rfl, fun out ho => ⟨hc, hlen L out ho⟩, fun hf => ?_⟩
    have := (checks_eq_none_iff.1 hc).1
    rw [hf] at this
    cases this

theorem completes_of_runDrawing {i : Instr} {body : Descriptor → Memory → Nat → Result} {s t : State} (hi : Draws i)
    (hlen : ∀ L n out, body L s.dbuf n = .ok out → out.length ≤ dstMax Config.params i L)
    (h : runDrawing Config.params i body s = .next t) : ∃ L r s', Completes i L r s s' t := by
  obtain ⟨L, hl, ⟨c, hc, ht⟩ | ⟨hc, _, ht⟩ | ⟨n, hc, _, ht⟩⟩ := runDrawing_next h
  · refine ⟨L, .err c, s, hl, ht, .inl rfl, fun _ h => (by cases h), fun hf => ?_⟩
    rw [checks, if_pos hf] at hc
    injection hc with hc
    rw [hc]
  · exact ⟨L, _, _, hl, ht, .inr ⟨hi, rfl⟩, fun _ h => (by cases h), fun _ => rfl⟩
  · refine ⟨L, _, _, hl, ht, .inr ⟨hi, rfl⟩, fun out ho => ⟨hc, hlen L n out ho⟩, fun hf => ?_⟩
    have := (checks_eq_none_iff.1 hc).1
    rw [hf] at this
    cases this

/-- If a command answers a next state, it has completed the latched command. -/
theorem exec_next {i : Instr} {s t : State} (h : exec i s = .next t) : ∃ L r s', Completes i L r s s' t := by
  cases i with
  | modexp => exact completes_of_runCommand (fun _ _ h => (modexpResult_length h).le) h
  | modexpInv => exact completes_of_runCommand (fun _ _ h => (modexpInvResult_length h).le) h
  | modmul => exact completes_of_runCommand (fun _ _ h => (modmulResult_length h).le) h
  | genExp => exact completes_of_runDrawing (.inl rfl) (fun _ _ _ h => (genExpResult_length h).le) h
  | sha256 => exact completes_of_runCommand (fun _ _ h => (sha256Result_length h).le) h
  | sha256Compress => exact completes_of_runCommand (fun _ _ h => (sha256CompressResult_length h).le) h
  | hmacSha256 => exact completes_of_runCommand (fun _ _ h => (hmacResult_length h).le) h
  | cbcEncrypt =>
    exact completes_of_runDrawing (.inr rfl)
      (fun _ _ _ h => (cbcEncryptResult_length Config.params_admissible h).le) h
  | cbcDecrypt => exact completes_of_runCommand (fun _ _ h => cbcDecryptResult_length h) h

end Sys2Proof.Machine
end

