-- ==== Sys2Proof/Laws/Checks.lean ====
section
/-! SUPPORT. Sys2Proof/Laws/Checks.lean: the model's checks and completions in the terms the statements use. -/

namespace Sys2Proof.Claims

open Sys2Proof.Machine

/-! ## Each step of the check sequence -/

theorem formatOk_iff (i : Instr) (L : Descriptor) : formatOk i L = true ↔ ¬FormatBad i L := by
  cases i <;> simp [formatOk, FormatBad, recordOk]

theorem dstMax_eq (i : Instr) (L : Descriptor) : dstMax Config.params i L = outputMax i L := by
  cases i <;> rfl

theorem sources_eq (i : Instr) (L : Descriptor) :
    sources Config.params i L = (sourceList i L).map fun r => ⟨r.1, r.2⟩ := by
  cases i <;> rfl

theorem lengthsOk_iff (i : Instr) (L : Descriptor) : lengthsOk Config.params i L = true ↔ ¬LengthBad i L := by
  cases i <;>
    simp [LengthBad, lengthsOk, dstMax, FixedLengthsHold, src0Rule, src1Rule, lenOk, outputMax, recordLength, LP,
      and_assoc] <;>
    intros <;> exact decide_eq_true_iff

theorem boundsOk_iff (i : Instr) (L : Descriptor) : boundsOk Config.params i L = true ↔ ¬BoundsBad i L := by
  unfold BoundsBad boundsOk
  rw [sources_eq]
  simp [List.all_eq_true, inBounds, destination, dstMax_eq, BUF]

theorem shareNoByte_iff (a n b m : Nat) : ShareNoByte a n b m ↔ overlaps ⟨a, n⟩ ⟨b, m⟩ = false := by
  rw [overlaps_false_iff]
  unfold ShareNoByte Inside
  constructor
  · intro h
    have := h (max a b)
    simp only
    omega
  · simp only
    intro h k hk
    omega

/-- Two regions of which one ends where the other begins, or before, share no byte. -/
theorem shareNoByte_of_apart {a n b m : Nat} (h : a + n ≤ b ∨ b + m ≤ a) : ShareNoByte a n b m := by
  intro k hk hk'
  unfold Inside at hk hk'
  omega

theorem disjointOk_iff (i : Instr) (L : Descriptor) : disjointOk Config.params i L = true ↔ ¬OverlapBad i L := by
  unfold OverlapBad disjointOk
  rw [sources_eq]
  simp [List.all_eq_true, destination, dstMax_eq, shareNoByte_iff]

/-! ## The checks of a good descriptor -/

/-- A descriptor with its fixed lengths, a wide enough destination in bounds, and every source in bounds and apart from the
destination passes every check. -/
theorem checks_of {i : Instr} {s : State} {L : Descriptor} (hf : s.fatal = false) (h1 : ¬FormatBad i L)
    (h2 : FixedLengthsHold i L) (hd : DestOk L (outputMax i L))
    (hs : ∀ r ∈ sourceList i L, r.1 + r.2 ≤ BUF ∧ ShareNoByte L.dstAddr.toNat (outputMax i L) r.1 r.2) :
    checks Config.params i s.fatal L = none := by
  refine checks_eq_none_iff.2 ⟨hf, (formatOk_iff i L).2 h1, (lengthsOk_iff i L).2 ?_, (boundsOk_iff i L).2 ?_,
    (disjointOk_iff i L).2 ?_⟩
  · rintro (h | h)
    · exact h h2
    · have := hd.1
      omega
  · rintro (⟨r, hr, h⟩ | h)
    · have := (hs r hr).1
      omega
    · have := hd.2
      unfold Fits at this
      omega
  · rintro ⟨r, hr, h⟩
    exact h (hs r hr).2

theorem twoElement_checks {i : Instr} {s : State} {L : Descriptor} (hi : i = .modexp ∨ i = .modexpInv ∨ i = .modmul)
    (hf : s.fatal = false) (h : TwoElementOperands L) : checks Config.params i s.fatal L = none := by
  obtain ⟨hd, ⟨a1, a2, a3⟩, ⟨b1, b2, b3⟩⟩ := h
  rcases hi with rfl | rfl | rfl <;>
  · refine checks_of hf (by simp [FormatBad]) ⟨a1, b1⟩ hd ?_
    simp only [sourceList, List.mem_cons, List.not_mem_nil, or_false, outputMax]
    rintro r (rfl | rfl)
    · rw [a1]
      exact ⟨a2, a3⟩
    · rw [b1]
      exact ⟨b2, b3⟩

theorem genExp_checks {s : State} {L : Descriptor} (hf : s.fatal = false) (hd : DestOk L LP) :
    checks Config.params .genExp s.fatal L = none :=
  checks_of hf (by simp [FormatBad]) trivial hd (by simp [sourceList])

theorem sha256_checks {s : State} {L : Descriptor} (hf : s.fatal = false) (hd : DestOk L 32)
    (h0 : SourceOk L.src0Addr L.src0Len L.src0Len.toNat L 32) : checks Config.params .sha256 s.fatal L = none := by
  refine checks_of hf (by simp [FormatBad]) trivial hd ?_
  simp only [sourceList, List.mem_cons, List.not_mem_nil, or_false, outputMax]
  rintro r rfl
  exact h0.2

theorem encrypt_checks {s : State} {L : Descriptor} (hf : s.fatal = false)
    (hd : DestOk L (48 + 16 * (L.src0Len.toNat / 16 + 1)))
    (h0 : SourceOk L.src0Addr L.src0Len L.src0Len.toNat L (48 + 16 * (L.src0Len.toNat / 16 + 1)))
    (h1 : SourceOk L.src1Addr L.src1Len 96 L (48 + 16 * (L.src0Len.toNat / 16 + 1))) :
    checks Config.params .cbcEncrypt s.fatal L = none := by
  refine checks_of hf (by simp [FormatBad]) h1.1 hd ?_
  simp only [sourceList, List.mem_cons, List.not_mem_nil, or_false, outputMax]
  rintro r (rfl | rfl)
  · exact h0.2
  · rw [h1.1]
    exact h1.2

theorem decrypt_checks {s : State} {L : Descriptor} (hf : s.fatal = false) (hR : 64 ≤ L.src0Len.toNat)
    (hm : (L.src0Len.toNat - 48) % 16 = 0) (hd : DestOk L (L.src0Len.toNat - 49))
    (h0 : SourceOk L.src0Addr L.src0Len L.src0Len.toNat L (L.src0Len.toNat - 49))
    (h1 : SourceOk L.src1Addr L.src1Len 96 L (L.src0Len.toNat - 49)) :
    checks Config.params .cbcDecrypt s.fatal L = none := by
  refine checks_of hf (by simp [FormatBad, hR, hm]) h1.1 hd ?_
  simp only [sourceList, List.mem_cons, List.not_mem_nil, or_false, outputMax]
  rintro r (rfl | rfl)
  · exact h0.2
  · rw [h1.1]
    exact h1.2

/-! ## Completions -/

theorem complete_ok_eq (L : Descriptor) (out : Bytes) (s : State) : complete L (.ok out) s = okState L out s := rfl

theorem complete_err_eq {L : Descriptor} {c : ErrCode} {s : State} (h : c ≠ .entropy) :
    complete L (.err c) s = errState (errNumber c) s := by
  simp [complete, errState, h]

theorem complete_entropy_eq (L : Descriptor) (s : State) : complete L (.err .entropy) s = entropyState s := by
  simp [complete, entropyState, errNumber]

end Sys2Proof.Claims
end

