-- ==== Sys2Proof/Laws/KeyExchange.lean ====
section
/-! SUPPORT. Sys2Proof/Laws/KeyExchange.lean: what the host's procedures do to an idle block: the host assembly and the
host call (30_encoding.md R97, R98; 49_key_exchange_host.md R250). -/

namespace Sys2Proof.Machine

/-- Nothing is in flight and nothing has failed for good. -/
structure Idle (s : State) : Prop where
  busy : s.busy = false
  fatal : s.fatal = false
  wf : Memory.wf s.dbuf = true

/-- The host's offsets keep the three regions of a call in bounds and apart (49_key_exchange_host.md R250). -/
structure HostChoice.Apart (c : HostChoice) : Prop where
  a0_fits : c.a0 + Config.params.lp ≤ Config.params.bufBytes
  a1_fits : c.a1 + Config.params.lp ≤ Config.params.bufBytes
  ad_fits : c.ad + Config.params.lp ≤ Config.params.bufBytes
  sources : c.a0 + Config.params.lp ≤ c.a1 ∨ c.a1 + Config.params.lp ≤ c.a0
  result0 : c.ad + Config.params.lp ≤ c.a0 ∨ c.a0 + Config.params.lp ≤ c.ad
  result1 : c.ad + Config.params.lp ≤ c.a1 ∨ c.a1 + Config.params.lp ≤ c.ad

/-! ## Moves -/

/-- A state with other moves to come and another last reply: all that a host read changes. -/
def env (ts : List Turn) (r : Option Reply) (s : State) : State := { s with turns := ts, reply := r }

theorem env_env (ts ts' : List Turn) (r r' : Option Reply) (s : State) : env ts r (env ts' r' s) = env ts r s := rfl

theorem env_self (s : State) : env s.turns s.reply s = s := rfl

theorem perform_host (a : Access) (s : State) :
    perform (.host a) s = .ok () (hostAccess Config.params a { s with turns := [] }) := rfl

/-- A procedure goes on with what its first part answered, on the block that part left. -/
theorem bind_ok {α β : Type} {x : Procedure α} {a : α} {f : α → Procedure β} {s s' : State} (h : x s = .ok a s') :
    (x >>= f) s = f a s' := by
  show EStateM.bind x f s = _
  rw [EStateM.bind, h]

/-- A procedure stops where its first part stopped, and leaves the block that part left. -/
theorem bind_error {α β : Type} {x : Procedure α} {e : HostStop} {f : α → Procedure β} {s s' : State}
    (h : x s = .error e s') : (x >>= f) s = .error e s' := by
  show EStateM.bind x f s = _
  rw [EStateM.bind, h]

theorem performAll_append (ts us : List Turn) (s : State) :
    performAll (ts ++ us) s = (performAll ts >>= fun _ => performAll us) s := by
  induction ts generalizing s with
  | nil => rfl
  | cons t ts ih =>
    rw [List.cons_append, performAll, performAll, bind_assoc]
    cases h : perform t s with
    | error e s' => rw [bind_error h, bind_error h]
    | ok a s' => rw [bind_ok h, bind_ok h, ih]

theorem performAll_append_ok {ts us : List Turn} {s s' : State} (h : performAll ts s = .ok () s') :
    performAll (ts ++ us) s = performAll us s' := by
  rw [performAll_append, bind_ok h]

theorem performAll_cons_ok {t : Turn} {ts : List Turn} {s s' : State} (h : perform t s = .ok () s') :
    performAll (t :: ts) s = performAll ts s' := by
  rw [performAll, bind_ok h]

/-- A read access and its data. -/
theorem hostRead_ok {off : Nat} {w : Width} {s s' : State} {v : Word} (h : perform (.host (.read off w)) s = .ok () s')
    (hv : replyData s' = v) : hostRead off w s = .ok v s' := by
  rw [hostRead, bind_ok h, ← hv]
  rfl

/-- A register read returns the register and changes only `turns` and `reply`. -/
theorem hostRead_register {off : Nat} (s : State) (h : off < 0x1000) (ha : off % 4 = 0) :
    ∃ ts r, hostRead off .word s = .ok (regRead Config.params s off) (env ts r s) := by
  refine ⟨[], some ⟨.okay, regRead Config.params s off⟩, hostRead_ok ?_ rfl⟩
  rw [perform_host]
  simp only [hostAccess, portAccess, target, if_pos h, ha, and_self, if_true]
  rfl

/-- A register write is `regWrite`, with `turns` and `reply` overwritten. -/
theorem perform_wr {off : Nat} (v : Word) (s : State) (h : off < 0x1000) (ha : off % 4 = 0) :
    perform (wr off v) s = .ok () { regWrite off v { s with turns := [] } with reply := some ⟨.okay, 0⟩ } := by
  rw [wr, perform_host]
  simp only [hostAccess, portAccess, target, if_pos h, ha, and_self, if_true]

theorem target_of_fits {P : Params} {a : Nat} {w : Width} (ha : a % widthBytes w = 0)
    (hb : a + widthBytes w ≤ P.bufBytes) : target P (0x10000 + a) w = .buffer a := by
  unfold target
  rw [if_neg (by omega), if_pos (by omega), if_pos (by rwa [Nat.add_sub_cancel_left]), Nat.add_sub_cancel_left]

/-- A DBUF write to an idle block writes its lanes. -/
theorem perform_dbuf_write {a : Nat} {w : Width} (v : Word) {s : State} (hb : s.busy = false)
    (ha : a % widthBytes w = 0) (hf : a + widthBytes w ≤ Config.params.bufBytes) :
    perform (.host (.write (0x10000 + a) w v)) s =
      .ok () { s with
        turns := []
        dbuf := memWrite s.dbuf a (lanesOf v.toNat (widthBytes w))
        reply := some ⟨.okay, 0⟩ } := by
  rw [perform_host]
  simp only [hostAccess, portAccess, target_of_fits ha hf, dbufWrite, hb]
  rfl

/-! ## The host assembly -/

theorem memWrite_append : ∀ (x y : Bytes) (m : Memory) (a : Nat),
    memWrite m a (x ++ y) = memWrite (memWrite m a x) (a + x.length) y
  | [], _, _, _ => rfl
  | b :: x, y, m, a => by
    rw [List.cons_append, memWrite, memWrite_append x y, memWrite, List.length_cons]
    congr 1
    omega

theorem lanesOf_byte (b : Byte) : lanesOf (b.setWidth 32 : Word).toNat 1 = [b] := by
  have hb := b.isLt
  have e : (b.setWidth 32 : Word).toNat = b.toNat := by
    rw [BitVec.toNat_setWidth]
    omega
  simp only [lanesOf, e, BitVec.ofNat_toNat, BitVec.setWidth_eq]

theorem lanesOf_word (b0 b1 b2 b3 : Byte) : lanesOf (b3 ++ b2 ++ b1 ++ b0 : Word).toNat 4 = [b0, b1, b2, b3] := by
  have h0 := b0.isLt
  have h1 := b1.isLt
  have h2 := b2.isLt
  have h3 := b3.isLt
  have e : (b3 ++ b2 ++ b1 ++ b0 : Word).toNat = ((b3.toNat * 256 + b2.toNat) * 256 + b1.toNat) * 256 + b0.toNat := by
    show (b3 ++ b2 ++ b1 ++ b0 : BitVec (8 + 8 + 8 + 8)).toNat = _
    rw [BitVec.toNat_append, ← Nat.shiftLeft_add_eq_or_of_lt h0, BitVec.toNat_append,
      ← Nat.shiftLeft_add_eq_or_of_lt h1, BitVec.toNat_append, ← Nat.shiftLeft_add_eq_or_of_lt h2]
    simp only [Nat.shiftLeft_eq]
  have r : ∀ (b : Byte) (n : Nat), n % 256 = b.toNat → BitVec.ofNat 8 n = b := fun b n h =>
    BitVec.eq_of_toNat_eq (by rw [BitVec.toNat_ofNat]; exact h)
  rw [e]
  simp only [lanesOf]
  rw [r b0 _ (by omega), r b1 _ (by omega), r b2 _ (by omega), r b3 _ (by omega)]

/-- `wrbuf` writes its bytes and changes no other field of the block. -/
theorem performAll_wrbufFrom : ∀ (n a : Nat) (bs : Bytes) (s : State), bs.length ≤ n → s.busy = false →
    a + bs.length ≤ Config.params.bufBytes →
    ∃ ts r, performAll (wrbufFrom n a bs) s = .ok () (env ts r { s with dbuf := memWrite s.dbuf a bs }) := by
  have byteStep : ∀ (n : Nat), (∀ (a : Nat) (bs : Bytes) (s : State), bs.length ≤ n → s.busy = false →
      a + bs.length ≤ Config.params.bufBytes →
      ∃ ts r, performAll (wrbufFrom n a bs) s =
        .ok () (env ts r { s with dbuf := memWrite s.dbuf a bs })) →
      ∀ (a : Nat) (b : Byte) (rest : Bytes) (s : State), rest.length ≤ n → s.busy = false →
        a + (rest.length + 1) ≤ Config.params.bufBytes →
        ∃ ts r, performAll (.host (.write (0x10000 + a) .byte (b.setWidth 32)) :: wrbufFrom n (a + 1) rest) s =
          .ok () (env ts r { s with dbuf := memWrite s.dbuf a (b :: rest) }) := by
    intro n ih a b rest s hl hb hf
    rw [performAll_cons_ok (perform_dbuf_write (w := .byte) _ hb (Nat.mod_one _) (by simp only [widthBytes]; omega)),
      show widthBytes .byte = 1 from rfl, lanesOf_byte]
    exact ih (a + 1) rest _ hl hb (by omega)
  intro n
  induction n with
  | zero =>
    intro a bs s hl hb hf
    cases bs with
    | nil => exact ⟨s.turns, s.reply, rfl⟩
    | cons b bs => simp at hl
  | succ n ih =>
    intro a bs s hl hb hf
    rcases bs with _ | ⟨b, rest⟩
    · exact ⟨s.turns, s.reply, rfl⟩
    · simp only [List.length_cons] at hl hf
      unfold wrbufFrom
      split
      · rename_i b1 b2 b3 more
        simp only [List.length_cons] at hl hf
        split
        · rename_i ha
          rw [wr, performAll_cons_ok (perform_dbuf_write (w := .word) _ hb ha (by simp only [widthBytes]; omega)),
            show widthBytes .word = 4 from rfl, lanesOf_word]
          exact ih (a + 4) more _ (by omega) hb (by omega)
        · exact byteStep n ih a b _ s (by simp only [List.length_cons]; omega) hb (by simp only [List.length_cons]; omega)
      · exact byteStep n ih a b rest s (by omega) hb (by omega)

/-- `rdbuf` returns the bytes and changes only `turns` and `reply`. -/
theorem rdbuf_ok : ∀ (n a : Nat) (s : State), s.busy = false → a + n ≤ Config.params.bufBytes →
    ∃ ts r, rdbuf a n s = .ok (memRead s.dbuf a n) (env ts r s)
  | 0, a, s, _, _ => ⟨s.turns, s.reply, rfl⟩
  | n + 1, a, s, hb, hf => by
    have hv : BitVec.ofNat 32 (lanesRead s.dbuf a 1) = (readByte s.dbuf a).setWidth 32 := by
      have := (readByte s.dbuf a).isLt
      apply BitVec.eq_of_toNat_eq
      simp [lanesRead]
    have ht : target Config.params (0x10000 + a) .byte = .buffer a :=
      target_of_fits (Nat.mod_one a) (by simp only [widthBytes]; omega)
    have hr : hostRead (0x10000 + a) .byte s =
        .ok ((readByte s.dbuf a).setWidth 32) (env [] (some ⟨.okay, (readByte s.dbuf a).setWidth 32⟩) s) := by
      refine hostRead_ok ?_ rfl
      rw [perform_host]
      simp only [hostAccess, portAccess, ht, dbufRead, hb, widthBytes, hv, Bool.false_eq_true, if_false, env]
    obtain ⟨ts, r, h⟩ := rdbuf_ok n (a + 1) (env [] (some ⟨.okay, (readByte s.dbuf a).setWidth 32⟩) s) hb (by omega)
    have e : ((readByte s.dbuf a).setWidth 32 : Word).setWidth 8 = readByte s.dbuf a := by
      apply BitVec.eq_of_toNat_eq
      simp
    refine ⟨ts, r, ?_⟩
    rw [rdbuf, bind_ok hr, bind_ok h, e]
    rfl

/-- The state after a command has been accepted with this descriptor. -/
def acceptedState (L : Descriptor) (s : State) : State :=
  { s with
    src0Addr := L.src0Addr
    src0Len := L.src0Len
    src1Addr := L.src1Addr
    src1Len := L.src1Len
    dstAddr := L.dstAddr
    dstLen := L.dstLen
    cmd := L.cmd
    latched := some L
    busy := true
    done := false
    errcode := okNumber
    outLen := 0 }

/-- The host assembly of a command with two sources, issued to an idle block, latches exactly its descriptor. -/
theorem performAll_commandTurns (i : Instr) (da dl a0 l0 a1 l1 : Nat) {s : State} (hb : s.busy = false) :
    ∃ ts r, performAll (commandTurns i da dl a0 l0 a1 l1) s =
      .ok () (env ts r (acceptedState ⟨encode i, BitVec.ofNat 32 a0, BitVec.ofNat 32 l0, BitVec.ofNat 32 a1,
        BitVec.ofNat 32 l1, BitVec.ofNat 32 da, BitVec.ofNat 32 dl⟩ s)) := by
  refine ⟨[], some ⟨.okay, 0⟩, ?_⟩
  unfold commandTurns
  rw [performAll_cons_ok (perform_wr _ _ (by omega) rfl), performAll_cons_ok (perform_wr _ _ (by omega) rfl),
    performAll_cons_ok (perform_wr _ _ (by omega) rfl), performAll_cons_ok (perform_wr _ _ (by omega) rfl),
    performAll_cons_ok (perform_wr _ _ (by omega) rfl), performAll_cons_ok (perform_wr _ _ (by omega) rfl),
    performAll_cons_ok (perform_wr _ _ (by omega) rfl)]
  simp [regWrite, issueCommand, hb, accept, descriptorOf, acceptedState, env]
  rfl

/-- The host assembly of a command with no source. -/
theorem performAll_commandTurnsNoSource (i : Instr) (da dl : Nat) {s : State} (hb : s.busy = false) :
    ∃ ts r, performAll (commandTurnsNoSource i da dl) s =
      .ok () (env ts r (acceptedState ⟨encode i, s.src0Addr, s.src0Len, s.src1Addr, s.src1Len, BitVec.ofNat 32 da,
        BitVec.ofNat 32 dl⟩ s)) := by
  refine ⟨[], some ⟨.okay, 0⟩, ?_⟩
  unfold commandTurnsNoSource
  rw [performAll_cons_ok (perform_wr _ _ (by omega) rfl), performAll_cons_ok (perform_wr _ _ (by omega) rfl),
    performAll_cons_ok (perform_wr _ _ (by omega) rfl)]
  simp [regWrite, issueCommand, hb, accept, descriptorOf, acceptedState, env]
  rfl

/-- Polling STATUS changes only `turns` and `reply`. -/
theorem performAll_polls : ∀ (n : Nat) (s : State),
    ∃ ts r, performAll (List.replicate n (.host (.read 0x010 .word))) s = .ok () (env ts r s)
  | 0, s => ⟨s.turns, s.reply, rfl⟩
  | n + 1, s => by
    rw [List.replicate_succ]
    have h : perform (.host (.read 0x010 .word)) s = .ok () (env [] (some ⟨.okay, statusWord s⟩) s) := rfl
    rw [performAll_cons_ok h]
    exact performAll_polls n _

/-- The engine's turn with a command in flight runs it. -/
theorem perform_engine {s u : State} {L : Descriptor} {i : Instr} (hb : s.busy = true) (hl : s.latched = some L)
    (hd : decode L.cmd = .ok i) (hx : exec i (env [] s.reply s) = .next u) : perform .engine s = .ok () u := by
  have h : step { s with turns := [.engine] } = .next u := by
    rw [← hx]
    simp only [step, nextMove, hb, if_true, fetch, hl, hd]
    congr 1
    simp only [env]
    rw [hl, hb]
  simp only [perform, h]

theorem statusWord_code (s : State) : (statusWord s).extractLsb' 8 8 = s.errcode := by
  have key : ∀ (a b c d f : Bool) (e : Fin 256),
      (flagWord a ||| flagWord b <<< 1 ||| flagWord c <<< 2 ||| flagWord d <<< 3 ||| flagWord f <<< 4 |||
        (BitVec.ofFin (w := 8) e).setWidth 32 <<< 8).extractLsb' 8 8 = BitVec.ofFin e := by decide +kernel
  exact key s.busy s.done s.fatal s.cmdOvr s.accErr s.errcode.toFin

/-- The polls, the engine's turn and the last poll of a call whose command comes to the result `r`. `u` is the state the
command's own draws leave. -/
theorem finishCall_completes {c : HostChoice} {s u : State} {L : Descriptor} {i : Instr} {r : Result} (hb : s.busy = true)
    (hl : s.latched = some L) (hd : decode L.cmd = .ok i)
    (hx : ∀ ts p, exec i (env ts p s) = .next (complete L r (env ts p u))) :
    ∃ ts p, finishCall c s =
      (if (complete L r u).errcode ≠ 0 then throw (.code (complete L r u).errcode)
        else do
          let n ← hostRead 0x030 .word
          let out ← rdbuf c.ad n.toNat
          perform (wr 0x010 0x2)
          return out : Procedure Bytes) (env ts p (complete L r u)) := by
  obtain ⟨ts1, p1, h1⟩ := performAll_polls c.polls s
  have hc : ∀ ts p, complete L r (env ts p u) = env ts p (complete L r u) := fun ts p => by cases r <;> rfl
  have h2 : performAll (List.replicate c.polls (.host (.read 0x010 .word)) ++ [.engine]) s =
      .ok () (env [] p1 (complete L r u)) := by
    rw [performAll_append_ok h1,
      performAll_cons_ok (perform_engine (s := env ts1 p1 s) hb hl hd ((hx [] p1).trans (by rw [hc])))]
    rfl
  obtain ⟨ts3, p3, h3⟩ := hostRead_register (off := 0x010) (env [] p1 (complete L r u)) (by omega) rfl
  have hcode : (regRead Config.params (env [] p1 (complete L r u)) 0x010).extractLsb' 8 8 = (complete L r u).errcode :=
    statusWord_code _
  refine ⟨ts3, p3, ?_⟩
  rw [finishCall, bind_ok h2, bind_ok h3]
  simp only [hcode]
  rfl

/-- The end of a call whose command succeeds with output `out`: the host gets `out`, and DONE is acknowledged. -/
theorem finishCall_ok {c : HostChoice} {s u : State} {L : Descriptor} {i : Instr} {out : Bytes} (hb : s.busy = true)
    (hl : s.latched = some L) (hd : decode L.cmd = .ok i)
    (hx : ∀ ts r, exec i (env ts r s) = .next (complete L (.ok out) (env ts r u)))
    (ha : L.dstAddr.toNat = c.ad) (hf : c.ad + out.length ≤ Config.params.bufBytes) (hw : Memory.wf u.dbuf = true) :
    ∃ ts r, finishCall c s = .ok out (env ts r { complete L (.ok out) u with done := false }) := by
  obtain ⟨ts3, r3, h3⟩ := finishCall_completes (c := c) hb hl hd hx
  have hlen : (BitVec.ofNat 32 out.length : Word).toNat = out.length := by
    have := Config.buf_le
    rw [BitVec.toNat_ofNat, Nat.mod_eq_of_lt (by omega)]
  obtain ⟨ts4, r4, h4⟩ := hostRead_register (off := 0x030) (env ts3 r3 (complete L (.ok out) u)) (by omega) rfl
  have hn : (regRead Config.params (env ts3 r3 (complete L (.ok out) u)) 0x030).toNat = out.length := hlen
  rw [env_env] at h4
  obtain ⟨ts5, r5, h5⟩ := rdbuf_ok out.length c.ad (env ts4 r4 (complete L (.ok out) u)) rfl hf
  have h6 := perform_wr (off := 0x010) 0x2 (env ts5 r5 (complete L (.ok out) u)) (by omega) rfl
  have e : memRead (env ts4 r4 (complete L (.ok out) u)).dbuf c.ad out.length = out := by
    show memRead (memWrite u.dbuf L.dstAddr.toNat out) c.ad out.length = out
    rw [ha]
    exact memRead_memWrite hw
  rw [env_env, e] at h5
  refine ⟨[], some ⟨.okay, 0⟩, ?_⟩
  rw [h3, if_neg (by simp [okNumber]), bind_ok h4, hn, bind_ok h5, bind_ok h6]
  simp [regWrite, env]
  rfl

/-- The end of a call whose command fails: the host gets the code, and the block as the completion left it. -/
theorem finishCall_err {c : HostChoice} {s u : State} {L : Descriptor} {i : Instr} {e : ErrCode} (hb : s.busy = true)
    (hl : s.latched = some L) (hd : decode L.cmd = .ok i)
    (hx : ∀ ts r, exec i (env ts r s) = .next (complete L (.err e) (env ts r u))) :
    ∃ ts r, finishCall c s = .error (.code (errNumber e)) (env ts r (complete L (.err e) u)) := by
  obtain ⟨ts, r, h⟩ := finishCall_completes (c := c) hb hl hd hx
  have hn : errNumber e ≠ 0 := by cases e <;> decide
  have hc : (complete L (.err e) u).errcode ≠ 0 := hn
  refine ⟨ts, r, ?_⟩
  rw [h, if_pos hc]
  rfl

/-! ## The host call -/

/-- The descriptor a call of a two-operand command latches. -/
def callDescriptor (i : Instr) (c : HostChoice) : Descriptor :=
  ⟨encode i, BitVec.ofNat 32 c.a0, BitVec.ofNat 32 Config.params.lp, BitVec.ofNat 32 c.a1,
    BitVec.ofNat 32 Config.params.lp, BitVec.ofNat 32 c.ad, BitVec.ofNat 32 Config.params.lp⟩

/-- The commands of two group-wide operands. -/
def TwoOperands (i : Instr) : Prop := i = .modexp ∨ i = .modexpInv ∨ i = .modmul

theorem toNat_of_fits {n k : Nat} (h : n + k ≤ Config.params.bufBytes) : (BitVec.ofNat 32 n : Word).toNat = n := by
  have := Config.buf_le
  rw [BitVec.toNat_ofNat, Nat.mod_eq_of_lt (by omega)]

theorem toNat_lp : (BitVec.ofNat 32 Config.params.lp : Word).toNat = Config.params.lp := by
  have := Config.lp_le
  rw [BitVec.toNat_ofNat, Nat.mod_eq_of_lt (by omega)]

theorem call_decodes {i : Instr} (hi : TwoOperands i) (c : HostChoice) : decode (callDescriptor i c).cmd = .ok i := by
  show decode (encode i) = .ok i
  rcases hi with rfl | rfl | rfl <;> decide

theorem call_checks {i : Instr} (hi : TwoOperands i) {c : HostChoice} (hc : c.Apart) :
    checks Config.params i false (callDescriptor i c) = none := by
  have e0 := toNat_of_fits hc.a0_fits
  have e1 := toNat_of_fits hc.a1_fits
  have ed := toNat_of_fits hc.ad_fits
  have b0 := hc.a0_fits
  have b1 := hc.a1_fits
  have bd := hc.ad_fits
  have r0 := hc.result0
  have r1 := hc.result1
  have el := toNat_lp
  rw [checks_eq_none_iff]
  rcases hi with rfl | rfl | rfl
  all_goals
    refine ⟨rfl, rfl, ?_, ?_, ?_⟩
    · simp [lengthsOk, lenOk, src0Rule, src1Rule, dstMax, callDescriptor, el]
    · simp [boundsOk, sources, sourceRegion, src0Rule, src1Rule, inBounds, destination, dstMax, callDescriptor, e0, e1,
        ed, el, b0, b1, bd]
    · simp only [disjointOk, sources, sourceRegion, src0Rule, src1Rule, destination, dstMax, callDescriptor, e0, e1, ed,
        el, Option.toList_some, List.singleton_append, List.all_cons, List.all_nil, Bool.and_true, Bool.and_eq_true,
        Bool.not_eq_true', overlaps_false_iff]
      omega

/-- A call's writes to an idle block put its operands in DBUF and its command in flight. -/
theorem call_issues {i : Instr} {c : HostChoice} (hc : c.Apart) {s0 s1 : Bytes} {s : State} (hs : Idle s)
    (h0 : s0.length = Config.params.lp) (h1 : s1.length = Config.params.lp) :
    ∃ ts p D, performAll (wrbuf c.a0 s0 ++ wrbuf c.a1 s1
        ++ commandTurns i c.ad Config.params.lp c.a0 s0.length c.a1 s1.length) s =
        .ok () (env ts p (acceptedState (callDescriptor i c) { s with dbuf := D })) ∧
      Memory.wf D = true ∧ memRead D c.a0 Config.params.lp = s0 ∧ memRead D c.a1 Config.params.lp = s1 := by
  have b0 := hc.a0_fits
  have b1 := hc.a1_fits
  obtain ⟨ts1, r1, w1⟩ := performAll_wrbufFrom s0.length c.a0 s0 s le_rfl hs.busy (by omega)
  obtain ⟨ts2, r2, w2⟩ := performAll_wrbufFrom s1.length c.a1 s1 (env ts1 r1 { s with dbuf := memWrite s.dbuf c.a0 s0 })
    le_rfl hs.busy (by omega)
  let D := memWrite (memWrite s.dbuf c.a0 s0) c.a1 s1
  obtain ⟨ts3, r3, w3⟩ := performAll_commandTurns i c.ad Config.params.lp c.a0 s0.length c.a1 s1.length
    (s := env ts2 r2 { s with dbuf := D }) hs.busy
  refine ⟨ts3, r3, D, ?_, wf_memWrite (wf_memWrite hs.wf _ _) _ _, ?_, ?_⟩
  · rw [List.append_assoc, wrbuf, performAll_append_ok w1, wrbuf, performAll_append_ok w2]
    refine w3.trans ?_
    rw [h0, h1]
    rfl
  · rw [memRead_memWrite_disjoint (by have := hc.sources; omega), ← h0]
    exact memRead_memWrite hs.wf
  · rw [← h1]
    exact memRead_memWrite (wf_memWrite hs.wf _ _)

/-- The command a call has put in flight comes to its own computation's result. -/
theorem exec_called {i : Instr} (hi : TwoOperands i) {c : HostChoice} (hc : c.Apart) {s : State} (hf : s.fatal = false)
    {body : Descriptor → Memory → Result} (hx : ∀ v, exec i v = runCommand Config.params i body v) (D : Memory)
    (ts : List Turn) (p : Option Reply) :
    exec i (env ts p (acceptedState (callDescriptor i c) { s with dbuf := D })) =
      .next (complete (callDescriptor i c) (body (callDescriptor i c) D)
        (env ts p (acceptedState (callDescriptor i c) { s with dbuf := D }))) := by
  rw [hx]
  refine runCommand_ok rfl ?_
  show checks Config.params i s.fatal _ = none
  rw [hf]
  exact call_checks hi hc

/-- What a call of a two-operand command of an idle block gives: the output its own computation has for the two operand
strings, in a block that is idle again with the oracle untouched. -/
theorem call_ok {i : Instr} (hi : TwoOperands i) {c : HostChoice} (hc : c.Apart) {s0 s1 out : Bytes} {s : State}
    (hs : Idle s) (h0 : s0.length = Config.params.lp) (h1 : s1.length = Config.params.lp)
    {body : Descriptor → Memory → Result} (hx : ∀ v, exec i v = runCommand Config.params i body v)
    (hb : ∀ D, memRead D c.a0 Config.params.lp = s0 → memRead D c.a1 Config.params.lp = s1 →
      body (callDescriptor i c) D = .ok out) (hlen : out.length = Config.params.lp) :
    ∃ s', call i c s0 s1 s = .ok out s' ∧ Idle s' ∧ s'.rng = s.rng ∧ s'.draws = s.draws := by
  obtain ⟨ts, p, D, hall, hD, hr0, hr1⟩ := call_issues (i := i) hc hs h0 h1
  obtain ⟨ts', p', hfin⟩ := finishCall_ok (c := c) (s := env ts p (acceptedState (callDescriptor i c) { s with dbuf := D }))
    (u := acceptedState (callDescriptor i c) { s with dbuf := D }) (out := out) rfl rfl (call_decodes hi c)
    (fun ts p => (exec_called hi hc hs.fatal hx D ts p).trans (by rw [hb D hr0 hr1]))
    (toNat_of_fits hc.ad_fits) (by rw [hlen]; exact hc.ad_fits) hD
  exact ⟨_, (bind_ok hall).trans hfin, ⟨rfl, hs.fatal, wf_memWrite hD _ _⟩, rfl, rfl⟩

/-- What a call of a two-operand command gives where its own computation fails: the code, in a block that is idle again
and keeps DONE, with the oracle untouched. -/
theorem call_err {i : Instr} (hi : TwoOperands i) {c : HostChoice} (hc : c.Apart) {s0 s1 : Bytes} {s : State} {e : ErrCode}
    (hs : Idle s) (h0 : s0.length = Config.params.lp) (h1 : s1.length = Config.params.lp)
    {body : Descriptor → Memory → Result} (hx : ∀ v, exec i v = runCommand Config.params i body v)
    (hb : ∀ D, memRead D c.a0 Config.params.lp = s0 → memRead D c.a1 Config.params.lp = s1 →
      body (callDescriptor i c) D = .err e) (he : e ≠ .entropy) :
    ∃ s', call i c s0 s1 s = .error (.code (errNumber e)) s' ∧ Idle s' ∧ s'.done = true ∧ s'.errcode = errNumber e ∧
      s'.rng = s.rng ∧ s'.draws = s.draws := by
  obtain ⟨ts, p, D, hall, hD, hr0, hr1⟩ := call_issues (i := i) hc hs h0 h1
  obtain ⟨ts', p', hfin⟩ := finishCall_err (c := c) (s := env ts p (acceptedState (callDescriptor i c) { s with dbuf := D }))
    (u := acceptedState (callDescriptor i c) { s with dbuf := D }) (e := e) rfl rfl (call_decodes hi c)
    (fun ts p => (exec_called hi hc hs.fatal hx D ts p).trans (by rw [hb D hr0 hr1]))
  refine ⟨_, (bind_ok hall).trans hfin, ⟨rfl, ?_, hD⟩, rfl, rfl, rfl, rfl⟩
  show (s.fatal || decide (e = .entropy)) = false
  rw [hs.fatal, decide_eq_false he]
  rfl

/-- What a call of GEN_EXP of an idle block gives on the answer `n`: the drawn exponent. -/
theorem callGenExp_ok {c : HostChoice} (hc : c.Apart) {s : State} (hs : Idle s) {n : Nat} {rest : List (Option Nat)}
    (hr : s.rng = some n :: rest) :
    ∃ s', callGenExp c s = .ok (int2be Config.params.lp (drawnExponent Config.params n)) s' ∧ Idle s' ∧
      s'.rng = rest ∧ s'.draws = s.draws + 1 := by
  have bd := hc.ad_fits
  have ed := toNat_of_fits bd
  obtain ⟨ts1, r1, w1⟩ := performAll_commandTurnsNoSource .genExp c.ad Config.params.lp hs.busy
  let L : Descriptor := ⟨encode .genExp, s.src0Addr, s.src0Len, s.src1Addr, s.src1Len, BitVec.ofNat 32 c.ad,
    BitVec.ofNat 32 Config.params.lp⟩
  have hch : checks Config.params .genExp false L = none := by
    rw [checks_eq_none_iff]
    refine ⟨rfl, rfl, ?_, ?_, rfl⟩
    · have := Config.lp_le
      simp [lengthsOk, lenOk, src0Rule, src1Rule, dstMax, L]
      omega
    · simp [boundsOk, sources, sourceRegion, src0Rule, src1Rule, inBounds, destination, dstMax, L, ed, bd]
  obtain ⟨ts4, r4, hfin⟩ := finishCall_ok (c := c) (s := env ts1 r1 (acceptedState L s))
    (u := { acceptedState L s with rng := rest, draws := s.draws + 1 }) (L := L) (i := .genExp)
    (out := int2be Config.params.lp (drawnExponent Config.params n)) rfl rfl
    (show decode (encode .genExp) = .ok .genExp by decide)
    (fun ts r => by
      have hd := draw_supplied (s := env ts r (env ts1 r1 (acceptedState L s))) (a := some n) (rest := rest) hr
      rw [exec_genExp, runDrawing_ok (L := L) (n := n) rfl (by
        show checks Config.params .genExp s.fatal _ = none
        rw [hs.fatal]
        exact hch) (by rw [hd]), hd]
      rfl)
    ed (by rw [int2be_length]; exact bd) hs.wf
  exact ⟨_, (bind_ok w1).trans hfin, ⟨rfl, hs.fatal, wf_memWrite hs.wf _ _⟩, rfl, rfl⟩

/-! ## Boot -/

/-- A boot check that holds lets the sequence go on. -/
theorem bootCheck_then {α : Type} {b : Bool} (f : Procedure α) (s : State) (h : b = true) :
    (bootCheck b >>= fun _ => f) s = f s := by
  rw [h]
  rfl

/-- A boot check that fails stops it, with no access made. -/
theorem bootCheck_stops {α : Type} {b : Bool} (f : Procedure α) (s : State) (h : b = false) :
    (bootCheck b >>= fun _ => f) s = .error .malformed s := by
  rw [h]
  rfl

/-! ## Removing secrets -/

/-- Every byte of the regions of LP bytes at these offsets reads 0. -/
def Erased (offsets : List Nat) (s : State) : Prop :=
  ∀ a ∈ offsets, ∀ k, a ≤ k → k < a + Config.params.lp → readByte s.dbuf k = 0x00

/-- `erase` zeroes its regions and leaves the block idle, the oracle untouched and every other byte as it was. -/
theorem erase_ok : ∀ (offsets : List Nat) {s : State}, Idle s →
    (∀ a ∈ offsets, a + Config.params.lp ≤ Config.params.bufBytes) →
    ∃ s', erase offsets s = .ok () s' ∧ Idle s' ∧ s'.rng = s.rng ∧ s'.draws = s.draws ∧ s'.done = s.done ∧
      s'.errcode = s.errcode ∧ Erased offsets s' ∧ ∀ k, readByte s'.dbuf k = readByte s.dbuf k ∨ readByte s'.dbuf k = 0x00
  | [], s, hs, _ => ⟨s, rfl, hs, rfl, rfl, rfl, rfl, (fun _ h => by cases h), fun _ => .inl rfl⟩
  | a :: offsets, s, hs, hf => by
    have ha := hf a List.mem_cons_self
    obtain ⟨ts, p, hw⟩ := performAll_wrbufFrom (List.replicate Config.params.lp (0x00 : Byte)).length a
      (List.replicate Config.params.lp 0x00) s le_rfl hs.busy (by rw [List.length_replicate]; exact ha)
    let s1 := env ts p { s with dbuf := memWrite s.dbuf a (List.replicate Config.params.lp 0x00) }
    have hz : ∀ k, readByte s1.dbuf k = if a ≤ k ∧ k < a + Config.params.lp then 0x00 else readByte s.dbuf k :=
      readByte_memWrite_zeros hs.wf a Config.params.lp
    obtain ⟨s', he, hi, h1, h2, h3, h4, h5, h6⟩ := erase_ok offsets (s := s1) ⟨hs.busy, hs.fatal, wf_memWrite hs.wf _ _⟩
      fun b hb => hf b (List.mem_cons_of_mem a hb)
    refine ⟨s', ?_, hi, h1, h2, h3, h4, ?_, fun k => ?_⟩
    · rw [erase, List.flatMap_cons, wrbuf, performAll_append_ok hw]
      exact he
    · intro b hb k hk1 hk2
      rcases List.mem_cons.1 hb with rfl | hb
      · rcases h6 k with h | h
        · rw [h, hz, if_pos ⟨hk1, hk2⟩]
        · exact h
      · exact h5 b hb k hk1 hk2
    · rcases h6 k with h | h
      · rw [h, hz]
        split
        · exact .inr rfl
        · exact .inl rfl
      · exact .inr h

/-- A procedure that answers, with its secrets removed after it. -/
theorem thenErase_ok {α : Type} {x : Procedure α} {offsets : List Nat} {a : α} {s s1 : State} (hx : x s = .ok a s1)
    (hs : Idle s1) (hf : ∀ a ∈ offsets, a + Config.params.lp ≤ Config.params.bufBytes) :
    ∃ s', thenErase offsets x s = .ok a s' ∧ Idle s' ∧ s'.rng = s1.rng ∧ Erased offsets s' := by
  obtain ⟨s', he, hi, hr, _, _, _, hz, _⟩ := erase_ok offsets hs hf
  refine ⟨s', ?_, hi, hr, hz⟩
  rw [thenErase, hx]
  simp only [he]

/-- A procedure that stops, with its secrets removed after it: the reason is unchanged. -/
theorem thenErase_error {α : Type} {x : Procedure α} {offsets : List Nat} {e : HostStop} {s s1 : State}
    (hx : x s = .error e s1) (hs : Idle s1) (hf : ∀ a ∈ offsets, a + Config.params.lp ≤ Config.params.bufBytes) :
    ∃ s', thenErase offsets x s = .error e s' ∧ Idle s' ∧ s'.rng = s1.rng ∧ s'.errcode = s1.errcode ∧
      Erased offsets s' := by
  obtain ⟨s', he, hi, hr, _, _, hc, hz, _⟩ := erase_ok offsets hs hf
  refine ⟨s', ?_, hi, hr, hc, hz⟩
  rw [thenErase, hx]
  simp only [he]

end Sys2Proof.Machine
end

