-- ==== Sys2Proof/Laws/PerInstr.lean ====
section
/-! SUPPORT. Sys2Proof/Laws/PerInstr.lean: what holds of every command as syntax, one lemma per command. -/

namespace Sys2Proof.Laws.OneWord

/-- The word of a command has RSVD zero, an OPCODE outside the illegal ranges of 30_encoding.md R96, and its opcode in the
low byte. -/
def Statement (i : Instr) : Prop :=
  wellFormedWord (encode i) = true ∧ (encode i).toNat = (opcode i).toNat

theorem modexp : Statement .modexp := by unfold Statement; decide
theorem modexpInv : Statement .modexpInv := by unfold Statement; decide
theorem modmul : Statement .modmul := by unfold Statement; decide
theorem genExp : Statement .genExp := by unfold Statement; decide
theorem sha256 : Statement .sha256 := by unfold Statement; decide
theorem sha256Compress : Statement .sha256Compress := by unfold Statement; decide
theorem hmacSha256 : Statement .hmacSha256 := by unfold Statement; decide
theorem cbcEncrypt : Statement .cbcEncrypt := by unfold Statement; decide
theorem cbcDecrypt : Statement .cbcDecrypt := by unfold Statement; decide

end Sys2Proof.Laws.OneWord
end

