-- ==== Sys2Proof/Laws/Sha256.lean ====
section
/-! SUPPORT. Sys2Proof/Laws/Sha256.lean: the message schedule and the rounds, word by word (42_sha256.md R174, R175), and
the serialization of eight words. -/

namespace Sys2Proof.Machine

/-! ## The schedule -/

theorem beWords_length : ∀ (n : Nat) (s : Bytes), (beWords n s).length = n
  | 0, _ => rfl
  | n + 1, s => by rw [beWords, List.length_cons, beWords_length n]

/-- Word `t` of the first `n` words of a byte string. -/
theorem beWords_getD : ∀ {n t : Nat} (s : Bytes), t < n → (beWords n s).getD t 0 = be32 ((s.drop (4 * t)).take 4)
  | n + 1, 0, s, _ => rfl
  | n + 1, t + 1, s, h => by
    rw [beWords, List.getD_cons_succ, beWords_getD (s.drop 4) (by omega), List.drop_drop]
    congr 3
    omega

/-- Reading a reversed list from its other end. -/
theorem getD_reverse {ws : List Word} {k : Nat} (h : k < ws.length) :
    ws.reverse.getD (ws.length - 1 - k) 0 = ws.getD k 0 := by
  rw [List.getD_eq_getElem?_getD, List.getD_eq_getElem?_getD, List.getElem?_reverse (by omega)]
  congr 2
  omega

/-- `extendSchedule` keeps the words it is given and adds `n` that meet the recurrence, the words being read in the order
of their numbers. -/
theorem extendSchedule_spec : ∀ (n : Nat) (ws : List Word), 16 ≤ ws.length →
    (extendSchedule n ws).length = ws.length + n ∧
    (∀ t, t < ws.length → (extendSchedule n ws).reverse.getD t 0 = ws.reverse.getD t 0) ∧
    ∀ t, ws.length ≤ t → t < ws.length + n →
      let R := (extendSchedule n ws).reverse
      R.getD t 0 = smallSigma1 (R.getD (t - 2) 0) + R.getD (t - 7) 0 + smallSigma0 (R.getD (t - 15) 0) + R.getD (t - 16) 0
  | 0, ws, _ => ⟨rfl, fun _ _ => rfl, fun t h1 h2 => absurd h2 (by omega)⟩
  | n + 1, ws, h => by
    obtain ⟨hl, hk, hr⟩ := extendSchedule_spec n (nextScheduleWord ws :: ws) (by rw [List.length_cons]; omega)
    rw [List.length_cons] at hl hk hr
    have keep : ∀ t, t < ws.length →
        (extendSchedule n (nextScheduleWord ws :: ws)).reverse.getD t 0 = ws.reverse.getD t 0 := by
      intro t ht
      rw [hk t (by omega), List.reverse_cons, List.getD_append _ _ _ _ (by rw [List.length_reverse]; exact ht)]
    refine ⟨by rw [extendSchedule, hl]; omega, keep, ?_⟩
    intro t h1 h2
    rcases Nat.eq_or_lt_of_le h1 with rfl | h1
    · have at' : ∀ k, k < ws.length → (extendSchedule n (nextScheduleWord ws :: ws)).reverse.getD (ws.length - 1 - k) 0 =
          ws.getD k 0 := fun k hk' => by rw [keep _ (by omega), getD_reverse hk']
      have e2 := at' 1 (by omega)
      have e7 := at' 6 (by omega)
      have e15 := at' 14 (by omega)
      have e16 := at' 15 (by omega)
      simp only [Nat.sub_sub, Nat.reduceAdd] at e2 e7 e15 e16
      simp only [extendSchedule]
      rw [e2, e7, e15, e16, hk _ (by omega), List.reverse_cons,
        List.getD_append_right _ _ _ _ (by rw [List.length_reverse]), List.length_reverse, Nat.sub_self]
      rfl
    · exact hr t h1 (by omega)

/-- The schedule has 64 words. -/
theorem schedule_length (B : Bytes) : (schedule B).length = 64 := by
  rw [schedule, List.length_reverse, (extendSchedule_spec 48 _ (by rw [List.length_reverse, beWords_length])).1,
    List.length_reverse, beWords_length]

/-- `W[t] = be32(B[4t..4t+4))` for `t < 16` (42_sha256.md R174). -/
theorem schedule_first {B : Bytes} {t : Nat} (h : t < 16) : (schedule B).getD t 0 = be32 ((B.drop (4 * t)).take 4) := by
  have hl : (beWords 16 B).reverse.length = 16 := by rw [List.length_reverse, beWords_length]
  rw [schedule, (extendSchedule_spec 48 _ hl.ge).2.1 t (by rw [hl]; exact h), List.reverse_reverse, beWords_getD B h]

/-- The recurrence of the schedule (42_sha256.md R174). -/
theorem schedule_next {B : Bytes} {t : Nat} (h : 16 ≤ t) (ht : t < 64) :
    (schedule B).getD t 0 = smallSigma1 ((schedule B).getD (t - 2) 0) + (schedule B).getD (t - 7) 0 +
      smallSigma0 ((schedule B).getD (t - 15) 0) + (schedule B).getD (t - 16) 0 := by
  have hl : (beWords 16 B).reverse.length = 16 := by rw [List.length_reverse, beWords_length]
  exact (extendSchedule_spec 48 _ hl.ge).2.2 t (by rw [hl]; exact h) (by rw [hl]; exact ht)

/-! ## The rounds -/

/-- The working variables after the first `t` rounds (42_sha256.md R175). -/
def workingAfter (H : HashState) (B : Bytes) (t : Nat) : HashState :=
  ((roundConstants.zip (schedule B)).take t).foldl shaRound H

theorem workingAfter_zero (H : HashState) (B : Bytes) : workingAfter H B 0 = H := rfl

/-- One round on top of `t`. -/
theorem workingAfter_succ (H : HashState) (B : Bytes) {t : Nat} (h : t < 64) :
    workingAfter H B (t + 1) = shaRound (workingAfter H B t) (roundConstants.getD t 0, (schedule B).getD t 0) := by
  have hK : t < roundConstants.length := h
  have hW : t < (schedule B).length := by rw [schedule_length]; exact h
  rw [workingAfter, List.take_succ_eq_append_getElem (by rw [List.length_zip]; omega), List.foldl_append,
    List.foldl_cons, List.foldl_nil, List.getElem_zip, List.getD_eq_getElem _ _ hK, List.getD_eq_getElem _ _ hW]
  rfl

/-- The compression is 64 rounds and the final addition. -/
theorem compress_eq_workingAfter (H : HashState) (B : Bytes) : compress H B = addHash H (workingAfter H B 64) := by
  rw [compress, workingAfter, List.take_of_length_le]
  rw [List.length_zip, schedule_length]
  exact Nat.min_le_right _ _

/-! ## Serialization -/

theorem be32_int2be (x : Word) : be32 (int2be 4 x.toNat) = x := by
  have := x.isLt
  rw [be32, be2int_int2be, Nat.mod_eq_of_lt (by omega), BitVec.ofNat_toNat, BitVec.setWidth_eq]

/-- Eight serialized words read back. -/
theorem hashOfBytes_hashBytes (H : HashState) : hashOfBytes (hashBytes H) = H := by
  have t : ∀ (x : Nat) (r : Bytes), (int2be 4 x ++ r).take 4 = int2be 4 x := fun x r => List.take_left' (int2be_length _ _)
  have d : ∀ (k x : Nat) (r : Bytes), (int2be 4 x ++ r).drop (k + 4) = r.drop k := fun k x r => by
    rw [Nat.add_comm, ← List.drop_drop, List.drop_left' (int2be_length _ _)]
  have e : int2be 4 H.h.toNat = int2be 4 H.h.toNat ++ [] := (List.append_nil _).symm
  unfold hashOfBytes hashBytes
  simp only [List.append_assoc]
  rw [e]
  simp only [t, d 0, d 4, d 8, d 12, d 16, d 20, d 24, List.drop_zero, be32_int2be]

/-- Block `j` of a byte string is its slice. -/
theorem blocks_getElem? {n : Nat} : ∀ {m j : Nat} (s : Bytes), j < m → (blocks n m s)[j]? = some ((s.drop (n * j)).take n)
  | m + 1, 0, s, _ => rfl
  | m + 1, j + 1, s, h => by
    rw [blocks, List.getElem?_cons_succ, blocks_getElem? (s.drop n) (by omega), List.drop_drop, Nat.mul_succ, Nat.add_comm]

end Sys2Proof.Machine
end

