-- ==== Sys2Proof/Tests/Slice0.lean ====
section
/-! SUPPORT. Sys2Proof/Tests/Slice0.lean: the model's own tests. The expected values are those of 95_test_vectors.md, at its
toy group T1 and its TOY permutation; then, for each statement with hypotheses, a state that meets them. -/

namespace Sys2Proof.Tests

open Sys2Proof.Machine Sys2Proof.Claims

/-! ## Well-formedness and decoding (30_encoding.md R90–R92, R96) -/

theorem test_reserved_bits_refused : reservedBitsZero 0x00000110 = false ∧ wellFormedWord 0x00000110 = false := by decide
theorem test_unassigned_opcode_refused : opcodeAssigned 0x00000005 = false ∧ wellFormedWord 0x00000005 = false := by decide
theorem test_zero_word_refused : opcodeAssigned 0x00000000 = false ∧ wellFormedWord 0x00000000 = false := by decide
theorem test_every_command_well_formed : (∀ i : Instr, i.wellFormed = true → wellFormedWord (encode i) = true) := by
  intro i _
  cases i <;> decide

theorem test_decode_modexp : decode 0b00000000000000000000000000000001 = .ok .modexp := by decide
theorem test_decode_modexpInv : decode 0b00000000000000000000000000000010 = .ok .modexpInv := by decide
theorem test_decode_modmul : decode 0b00000000000000000000000000000011 = .ok .modmul := by decide
theorem test_decode_genExp : decode 0b00000000000000000000000000000100 = .ok .genExp := by decide
theorem test_decode_sha256 : decode 0b00000000000000000000000000010000 = .ok .sha256 := by decide
theorem test_decode_sha256Compress : decode 0b00000000000000000000000000010001 = .ok .sha256Compress := by decide
theorem test_decode_hmacSha256 : decode 0b00000000000000000000000000100000 = .ok .hmacSha256 := by decide
theorem test_decode_cbcEncrypt : decode 0b00000000000000000000000000110000 = .ok .cbcEncrypt := by decide
theorem test_decode_cbcDecrypt : decode 0b00000000000000000000000000110001 = .ok .cbcDecrypt := by decide
theorem test_decode_top_bit : decode 0x80000010 = .error .reservedBits := by decide
theorem test_table_words : decodeTableWord 32 0x11 = some .sha256Compress ∧ decodeTableWord 8 0x04 = some .genExp ∧
    decodeTableWord 32 0x32 = none := by decide

/-! ## One command on a small block -/

/-- The TOY permutation of 95_test_vectors.md section 0, and its inverse. -/
def toyE (k b : Bytes) : Bytes := xorBytes (b.drop 1 ++ b.take 1) (k.take 16)
def toyD (k c : Bytes) : Bytes :=
  let r := xorBytes c (k.take 16)
  r.drop 15 ++ r.take 15

/-- Configuration T1 of 95_test_vectors.md section 0. -/
def toy : Params where
  p := 23
  g := 4
  bufBytes := 512
  bcE := toyE
  bcD := toyD
  base := 0x40000000
  irqLine := 7
  accessPolicy := fun m => m == 1

/-- A descriptor. -/
def desc (i : Instr) (a0 l0 a1 l1 ad dl : Nat) : Descriptor :=
  ⟨encode i, BitVec.ofNat 32 a0, BitVec.ofNat 32 l0, BitVec.ofNat 32 a1, BitVec.ofNat 32 l1, BitVec.ofNat 32 ad,
    BitVec.ofNat 32 dl⟩

/-- A block in which the command latched as `L` is in flight over `D`. -/
def inFlight (L : Descriptor) (D : Memory) : State :=
  { State.reset with busy := true, latched := some L, cmd := L.cmd, dbuf := D }

/-- What the host sees after a completion: `n` bytes at `a`, STATUS and OUT_LEN. -/
def seen (a n : Nat) (o : Host.Outcome State Fault Refusal) : Option (Bytes × Word × Word) :=
  match o with
  | .next t => some (memRead t.dbuf a n, statusWord t, t.outLen)
  | .fault _ => none
  | .refused _ => none

/-- A block of configuration T1 with two one-byte operands at 0 and 1 and the destination at 2. -/
def small (i : Instr) (x y : Byte) : State :=
  inFlight (desc i 0 1 1 1 2 1) (memWrite [] 0 [x, y])

-- 95_test_vectors.md L2-M1.
theorem test_modexp : seen 2 1 (modexpAt toy (small .modexp 4 255)) = some ([16], 0x2, 1) := by decide +kernel
theorem test_modexp_range : seen 2 1 (modexpAt toy (small .modexp 23 1)) = some ([0], 0x602, 0) := by decide +kernel
theorem test_modexpInv : seen 2 1 (modexpInvAt toy (small .modexpInv 4 3)) = some ([9], 0x2, 1) := by decide +kernel
theorem test_modexpInv_range : seen 2 1 (modexpInvAt toy (small .modexpInv 4 11)) = some ([0], 0x602, 0) := by
  decide +kernel
theorem test_modmul : seen 2 1 (modmulAt toy (small .modmul 18 16)) = some ([12], 0x2, 1) := by decide +kernel
theorem test_modmul_range : seen 2 1 (modmulAt toy (small .modmul 22 23)) = some ([0], 0x602, 0) := by decide +kernel
theorem test_genExp : seen 2 1 (genExpAt toy { small .genExp 0 0 with rng := [some 6] }) = some ([7], 0x2, 1) := by
  decide +kernel
theorem test_genExp_fail : seen 2 1 (genExpAt toy { small .genExp 0 0 with rng := [none] }) = some ([0], 0x806, 0) := by
  decide +kernel

-- 95_test_vectors.md L1-1 and L2-S1.
theorem test_sha256 :
    seen 0x40 32 (sha256At toy (inFlight (desc .sha256 0 3 0 0 0x40 0x20) (memWrite [] 0 [0x61, 0x62, 0x63]))) =
      some (int2be 32 0xba7816bf8f01cfea414140de5dae2223b00361a396177a9cb410ff61f20015ad, 0x2, 0x20) := by decide +kernel

-- A zero-length source inside the destination shares no byte with it (log 13); the empty digest of L2-S1.
theorem test_sha256_empty :
    seen 0x10 32 (sha256At toy (inFlight (desc .sha256 0x18 0 0 0 0x10 0x20) [])) =
      some (int2be 32 0xe3b0c44298fc1c149afbf4c8996fb92427ae41e4649b934ca495991b7852b855, 0x2, 0x20) := by decide +kernel

/-- The serialized `IV` (42_sha256.md R170). -/
def ivb : Bytes := int2be 32 0x6a09e667bb67ae853c6ef372a54ff53a510e527f9b05688c1f83d9ab5be0cd19

theorem test_sha256Compress :
    seen 0x80 32 (sha256CompressAt toy (inFlight (desc .sha256Compress 0 64 64 32 0x80 0x20) (memWrite [] 64 ivb))) =
      some (int2be 32 0xda5698be17b9b46962335799779fbeca8ce5d491c0d26243bafef9ea1837a9d8, 0x2, 0x20) := by decide +kernel
theorem test_sha256Compress_in_place :
    seen 64 32 (sha256CompressAt toy (inFlight (desc .sha256Compress 0 64 64 32 64 0x20) (memWrite [] 64 ivb))) =
      some (ivb, 0x502, 0) := by decide +kernel

/-- The bytes `lo, lo+1, …`, `n` of them. -/
def rising (lo : Nat) : Nat → Bytes
  | 0 => []
  | n + 1 => BitVec.ofNat 8 lo :: rising (lo + 1) n

-- 95_test_vectors.md L2-H1.
theorem test_hmacSha256 :
    seen 0x80 32 (hmacSha256At toy (inFlight (desc .hmacSha256 64 0 0 64 0x80 0x20) (memWrite [] 0 (rising 0 64)))) =
      some (int2be 32 0x3499f163f48604c0b15ac89e4e7c66f314fb3b203b8ac2f564828e62f6be9d9d, 0x2, 0x20) := by decide +kernel
theorem test_hmacSha256_short_key :
    seen 0x80 1 (hmacSha256At toy (inFlight (desc .hmacSha256 64 0 0 20 0x80 0x20) [])) = some ([0], 0x302, 0) := by
  decide +kernel

/-- The "hello" record of 95_test_vectors.md L2-C1. -/
def helloRecord : Bytes :=
  int2be 32 0x853502adb146c08b18789ee7dff693f261e5f1caede5d96bf9f1111b8274295d ++ rising 0xa0 16 ++
    int2be 16 0xc4cfcdc8aaa8aaa4aaa8aaacaaa8aac7

-- 95_test_vectors.md L2-C1, L2-C2.
theorem test_cbcEncrypt :
    seen 0x100 64 (cbcEncryptAt toy
      { inFlight (desc .cbcEncrypt 96 5 0 96 0x100 64)
          (memWrite (memWrite [] 0 (rising 0 96)) 96 [0x68, 0x65, 0x6c, 0x6c, 0x6f]) with
        rng := [some 0xa0a1a2a3a4a5a6a7a8a9aaabacadaeaf] }) =
      some (helloRecord, 0x2, 64) := by decide +kernel
theorem test_cbcDecrypt :
    seen 0x100 5 (cbcDecryptAt toy (inFlight (desc .cbcDecrypt 96 64 0 96 0x100 15)
      (memWrite (memWrite [] 0 (rising 0 96)) 96 helloRecord))) =
      some ([0x68, 0x65, 0x6c, 0x6c, 0x6f], 0x2, 5) := by decide +kernel

/-- A record under the same key whose MAC is valid and whose padding is a short run. -/
def shortRunRecord : Bytes :=
  int2be 32 0x8e7dc116a0e606f30b409242fb9099b44136877dc259257c08e55b15a412d1c8 ++ rising 0xa0 16 ++
    int2be 16 0xa1a3a1a7a1a3a1afa1a3a1a7a1a0a3af

theorem test_cbcDecrypt_bad_padding :
    recordAuthentic (rising 0 96) shortRunRecord = true ∧ decryptRecord toy (rising 0 96) shortRunRecord = none := by
  have h : recordAuthentic (rising 0 96) shortRunRecord = true := by decide +kernel
  refine ⟨h, ?_⟩
  rw [decryptRecord, if_pos h]
  decide +kernel

/-! ## The check order (95_test_vectors.md L2-R) -/

theorem test_check_order :
    checks toy .sha256 false (desc .sha256 0x1F0 0x20 0 0 0 0x1F) = some .length ∧
    checks toy .sha256 false (desc .sha256 0 3 0 0 0x1E1 0x20) = some .bounds ∧
    checks toy .sha256 false (desc .sha256 0xFFFFFFF0 0x20 0 0 0 0x20) = some .bounds ∧
    checks toy .sha256 false (desc .sha256 0 0x11 0 0 0x10 0x20) = some .overlap ∧
    checks toy .sha256 false (desc .sha256 0x200 0 0 0 0 0x20) = none ∧
    checks toy .cbcDecrypt false (desc .cbcDecrypt 0 63 0 95 0 0) = some .format := by decide

/-! ## The host port (95_test_vectors.md L2-R) -/

theorem test_word_write_lanes :
    memRead (portAccess toy (.write 0x10040 .word 0x04030201) State.reset).2.dbuf 0x40 4 = [1, 2, 3, 4] := by
  decide +kernel
theorem test_half_read :
    (portAccess toy (.read 0x10042 .half) { State.reset with dbuf := memWrite [] 0x40 [1, 2, 3, 4] }).1 =
      ⟨.okay, 0x0403⟩ := by decide +kernel
theorem test_refused_reads :
    (portAccess toy (.read 0x010 .byte) State.reset).1 = ⟨.slverr, 0⟩ ∧
    (portAccess toy (.read 0x012 .word) State.reset).1 = ⟨.slverr, 0⟩ ∧
    (portAccess toy (.read 0x1000 .word) State.reset).1 = ⟨.slverr, 0⟩ ∧
    (portAccess toy (.read 0x10041 .half) State.reset).1 = ⟨.slverr, 0⟩ ∧
    (portAccess toy (.read 0x10200 .byte) State.reset).1 = ⟨.slverr, 0⟩ ∧
    (portAccess toy (.read 0x101FF .byte) State.reset).1 = ⟨.okay, 0⟩ ∧
    (portAccess toy (.read 0x034 .word) State.reset).1 = ⟨.okay, 0⟩ := by decide
theorem test_overrun :
    statusWord (portAccess toy (.write 0x014 .word 0x10) (inFlight (desc .sha256 0 0 0 0 0 32) [])).2 = 0x9 := by decide
theorem test_status_clear :
    statusWord (portAccess toy (.write 0x010 .word 0x1e)
      { State.reset with done := true, fatal := true, errcode := 8 }).2 = 0x804 := by decide
theorem test_soft_reset_keeps_fatal :
    statusWord (portAccess toy (.write 0x00C .word 0x3)
      { State.reset with irqEn := true, fatal := true, errcode := 8 }).2 = 0x4 := by decide
theorem test_soft_reset_clears_irq_enable :
    (portAccess toy (.write 0x00C .word 0x3) State.reset).2.irqEn = false := by decide

/-! ## A placed command runs as the next step -/

-- Only the admitted master reaches the port, and BASE is taken off its address; only IRQ_LINE carries the interrupt.
theorem test_bus_access :
    reach toy 1 (.read 0x40000010 .word) = some (.read 0x010 .word) ∧ reach toy 2 (.read 0x40000010 .word) = none ∧
    reach toy 1 (.write 0x3FFFFFFF .byte 0) = none := by decide
theorem test_irq_line :
    irqInput toy 7 { State.reset with done := true, irqEn := true } = true ∧
    irqInput toy 6 { State.reset with done := true, irqEn := true } = false := by decide

theorem test_placed_command : step (State.reset.withFetchWord 32 0x10) = exec .sha256 (accept 0x10 State.reset) := rfl
theorem test_placed_illegal_word :
    seen 0 0 (step (State.reset.withFetchWord 32 0x110)) = some ([], 0x102, 0) := by decide

/-! ## States that meet the hypotheses of the statements -/

theorem toNat_ofNat32 {n : Nat} (h : n < 2 ^ 32) : (BitVec.ofNat 32 n : Word).toNat = n := by
  rw [BitVec.toNat_ofNat, Nat.mod_eq_of_lt h]

theorem memRead_empty : ∀ a n : Nat, memRead [] a n = List.replicate n 0x00
  | _, 0 => rfl
  | a, n + 1 => by rw [memRead, memRead_empty (a + 1) n]; rfl

/-- What is known of LP and BUF_BYTES. -/
theorem sizes : 97 ≤ LP ∧ LP ≤ 1024 ∧ 4 * LP ≤ BUF ∧ 512 ≤ BUF ∧ BUF ≤ 65536 :=
  ⟨Config.lp_ge, Config.lp_le, Config.buf_ge_lp, Config.buf_ge_512, Config.buf_le⟩

/-- A small source region in a block. -/
theorem small_region {a n : Nat} (h : a + n ≤ 512) : (BitVec.ofNat 32 a : Word).toNat + n ≤ BUF := by
  have := Config.buf_ge_512
  rw [toNat_ofNat32 (by omega)]
  exact le_trans h this

/-- The three operands of a two-operand command, one after the other. -/
def opDesc (i : Instr) : Descriptor := desc i 0 LP LP LP (2 * LP) LP

/-- The two operands `x` and `y` in place. -/
def opMem (x y : Nat) : Memory := memWrite (memWrite [] 0 (int2be LP x)) LP (int2be LP y)

theorem opDesc_ok (i : Instr) : TwoElementOperands (opDesc i) := by
  obtain ⟨h1, h2, h3, h4, h5⟩ := sizes
  have e1 : (BitVec.ofNat 32 LP : Word).toNat = LP := toNat_ofNat32 (by omega)
  have e2 : (BitVec.ofNat 32 (2 * LP) : Word).toNat = 2 * LP := toNat_ofNat32 (by omega)
  have e0 : (BitVec.ofNat 32 0 : Word).toNat = 0 := rfl
  unfold TwoElementOperands DestOk SourceOk Fits opDesc desc
  rw [e0, e1, e2]
  refine ⟨⟨le_rfl, ?_⟩, ⟨rfl, ?_, shareNoByte_of_apart ?_⟩, rfl, ?_, shareNoByte_of_apart ?_⟩ <;> omega

theorem opMem_ints (i : Instr) (x y : Nat) :
    intAt (inFlight (opDesc i) (opMem x y)) (opDesc i).src0Addr = x % 256 ^ LP ∧
    intAt (inFlight (opDesc i) (opMem x y)) (opDesc i).src1Addr = y % 256 ^ LP := by
  obtain ⟨h1, h2, h3, h4, h5⟩ := sizes
  have e1 : (BitVec.ofNat 32 LP : Word).toNat = LP := toNat_ofNat32 (by omega)
  have w1 : Memory.wf (memWrite [] 0 (int2be LP x)) = true := wf_memWrite rfl _ _
  have r0 := memRead_memWrite (m := []) (a := 0) (bs := int2be LP x) rfl
  have r1 := memRead_memWrite (a := LP) (bs := int2be LP y) w1
  rw [int2be_length] at r0 r1
  constructor
  · show be2int (memRead (opMem x y) 0 LP) = _
    rw [opMem, memRead_memWrite_disjoint (by omega), r0, be2int_int2be]
  · show be2int (memRead (opMem x y) (BitVec.ofNat 32 LP : Word).toNat LP) = _
    rw [e1, opMem, r1, be2int_int2be]

theorem lt_width {x : Nat} (h : x ≤ Config.params.p) : x % 256 ^ LP = x :=
  Nat.mod_eq_of_lt (lt_of_le_of_lt h Config.params.p_lt_pow)

theorem params_pos : 1 < Config.params.p ∧ 2 ≤ Config.params.q ∧ Config.params.q < Config.params.p :=
  ⟨Config.one_lt_p, Config.params_admissible.q_ge_two, Config.params_admissible.q_lt_p⟩

theorem witness_listed_words :
    (ListedIllegal 0x80000010 ∧ ListedIllegal 0x100 ∧ ListedIllegal 0x00 ∧ ListedIllegal 0x05 ∧ ListedIllegal 0x0F ∧
      ListedIllegal 0x12 ∧ ListedIllegal 0x1F ∧ ListedIllegal 0x21 ∧ ListedIllegal 0x2F ∧ ListedIllegal 0x32 ∧
      ListedIllegal 0xFF) ∧
    (¬ListedIllegal 0x04 ∧ ¬ListedIllegal 0x10 ∧ ¬ListedIllegal 0x11 ∧ ¬ListedIllegal 0x20 ∧ ¬ListedIllegal 0x31) ∧
    Ready ⟨0x100, 0, 0, 0, 0, 0, 0⟩ { inFlight ⟨0x100, 0, 0, 0, 0, 0, 0⟩ [] with turns := [.engine] } ∧
    { inFlight ⟨0x100, 0, 0, 0, 0, 0, 0⟩ [] with fatal := true }.fatal = true := by
  refine ⟨?_, ?_, ⟨rfl, rfl⟩, rfl⟩ <;> simp [ListedIllegal]

theorem witness_step_runs :
    { inFlight (desc .sha256 0 0 0 0 0 32) [] with turns := [.engine] }.busy = true ∧
    decode (desc .sha256 0 0 0 0 0 32).cmd = .ok .sha256 := by decide

theorem witness_step_turns :
    State.reset.turns = [] ∧ State.reset.busy = false ∧ (inFlight (desc .sha256 0 0 0 0 0 32) []).turns = [] ∧
    { State.reset with turns := [.host (.read 0x010 .word)] }.turns = [.host (.read 0x010 .word)] ∧
    { State.reset with turns := [.bus 1 (.read 0x40000010 .word)] }.turns = [.bus 1 (.read 0x40000010 .word)] ∧
    { State.reset with turns := [.bus 1 (.write 0x40000010 .word 2)] }.turns = [.bus 1 (.write 0x40000010 .word 2)] ∧
    { State.reset with turns := [.reset] }.turns = [.reset] ∧
    (inFlight ⟨0x100, 0, 0, 0, 0, 0, 0⟩ []).busy = true ∧ ListedIllegal 0x100 ∧ ListedIllegal 0x32 ∧ ListedIllegal 0 ∧
    { State.reset with turns := [.engine] }.busy = false := by
  refine ⟨?_, ?_, ?_, ?_, ?_, ?_, ?_, ?_, ?_, ?_, ?_, ?_⟩ <;> first | decide | simp [ListedIllegal]

-- One descriptor for each clause, at the boundary of each check.
theorem witness_first_failing_check :
    FormatBad .cbcDecrypt (desc .cbcDecrypt 0 63 0 95 0 0) ∧ FormatBad .cbcDecrypt (desc .cbcDecrypt 0 65 0 95 0 0) ∧
    (¬FormatBad .cbcDecrypt (desc .cbcDecrypt 0 64 64 96 160 14) ∧
      LengthBad .cbcDecrypt (desc .cbcDecrypt 0 64 64 96 160 14)) ∧
    (¬LengthBad .sha256 (desc .sha256 0xFFFFFFFF 1 0 0 0 32) ∧ BoundsBad .sha256 (desc .sha256 0xFFFFFFFF 1 0 0 0 32)) ∧
    (¬FormatBad .sha256 (desc .sha256 0 1 0 0 0 32) ∧ ¬LengthBad .sha256 (desc .sha256 0 1 0 0 0 32) ∧
      ¬BoundsBad .sha256 (desc .sha256 0 1 0 0 0 32) ∧ OverlapBad .sha256 (desc .sha256 0 1 0 0 0 32)) := by
  obtain ⟨h1, h2, h3, h4, h5⟩ := sizes
  refine ⟨?_, ?_, ⟨?_, ?_⟩, ⟨?_, ?_⟩, ?_, ?_, ?_, ?_⟩
  · simp [FormatBad, desc]
  · simp [FormatBad, desc]
  · simp [FormatBad, desc]
  · simp [LengthBad, FixedLengthsHold, outputMax, desc]
  · simp [LengthBad, FixedLengthsHold, outputMax, desc]
  · simp [BoundsBad, sourceList, outputMax, desc]
    omega
  · simp [FormatBad]
  · simp [LengthBad, FixedLengthsHold, outputMax, desc]
  · simp [BoundsBad, sourceList, outputMax, desc]
    omega
  · refine ⟨(0, 1), by simp [sourceList, desc], fun hs => hs 0 ?_ ?_⟩ <;> simp [Inside, outputMax, desc]

theorem witness_two_operands (i : Instr) :
    Ready (opDesc i) (inFlight (opDesc i) (opMem 0 1)) ∧ TwoElementOperands (opDesc i) ∧
    intAt (inFlight (opDesc i) (opMem 0 1)) (opDesc i).src0Addr < Config.params.p ∧
    intAt (inFlight (opDesc i) (opMem 0 1)) (opDesc i).src1Addr = 1 ∧ 1 < Config.params.q := by
  obtain ⟨h1, h2, h3⟩ := params_pos
  obtain ⟨e0, e1⟩ := opMem_ints i 0 1
  rw [e0, e1, lt_width (by omega), lt_width (by omega)]
  exact ⟨⟨rfl, rfl⟩, opDesc_ok i, by omega, rfl, by omega⟩

-- The largest operands in range, and the smallest out of range, for each clause.
theorem witness_range (i : Instr) :
    intAt (inFlight (opDesc i) (opMem (Config.params.p - 1) (Config.params.q - 1))) (opDesc i).src0Addr <
      Config.params.p ∧
    intAt (inFlight (opDesc i) (opMem (Config.params.p - 1) (Config.params.q - 1))) (opDesc i).src1Addr <
      Config.params.q ∧
    intAt (inFlight (opDesc i) (opMem Config.params.p 0)) (opDesc i).src0Addr = Config.params.p ∧
    intAt (inFlight (opDesc i) (opMem 0 0)) (opDesc i).src1Addr = 0 ∧
    intAt (inFlight (opDesc i) (opMem 0 Config.params.q)) (opDesc i).src1Addr = Config.params.q ∧
    intAt (inFlight (opDesc i) (opMem 0 Config.params.p)) (opDesc i).src1Addr = Config.params.p := by
  obtain ⟨h1, h2, h3⟩ := params_pos
  simp only [opMem_ints]
  rw [lt_width (by omega), lt_width (by omega), lt_width le_rfl, lt_width (Nat.zero_le _), lt_width h3.le]
  omega

/-- A GEN_EXP in flight, with these answers to come. -/
def genState (rng : List (Option Nat)) : State := { inFlight (desc .genExp 0 0 0 0 0 LP) [] with rng := rng }

theorem gen_dest : DestOk (desc .genExp 0 0 0 0 0 LP) LP := by
  obtain ⟨h1, h2, h3, h4, h5⟩ := sizes
  have e1 : (BitVec.ofNat 32 LP : Word).toNat = LP := toNat_ofNat32 (by omega)
  refine ⟨e1.ge, ?_⟩
  show 0 + LP ≤ BUF
  omega

theorem witness_drawn_exponent :
    Ready (desc .genExp 0 0 0 0 0 LP) (genState [some 0]) ∧ DestOk (desc .genExp 0 0 0 0 0 LP) LP ∧
    1 < Config.params.q ∧ (genState [some 0]).rng = some (1 - 1) :: [] ∧
    1 ≤ Config.params.q - 1 ∧ Config.params.q - 1 < Config.params.q := by
  obtain ⟨h1, h2, h3⟩ := params_pos
  exact ⟨⟨rfl, rfl⟩, gen_dest, by omega, rfl, by omega, by omega⟩

theorem gen_success : ∃ t, exec .genExp (genState [some 0]) = .next t ∧ t.errcode = 0 :=
  ⟨_, runDrawing_ok rfl (genExp_checks (s := genState [some 0]) rfl gen_dest) rfl, rfl⟩

theorem gen_failure : exec .genExp (genState [none]) = .next (entropyState { genState [] with draws := 1 }) := by
  rw [exec_genExp, runDrawing_fail rfl (genExp_checks (s := genState [none]) rfl gen_dest) rfl, complete_entropy_eq]
  rfl

theorem witness_gen_never :
    ∃ t, Memory.wf (genState [some 0]).dbuf = true ∧ (genState [some 0]).latched = some (desc .genExp 0 0 0 0 0 LP) ∧
      exec .genExp (genState [some 0]) = .next t ∧ t.errcode = 0 := by
  obtain ⟨t, h⟩ := gen_success
  exact ⟨t, rfl, rfl, h⟩

/-- A descriptor of CBC_ENCRYPT of the empty string, with a destination that is wide enough for GEN_EXP too. -/
def encDesc : Descriptor := desc .cbcEncrypt 0 0 0 96 96 LP

theorem encDesc_ok : DestOk encDesc 64 ∧ SourceOk encDesc.src0Addr encDesc.src0Len 0 encDesc 64 ∧
    SourceOk encDesc.src1Addr encDesc.src1Len 96 encDesc 64 ∧ DestOk encDesc LP := by
  obtain ⟨h1, h2, h3, h4, h5⟩ := sizes
  have e1 : (BitVec.ofNat 32 LP : Word).toNat = LP := toNat_ofNat32 (by omega)
  have e2 : (BitVec.ofNat 32 96 : Word).toNat = 96 := rfl
  have e0 : (BitVec.ofNat 32 0 : Word).toNat = 0 := rfl
  unfold DestOk SourceOk Fits encDesc desc
  rw [e0, e1, e2]
  refine ⟨⟨?_, ?_⟩, ⟨rfl, ?_, shareNoByte_of_apart ?_⟩, ⟨rfl, ?_, shareNoByte_of_apart ?_⟩, le_rfl, ?_⟩ <;> omega

/-- A CBC_ENCRYPT in flight, with these answers to come. -/
def encState (rng : List (Option Nat)) : State := { inFlight encDesc [] with rng := rng }

theorem witness_failed_draw :
    Ready encDesc (encState [none]) ∧ (encState [none]).rng = none :: [] ∧ DestOk encDesc LP ∧
    DestOk encDesc (48 + 16 * (encDesc.src0Len.toNat / 16 + 1)) ∧
    SourceOk encDesc.src0Addr encDesc.src0Len encDesc.src0Len.toNat encDesc
      (48 + 16 * (encDesc.src0Len.toNat / 16 + 1)) ∧
    SourceOk encDesc.src1Addr encDesc.src1Len 96 encDesc (48 + 16 * (encDesc.src0Len.toNat / 16 + 1)) := by
  obtain ⟨h1, h2, h3, h4⟩ := encDesc_ok
  exact ⟨⟨rfl, rfl⟩, rfl, h4, h1, h2, h3⟩

theorem witness_encrypt :
    (List.replicate 16 (0x00 : Byte)).length = 16 ∧
    (encState [some 0]).rng = some (be2int (List.replicate 16 (0x00 : Byte))) :: [] ∧
    Ready encDesc (encState [some 0]) := ⟨rfl, rfl, rfl, rfl⟩

theorem enc_success : ∃ t, exec .cbcEncrypt (encState [some 0]) = .next t ∧ t.errcode = 0 := by
  obtain ⟨h1, h2, h3, _⟩ := encDesc_ok
  exact ⟨_, runDrawing_ok rfl (encrypt_checks (s := encState [some 0]) rfl h1 h2 h3) rfl, rfl⟩

theorem witness_ladder : 1 < toy.p ∧ 4 < toy.p ∧ 255 < 2 ^ toy.ladderBits ∧ 4 ^ toy.q % toy.p = 1 ∧ 1 < toy.q := by
  decide +kernel

theorem witness_inverse_law :
    operand0 toy (desc .modexp 0 1 1 1 2 1) (memWrite [] 0 [4, 3]) ^ toy.q % toy.p = 1 ∧
    modexpResult toy (desc .modexp 0 1 1 1 2 1) (memWrite [] 0 [4, 3]) = .ok [18] ∧
    modexpInvResult toy (desc .modexp 0 1 1 1 2 1) (memWrite [] 0 [4, 3]) = .ok [9] ∧
    operand0 toy (desc .modmul 0 1 1 1 2 1) (memWrite [] 0 [18, 9]) = be2int [18] ∧
    operand1 toy (desc .modmul 0 1 1 1 2 1) (memWrite [] 0 [18, 9]) = be2int [9] := by decide +kernel

theorem hash_dest (i : Instr) (a0 l0 a1 l1 : Nat) : DestOk (desc i a0 l0 a1 l1 96 32) 32 :=
  ⟨le_rfl, small_region (by omega)⟩

theorem hash_source {a l : Nat} (i : Instr) (a0 l0 a1 l1 : Nat) (h : a + l ≤ 96) :
    SourceOk (BitVec.ofNat 32 a) (BitVec.ofNat 32 l) l (desc i a0 l0 a1 l1 96 32) 32 := by
  refine ⟨toNat_ofNat32 (by omega), small_region (by omega), shareNoByte_of_apart ?_⟩
  rw [toNat_ofNat32 (by omega)]
  exact .inr h

theorem witness_hashes :
    (Ready (desc .sha256 0 3 0 0 96 32) (inFlight (desc .sha256 0 3 0 0 96 32) []) ∧
      DestOk (desc .sha256 0 3 0 0 96 32) 32 ∧ SourceOk 0 3 3 (desc .sha256 0 3 0 0 96 32) 32) ∧
    (DestOk (desc .sha256Compress 0 64 64 32 96 32) 32 ∧ SourceOk 0 64 64 (desc .sha256Compress 0 64 64 32 96 32) 32 ∧
      SourceOk 64 32 32 (desc .sha256Compress 0 64 64 32 96 32) 32) ∧
    DestOk (desc .hmacSha256 64 3 0 64 96 32) 32 ∧ SourceOk 64 3 3 (desc .hmacSha256 64 3 0 64 96 32) 32 ∧
      SourceOk 0 64 64 (desc .hmacSha256 64 3 0 64 96 32) 32 :=
  ⟨⟨⟨rfl, rfl⟩, hash_dest _ _ _ _ _, hash_source (a := 0) (l := 3) _ _ _ _ _ (by omega)⟩,
    ⟨hash_dest _ _ _ _ _, hash_source (a := 0) (l := 64) _ _ _ _ _ (by omega),
      hash_source (a := 64) (l := 32) _ _ _ _ _ (by omega)⟩,
    hash_dest _ _ _ _ _, hash_source (a := 64) (l := 3) _ _ _ _ _ (by omega),
    hash_source (a := 0) (l := 64) _ _ _ _ _ (by omega)⟩

theorem sha_success :
    ∃ t, exec .sha256 (inFlight (desc .sha256 0 3 0 0 96 32) []) = .next t ∧ t.errcode = 0 :=
  ⟨_, runCommand_ok rfl (sha256_checks (s := inFlight (desc .sha256 0 3 0 0 96 32) []) rfl (hash_dest _ _ _ _ _)
    (hash_source (a := 0) (l := 3) _ _ _ _ _ (by omega))), rfl⟩

theorem witness_compression : (List.replicate 32 (0x00 : Byte)).length = 32 ∧ (List.replicate 64 (0x00 : Byte)).length = 64 :=
  ⟨rfl, rfl⟩

theorem witness_padding : BUF ≤ BUF ∧ 0 ≤ BUF := ⟨le_rfl, Nat.zero_le _⟩

/-! A record in place: zero key and IV, the empty plaintext. -/

/-- The record CBC_ENCRYPT makes of `X` already padded, under the zero key and IV. -/
def recordOf (X : Bytes) : Bytes :=
  let iv := List.replicate 16 0x00
  let C := cbcEnc Config.params (List.replicate 32 0x00) iv X
  hmac (List.replicate 64 0x00) (iv ++ C) ++ (iv ++ C)

/-- A CBC_DECRYPT of the 64 bytes at 0 under the zero key at 64. -/
def decDesc : Descriptor := desc .cbcDecrypt 0 64 64 96 160 15

theorem decDesc_ok : 64 ≤ decDesc.src0Len.toNat ∧ (decDesc.src0Len.toNat - 48) % 16 = 0 ∧
    DestOk decDesc (decDesc.src0Len.toNat - 49) ∧
    SourceOk decDesc.src0Addr decDesc.src0Len decDesc.src0Len.toNat decDesc (decDesc.src0Len.toNat - 49) ∧
    SourceOk decDesc.src1Addr decDesc.src1Len 96 decDesc (decDesc.src0Len.toNat - 49) := by
  refine ⟨by decide, by decide, ⟨by decide, ?_⟩, ⟨rfl, ?_, shareNoByte_of_apart ?_⟩, ⟨rfl, ?_, shareNoByte_of_apart ?_⟩⟩
  · exact small_region (a := 160) (n := 15) (by omega)
  · exact small_region (a := 0) (n := 64) (by omega)
  · exact .inr (by decide)
  · exact small_region (a := 64) (n := 96) (by omega)
  · exact .inr (by decide)

theorem recordOf_facts {X : Bytes} (hX : X.length = 16) :
    (recordOf X).length = 64 ∧ (recordOf X).take 32 = hmac (List.replicate 64 0x00) ((recordOf X).drop 32) ∧
    cbcDec Config.params (List.replicate 32 0x00) (((recordOf X).drop 32).take 16) ((recordOf X).drop 48) = X := by
  have hP := Config.params_admissible
  have hl : (cbcEnc Config.params (List.replicate 32 0x00) (List.replicate 16 0x00) X).length = 16 := by
    rw [cbcEnc_length hP (by simp) (by simp) (by omega), hX]
  have hd : (recordOf X).drop 32 = List.replicate 16 0x00 ++
      cbcEnc Config.params (List.replicate 32 0x00) (List.replicate 16 0x00) X := List.drop_left' (hmac_length _ _)
  have hd' : (recordOf X).drop 48 = cbcEnc Config.params (List.replicate 32 0x00) (List.replicate 16 0x00) X := by
    rw [show 48 = 32 + 16 from rfl, ← List.drop_drop, hd, List.drop_left' (by simp)]
  refine ⟨by simp only [recordOf, List.length_append, hmac_length, List.length_replicate, hl], ?_, ?_⟩
  · rw [hd]
    exact List.take_left' (hmac_length _ _)
  · rw [hd', hd, List.take_left' (by simp), cbcDec_cbcEnc hP (by simp) (by simp) (by omega)]

/-- A record in flight. -/
def decState (R : Bytes) : State := inFlight decDesc (memWrite [] 0 R)

theorem decState_bytes {R : Bytes} (hl : R.length = 64) :
    bytesAt (decState R) decDesc.src0Addr decDesc.src0Len.toNat = R ∧
    bytesAt (decState R) decDesc.src1Addr 96 = List.replicate 96 0x00 := by
  constructor
  · show memRead (memWrite [] 0 R) 0 64 = R
    rw [← hl]
    exact memRead_memWrite rfl
  · show memRead (memWrite [] 0 R) 64 96 = List.replicate 96 0x00
    rw [memRead_memWrite_disjoint (by omega), memRead_empty]

/-- The good record, and one whose MAC matches and whose padding byte is 0. -/
def goodRecord : Bytes := recordOf (pad16 [])
def badPadding : Bytes := recordOf (List.replicate 16 0x00)

theorem witness_decrypt :
    Ready decDesc (decState goodRecord) ∧
    (let K := bytesAt (decState goodRecord) decDesc.src1Addr 96
      let R := bytesAt (decState goodRecord) decDesc.src0Addr decDesc.src0Len.toNat
      R.take 32 = hmac (K.drop 32) (R.drop 32) ∧
      unpad16 (cbcDec Config.params (K.take 32) ((R.drop 32).take 16) (R.drop 48)) = some []) ∧
    (let K := bytesAt (decState badPadding) decDesc.src1Addr 96
      let R := bytesAt (decState badPadding) decDesc.src0Addr decDesc.src0Len.toNat
      R.take 32 = hmac (K.drop 32) (R.drop 32) ∧
      unpad16 (cbcDec Config.params (K.take 32) ((R.drop 32).take 16) (R.drop 48)) = none) := by
  obtain ⟨l1, m1, d1⟩ := recordOf_facts (X := pad16 []) rfl
  obtain ⟨l2, m2, d2⟩ := recordOf_facts (X := List.replicate 16 0x00) rfl
  obtain ⟨a1, a2⟩ := decState_bytes l1
  obtain ⟨b1, b2⟩ := decState_bytes l2
  have k1 : (List.replicate 96 (0x00 : Byte)).drop 32 = List.replicate 64 0x00 := List.drop_replicate
  have k2 : (List.replicate 96 (0x00 : Byte)).take 32 = List.replicate 32 0x00 := List.take_replicate
  refine ⟨⟨rfl, rfl⟩, ?_, ?_⟩
  · simp only [goodRecord, a1, a2, k1, k2, d1]
    exact ⟨m1, by decide⟩
  · simp only [badPadding, b1, b2, k1, k2, d2]
    exact ⟨m2, by decide⟩

/-- The two records decrypt as the statements say. -/
theorem decryptRecord_of {K R : Bytes} (hK : K.length = 96) (_ : R.length = 64)
    (hm : R.take 32 = hmac (K.drop 32) (R.drop 32)) :
    decryptRecord Config.params K R =
      unpad16 (cbcDec Config.params (K.take 32) ((R.drop 32).take 16) (R.drop 48)) := by
  have hs : ∀ (x : Bytes) (a : Byte), a = 0 → (xorBytes x x).foldl (· ||| ·) a = 0 := by
    intro x
    induction x with
    | nil => exact fun a h => h
    | cons b x ih =>
      intro a h
      simp only [xorBytes, List.zipWith_cons_cons, List.foldl_cons]
      exact ih _ (by rw [h]; simp)
  have e : (R.drop 32).take 16 ++ R.drop 48 = R.drop 32 := by
    rw [show 48 = 32 + 16 from rfl, ← List.drop_drop, List.take_append_drop]
  have ha : recordAuthentic K R = true := by
    rw [recordAuthentic, recordMacField, recordMac, recordIv, recordCiphertext, e, hm, macKey,
      List.take_of_length_le (by simp [hK]), macEqual, decide_eq_true_iff]
    exact hs _ _ rfl
  rw [decryptRecord, if_pos ha]
  rfl

/-- A list is not its own complement. -/
theorem map_not_ne : ∀ {l : Bytes}, l ≠ [] → l.map (fun b => ~~~b) ≠ l
  | b :: l, _, h => by
    rw [List.map_cons] at h
    injection h with h _
    have := congrArg (fun x => x.getLsbD 0) h
    simp at this

/-- A read in two parts. -/
theorem memRead_add (D : Memory) : ∀ a x y : Nat, memRead D a (x + y) = memRead D a x ++ memRead D (a + x) y
  | _, 0, y => by simp [memRead]
  | a, x + 1, y => by
    rw [Nat.succ_add, memRead, memRead_add D (a + 1) x y, memRead, List.cons_append, Nat.add_assoc, Nat.add_comm 1 x]

-- A record whose MAC field is the complement of its MAC.
theorem witness_mac_mismatch :
    ∃ D, let K := bytesAt (inFlight decDesc D) decDesc.src1Addr 96
      let R := bytesAt (inFlight decDesc D) decDesc.src0Addr decDesc.src0Len.toNat
      R.take 32 ≠ hmac (K.drop 32) (R.drop 32) := by
  have hmacl := hmac_length (List.replicate 64 0x00) (List.replicate 32 0x00)
  generalize hh : hmac (List.replicate 64 0x00) (List.replicate 32 0x00) = h at hmacl
  refine ⟨memWrite [] 0 (h.map fun b => ~~~b), ?_⟩
  have hl : (h.map fun b => ~~~b).length = 32 := by simpa using hmacl
  generalize hm : (h.map fun b => ~~~b) = m at hl
  have r0 : memRead (memWrite [] 0 m) 0 32 = m := by
    rw [← hl]
    exact memRead_memWrite rfl
  have k1 : (List.replicate 96 (0x00 : Byte)).drop 32 = List.replicate 64 0x00 := List.drop_replicate
  show (memRead (memWrite [] 0 m) 0 (32 + 32)).take 32 ≠ hmac ((memRead (memWrite [] 0 m) 64 96).drop 32)
    ((memRead (memWrite [] 0 m) 0 (32 + 32)).drop 32)
  rw [memRead_add, r0, List.take_left' hl, List.drop_left' hl, memRead_memWrite_disjoint (by omega),
    memRead_memWrite_disjoint (by omega), memRead_empty, memRead_empty, k1, hh, ← hm]
  refine map_not_ne ?_
  rintro rfl
  cases hmacl

theorem witness_round_trip :
    ∃ (t u : State) (L : Descriptor), Memory.wf (encState [some 0]).dbuf = true ∧
      exec .cbcEncrypt (encState [some 0]) = .next t ∧ t.errcode = 0 ∧
      (let R := bytesAt t encDesc.dstAddr t.outLen.toNat;
        Ready L u ∧ bytesAt u L.src0Addr R.length = R ∧
        bytesAt u L.src1Addr 96 = bytesAt (encState [some 0]) encDesc.src1Addr 96 ∧
        DestOk L (R.length - 49) ∧ SourceOk L.src0Addr L.src0Len R.length L (R.length - 49) ∧
        SourceOk L.src1Addr L.src1Len 96 L (R.length - 49)) := by
  obtain ⟨h1, h2, h3, _⟩ := encDesc_ok
  have hc := encrypt_checks (s := encState [some 0]) rfl h1 h2 h3
  have he := runDrawing_ok (s := encState [some 0]) (body := cbcEncryptResult Config.params) rfl hc rfl
  have hl := cbcEncryptResult_length Config.params_admissible (L := encDesc) (D := []) (n := 0) rfl
  have hn : recordLength encDesc.src0Len.toNat = 64 := rfl
  rw [hn] at hl
  generalize hr : encryptRecord Config.params (symmetricKey encDesc []) (drawnBlock 0) (source0 encDesc []) = R at hl
  have hR : bytesAt (complete encDesc (.ok R) (draw (encState [some 0])).2) encDesc.dstAddr
      (complete encDesc (.ok R) (draw (encState [some 0])).2).outLen.toNat = R := by
    show memRead (memWrite [] 96 R) 96 (BitVec.ofNat 32 R.length).toNat = R
    rw [toNat_ofNat32 (by omega)]
    exact memRead_memWrite rfl
  refine ⟨complete encDesc (.ok R) (draw (encState [some 0])).2, inFlight decDesc (memWrite [] 0 R), decDesc, rfl, ?_, rfl,
    ?_⟩
  · rw [exec_cbcEncrypt, he, ← hr]
    rfl
  · obtain ⟨_, _, d1, d2, d3⟩ := decDesc_ok
    simp only [hR, hl]
    refine ⟨⟨rfl, rfl⟩, ?_, ?_, d1, d2, d3⟩
    · show memRead (memWrite [] 0 R) 0 64 = R
      rw [← hl]
      exact memRead_memWrite rfl
    · show memRead (memWrite [] 0 R) 64 96 = memRead [] 0 96
      rw [memRead_memWrite_disjoint (by omega), memRead_empty, memRead_empty]

theorem witness_record_lengths :
    Config.params.Admissible ∧ (List.replicate 96 (0x00 : Byte)).length = 96 ∧
    (List.replicate 16 (0x00 : Byte)).length % 16 = 0 ∧ (List.replicate 32 (0x00 : Byte)).length = 16 * 2 ∧ 1 < 2 :=
  ⟨Config.params_admissible, rfl, rfl, rfl, by decide⟩

theorem witness_unpad :
    pad16 [] ≠ [] ∧ (pad16 []).length % 16 = 0 ∧
    ((pad16 []).getD ((pad16 []).length - 1) 0x00).toNat = 16 ∧
    ((List.replicate 16 (0x00 : Byte)).getD 15 0x00).toNat < 1 ∧
    ((List.replicate 15 (0x00 : Byte) ++ [0x11]).getD 15 0x00).toNat = 17 ∧
    ((List.replicate 14 (0x00 : Byte) ++ [0x03, 0x02]).getD (16 - 2) 0x00).toNat ≠ 2 := by decide

theorem witness_macs : (List.replicate 32 (0x00 : Byte)).length = 32 := rfl

theorem witness_frames :
    (∃ t, exec .modexp (inFlight (opDesc .modexp) (opMem 0 1)) = .next t ∧ t.errcode = 0) ∧
    (∃ t, exec .sha256 (inFlight (desc .sha256 0 3 0 0 96 32) []) = .next t ∧ t.errcode = 0) ∧
    (∃ t, exec .cbcEncrypt (encState [some 0]) = .next t ∧ t.errcode = 0) ∧
    (∃ t, exec .cbcDecrypt (decState goodRecord) = .next t ∧ t.errcode = 0) ∧
    (∃ t, exec .cbcDecrypt (decState badPadding) = .next t ∧ t.errcode ≠ 0) ∧
    (∃ t, exec .genExp (genState [none]) = .next t ∧ t.errcode ≠ 0) := by
  obtain ⟨h1, h2, h3⟩ := params_pos
  refine ⟨?_, sha_success, enc_success, ?_, ?_, ⟨_, gen_failure, by decide⟩⟩
  · have h := twoElement_checks (L := opDesc .modexp) (s := inFlight (opDesc .modexp) (opMem 0 1)) (.inl rfl) rfl
      (opDesc_ok .modexp)
    have e0 : operand0 Config.params (opDesc .modexp) (opMem 0 1) = 0 :=
      ((opMem_ints .modexp 0 1).1).trans (lt_width (Nat.zero_le _))
    refine ⟨_, runCommand_ok rfl h, ?_⟩
    show (complete (opDesc .modexp) (modexpResult Config.params (opDesc .modexp) (opMem 0 1)) _).errcode = 0
    rw [modexpResult, e0, if_neg (by omega)]
    rfl
  all_goals
    obtain ⟨d1, d2, d3, d4, d5⟩ := decDesc_ok
    obtain ⟨_, ⟨g1, g2⟩, b1, b2⟩ := witness_decrypt
  · have h : cbcDecryptResult Config.params decDesc (decState goodRecord).dbuf = .ok [] := by
      have := (decryptRecord_of (K := bytesAt (decState goodRecord) decDesc.src1Addr 96)
        (R := bytesAt (decState goodRecord) decDesc.src0Addr decDesc.src0Len.toNat) (memRead_length _ _ _)
        (memRead_length _ _ _) g1).trans g2
      unfold cbcDecryptResult
      rw [show decryptRecord Config.params (symmetricKey decDesc (decState goodRecord).dbuf)
        (source0 decDesc (decState goodRecord).dbuf) = some [] from this]
    refine ⟨_, runCommand_ok rfl (decrypt_checks (L := decDesc) (s := decState goodRecord) rfl d1 d2 d3 d4 d5), ?_⟩
    rw [h]
    rfl
  · have h : cbcDecryptResult Config.params decDesc (decState badPadding).dbuf = .err .decryptFailed := by
      have := (decryptRecord_of (K := bytesAt (decState badPadding) decDesc.src1Addr 96)
        (R := bytesAt (decState badPadding) decDesc.src0Addr decDesc.src0Len.toNat) (memRead_length _ _ _)
        (memRead_length _ _ _) b1).trans b2
      unfold cbcDecryptResult
      rw [show decryptRecord Config.params (symmetricKey decDesc (decState badPadding).dbuf)
        (source0 decDesc (decState badPadding).dbuf) = none from this]
    refine ⟨_, runCommand_ok rfl (decrypt_checks (L := decDesc) (s := decState badPadding) rfl d1 d2 d3 d4 d5), ?_⟩
    rw [h]
    decide

theorem witness_inputs :
    ∃ t, exec .sha256 (inFlight (desc .sha256 0 3 0 0 96 32) []) = .next t ∧
      (∀ r ∈ sourceList .sha256 (desc .sha256 0 3 0 0 96 32), ∀ a, Inside r.1 r.2 a →
        readByte (memWrite [] 200 [1]) a = readByte [] a) ∧
      Memory.wf (memWrite [] 200 [1]) = true ∧ readByte (memWrite [] 200 [1]) 200 ≠ readByte [] 200 ∧
      { inFlight (desc .sha256 0 3 0 0 96 32) [] with irqEn := true } ≠ inFlight (desc .sha256 0 3 0 0 96 32) [] := by
  obtain ⟨t, h, _⟩ := sha_success
  refine ⟨t, h, ?_, rfl, by decide, by decide⟩
  intro r hr a ha
  simp only [sourceList, List.mem_singleton] at hr
  subst hr
  have : a < 3 := by
    have := ha.2
    simp [desc] at this
    omega
  exact readByte_memWrite_outside (by omega)

theorem coherent_reset : Coherent State.reset :=
  ⟨rfl, by simp [State.reset], by decide, by simp [State.reset], by simp [State.reset], rfl, rfl⟩

theorem coherent_gen : Coherent (genState [none]) :=
  ⟨rfl, by rintro L h; cases h; exact ⟨rfl, rfl, rfl, rfl⟩, by decide, by intro h; exact absurd rfl h,
    by intro h; exact absurd h (by decide), rfl, rfl⟩

-- The engine's turn, with a draw that fails.
theorem witness_steps :
    Coherent { genState [none] with turns := [.engine] } ∧
    (∃ t, step { genState [none] with turns := [.engine] } = .next t ∧ t.fatal = true ∧ t.busy = false) ∧
    { genState [none] with turns := [.engine] }.fatal = false ∧
    (∃ t, step { State.reset with fatal := true, turns := [.reset] } = .next t ∧ t.fatal = false) ∧
    (∃ t, step { genState [none] with turns := [.host (.read 0x010 .word)] } = .next t ∧ t.busy = true) := by
  refine ⟨?_, ⟨_, gen_failure, rfl, rfl⟩, rfl, ⟨_, rfl, rfl⟩, ⟨_, rfl, rfl⟩⟩
  have h := coherent_gen
  exact ⟨h.1, h.2, h.3, h.4, h.5, h.6, h.7⟩

theorem witness_registers :
    State.reset.busy = false ∧ (genState []).busy = true ∧ (0xFFC < 0x1000 ∧ 0xFFC % 4 = 0) ∧ 0x034 ≤ 0xFFC ∧
    (0x008 < 0x00C ∧ 0x030 ≤ 0x030) ∧ (0x3 : Word).getLsbD 0 = true ∧ (0x2 : Word).getLsbD 0 = false := by decide

theorem witness_permitted :
    Permitted toy 0xFFC .word ∧ ¬Permitted toy 0x1000 .word ∧ ¬Permitted toy 0xFFE .word ∧ ¬Permitted toy 0x010 .half ∧
    Permitted toy 0x10000 .word ∧ Permitted toy 0x101FF .byte ∧ ¬Permitted toy 0x101FF .half ∧
    ¬Permitted toy 0x10200 .byte := by
  simp [Permitted, widthBytes, toy]

theorem witness_lanes :
    511 + 1 ≤ toy.bufBytes ∧ (510 % 2 = 0 ∧ 510 + 2 ≤ toy.bufBytes) ∧ (508 % 4 = 0 ∧ 508 + 4 ≤ toy.bufBytes) ∧
    (∀ w : Width, 508 % widthBytes w = 0 ∧ 508 + widthBytes w ≤ toy.bufBytes) ∧ Memory.wf State.reset.dbuf = true := by
  refine ⟨by decide, by decide, by decide, ?_, rfl⟩
  intro w
  cases w <;> decide

theorem witness_keys :
    Config.params.Admissible ∧ (List.replicate 96 (0xFF : Byte)).length = 96 ∧ 1 < Config.params.q ∧
    1 ≤ Config.params.q - 1 ∧ Config.params.q - 1 < Config.params.q ∧ BUF ≤ BUF := by
  obtain ⟨h1, h2, h3⟩ := params_pos
  exact ⟨Config.params_admissible, rfl, by omega, by omega, by omega, le_rfl⟩

-- A host that fits at the boundary, and one state or host for each check that fails.
theorem witness_boot :
    (LP = LP ∧ BUF ≤ BUF ∧ State.reset.busy = false ∧ State.reset.fatal = false) ∧ LP + 1 ≠ LP ∧ BUF < BUF + 1 ∧
    (genState []).busy = true ∧ { State.reset with fatal := true }.fatal = true :=
  ⟨⟨rfl, le_rfl, rfl, rfl⟩, Nat.succ_ne_self LP, Nat.lt_succ_self BUF, rfl, rfl⟩

theorem separate_three : Separate ⟨0, LP, 2 * LP, 3⟩ := by
  obtain ⟨h1, h2, h3, h4, h5⟩ := sizes
  refine ⟨?_, ?_, ?_, shareNoByte_of_apart ?_, shareNoByte_of_apart ?_, shareNoByte_of_apart ?_⟩ <;> simp only [] <;>
    omega

-- Calls with two different choices of offsets and polls, and the least public key that is no group element.
theorem witness_exchange :
    Separate ⟨0, LP, 2 * LP, 3⟩ ∧ Separate ⟨2 * LP, 0, LP, 0⟩ ∧ Free { State.reset with rng := [some 0] } ∧
    Free State.reset ∧ (List.replicate 96 (0xFF : Byte)).length = 96 ∧
    (int2be LP Config.params.p).length = LP ∧ be2int (int2be LP Config.params.p) = Config.params.p := by
  obtain ⟨h1, h2, h3, h4, h5⟩ := sizes
  refine ⟨separate_three, ⟨?_, ?_, ?_, shareNoByte_of_apart ?_, shareNoByte_of_apart ?_, shareNoByte_of_apart ?_⟩,
    ⟨rfl, rfl, rfl⟩, ⟨rfl, rfl, rfl⟩, rfl, int2be_length _ _, by rw [be2int_int2be, lt_width le_rfl]⟩ <;>
    simp only [] <;> omega

end Sys2Proof.Tests
end

/-! PROOFS. The host port and DBUF (20_memory.md R64, R67): which accesses the port refuses, and that DBUF stays as it is
while a command is in flight. -/

namespace Sys2Proof.Proofs.HostPort

open Sys2Proof.Machine Sys2Proof.Claims

/-! ## Which accesses are refused -/

/-- The window's base is a multiple of every width, so the offset and the byte of DBUF are aligned alike. -/
theorem window_aligned_iff {off : Nat} (w : Width) (h : 0x10000 ≤ off) :
    (off - 0x10000) % widthBytes w = 0 ↔ off % widthBytes w = 0 := by
  cases w <;> simp only [widthBytes] <;> omega

/-- The dispatch of R63 refuses exactly what the table of R61 does not permit. -/
theorem target_refused_iff {P : Params} {off : Nat} {w : Width} :
    target P off w = .refused ↔ ¬Permitted P off w := by
  by_cases hreg : off < 0x1000
  · simp [target, Permitted, hreg, show ¬0x10000 ≤ off by omega]
  · by_cases hwin : 0x10000 ≤ off ∧ off + widthBytes w ≤ 0x10000 + P.bufBytes
    · simp [target, Permitted, hreg, hwin, window_aligned_iff w hwin.1]
    · rw [target, if_neg hreg, if_neg hwin]
      have hnot : ¬Permitted P off w := by
        rintro (⟨h, -⟩ | ⟨hlo, hhi, -⟩)
        · exact hreg h
        · exact hwin ⟨hlo, hhi⟩
      exact iff_of_true rfl hnot

theorem portAccess_read_refused {P : Params} {off : Nat} {w : Width} (h : target P off w = .refused) (s : State) :
    portAccess P (.read off w) s = (slverr, s) := by
  simp only [portAccess, h]

theorem portAccess_write_refused {P : Params} {off : Nat} {w : Width} (h : target P off w = .refused) (v : Word)
    (s : State) : portAccess P (.write off w v) s = (slverr, s) := by
  simp only [portAccess, h]

@[simp] theorem dbufRead_resp (a : Nat) (w : Width) (s : State) : (dbufRead a w s).1.resp = .okay := by
  unfold dbufRead
  split <;> rfl

@[simp] theorem dbufWrite_resp (a : Nat) (w : Width) (v : Word) (s : State) : (dbufWrite a w v s).1.resp = .okay := by
  unfold dbufWrite
  split <;> rfl

theorem portAccess_read_okay {P : Params} {off : Nat} {w : Width} (h : target P off w ≠ .refused) (s : State) :
    (portAccess P (.read off w) s).1.resp = .okay := by
  cases ht : target P off w with
  | register r => simp only [portAccess, ht]
  | buffer a => simp only [portAccess, ht, dbufRead_resp]
  | refused => exact absurd ht h

theorem portAccess_write_okay {P : Params} {off : Nat} {w : Width} (h : target P off w ≠ .refused) (v : Word)
    (s : State) : (portAccess P (.write off w v) s).1.resp = .okay := by
  cases ht : target P off w with
  | register r => simp only [portAccess, ht]
  | buffer a => simp only [portAccess, ht, dbufWrite_resp]
  | refused => exact absurd ht h

/-- Settles O54: by `target_refused_iff` the accesses that are not permitted are those the dispatch refuses. -/
theorem refusedAccessChangesNothing : Obligations.RefusedAccessChangesNothing := by
  intro P off w v s
  constructor
  · intro hn
    have hr := target_refused_iff.2 hn
    exact ⟨portAccess_read_refused hr s, portAccess_write_refused hr v s⟩
  · intro hp
    have hr : target P off w ≠ .refused := fun h => target_refused_iff.1 h hp
    exact ⟨portAccess_read_okay hr s, portAccess_write_okay hr v s⟩

/-! ## DBUF while a command is in flight -/

theorem dbufRead_busy {s : State} (h : s.busy = true) (a : Nat) (w : Width) :
    dbufRead a w s = (⟨.okay, 0⟩, { s with accErr := true }) := by
  rw [dbufRead, if_pos h]

theorem dbufWrite_busy {s : State} (h : s.busy = true) (a : Nat) (w : Width) (v : Word) :
    dbufWrite a w v s = (⟨.okay, 0⟩, { s with accErr := true }) := by
  rw [dbufWrite, if_pos h]

/-- A soft reset is ignored while busy, so a write to CTRL reaches IRQ_EN only. -/
theorem writeCtrl_busy {s : State} (h : s.busy = true) (v : Word) :
    writeCtrl v s = { s with irqEn := v.getLsbD 1 } := by
  simp only [writeCtrl]
  split
  · exact softReset_busy h
  · rfl

theorem issueCommand_busy {s : State} (h : s.busy = true) (v : Word) : issueCommand v s = cmdOverrun s := by
  rw [issueCommand, if_pos h]

theorem regWrite_dbuf_of_busy {s : State} (h : s.busy = true) (off : Nat) (v : Word) :
    (regWrite off v s).dbuf = s.dbuf := by
  obtain e | e | e | e | ⟨_, _, _, _, _, _, e⟩ := regWrite_cases off v s
  · rw [e]
  · rw [e, writeCtrl_busy h]
  · rw [e, clearStatus_dbuf]
  · rw [e, issueCommand_busy h, cmdOverrun_dbuf]
  · rw [e]

theorem hostAccess_dbuf_of_busy {P : Params} {s : State} (h : s.busy = true) (x : Access) :
    (hostAccess P x s).dbuf = s.dbuf := by
  change (portAccess P x s).2.dbuf = s.dbuf
  obtain e | ⟨r, v, e⟩ | ⟨_, e⟩ | ⟨hidle, _⟩ := portAccess_cases P x s
  · rw [e]
  · rw [e, regWrite_dbuf_of_busy h]
  · rw [e]
  · exact absurd h (by simp [hidle])

@[simp] theorem complete_busy (L : Descriptor) (r : Result) (s : State) : (complete L r s).busy = false := by
  cases r <;> rfl

theorem nextMove_keeps {s s' : State} {m : Move} (h : nextMove s = (m, s')) :
    s'.busy = s.busy ∧ s'.dbuf = s.dbuf := by
  obtain ⟨ts, hs, -⟩ := nextMove_spec s
  rw [h] at hs
  subst hs
  exact ⟨rfl, rfl⟩

/-- A step that leaves the block busy was a host access or nothing: a reset and a completion both clear BUSY. -/
theorem step_next_of_busy {s t : State} (h : step s = .next t) (ht : t.busy = true) :
    ∃ m s', nextMove s = (m, s') ∧ (t = s' ∨ ∃ a, t = hostAccess Config.params a s') := by
  obtain ⟨a, s', hm, e⟩ | ⟨s', -, e⟩ | ⟨s', hm, e⟩ | ⟨s', _, i, -, -, -, e⟩ | ⟨s', _, _, -, -, -, e⟩ := step_next h
  · exact ⟨_, s', hm, .inr ⟨a, e⟩⟩
  · rw [e, hardwareReset_busy] at ht
    cases ht
  · exact ⟨_, s', hm, .inl e⟩
  · obtain ⟨L, r, u, hc⟩ := exec_next e
    rw [hc.result, complete_busy] at ht
    cases ht
  · obtain ⟨L, -, e⟩ := runIllegal_next e
    rw [e, complete_busy] at ht
    cases ht

theorem step_dbuf_of_busy {s t : State} (h : step s = .next t) (hs : s.busy = true) (ht : t.busy = true) :
    t.dbuf = s.dbuf := by
  obtain ⟨m, s', hm, e⟩ := step_next_of_busy h ht
  obtain ⟨hbusy, hdbuf⟩ := nextMove_keeps hm
  obtain rfl | ⟨a, rfl⟩ := e
  · exact hdbuf
  · rw [hostAccess_dbuf_of_busy (hbusy.trans hs), hdbuf]

/-- Settles O56: an aligned access in range reaches the closed buffer, and a step from busy to busy makes no completion. -/
theorem bufferIsClosedWhileBusy : Obligations.BufferIsClosedWhileBusy := by
  refine ⟨?_, fun _ _ => step_dbuf_of_busy⟩
  intro P s a w v hb ha hfit
  have htarget := target_of_fits ha hfit
  constructor
  · simp only [portAccess, htarget, dbufRead_busy hb]
  · simp only [portAccess, htarget, dbufWrite_busy hb]

end Sys2Proof.Proofs.HostPort

/-! PROOFS. The registers a command does not use (30_encoding.md R93, R94): the checks, the completion and the draw
depend on the latched descriptor only through the slots the command uses. -/

namespace Sys2Proof.Proofs.UnusedRegisters

open Sys2Proof.Machine Sys2Proof.Claims

/-- Two descriptors agree on every register `i` uses: a source slot may differ only where R93 marks it "—" for `i`. -/
structure AgreeOnUsed (P : Params) (i : Instr) (L M : Descriptor) : Prop where
  src0 : src0Rule P i ≠ .unused → L.src0Addr = M.src0Addr ∧ L.src0Len = M.src0Len
  src1 : src1Rule P i ≠ .unused → L.src1Addr = M.src1Addr ∧ L.src1Len = M.src1Len
  dstAddr : L.dstAddr = M.dstAddr
  dstLen : L.dstLen = M.dstLen

/-! ## The checks -/

/-- An unused slot has no region and its length register meets every rule (R94). -/
theorem slot_congr {r : LenRule} {a b m n : Word} (h : r ≠ .unused → a = b ∧ m = n) :
    lenOk r m = lenOk r n ∧ sourceRegion r a m = sourceRegion r b n := by
  cases r with
  | unused => exact ⟨rfl, rfl⟩
  | fixed | any =>
    obtain ⟨rfl, rfl⟩ := h (by simp)
    exact ⟨rfl, rfl⟩

section
variable {P : Params} {i : Instr} {L M : Descriptor}

/-- Outside the length rules only SRC0_LEN is read, and only by the two CBC commands, which use that slot. -/
theorem AgreeOnUsed.dstMax_formatOk (h : AgreeOnUsed P i L M) :
    dstMax P i L = dstMax P i M ∧ formatOk i L = formatOk i M := by
  cases i with
  | cbcEncrypt | cbcDecrypt =>
    have hlen : L.src0Len = M.src0Len := (h.src0 (by simp [src0Rule])).2
    simp only [dstMax, formatOk, hlen, and_self]
  | modexp | modexpInv | modmul | genExp | sha256 | sha256Compress | hmacSha256 => exact ⟨rfl, rfl⟩

theorem AgreeOnUsed.sources (h : AgreeOnUsed P i L M) : sources P i L = sources P i M := by
  simp only [Machine.sources, (slot_congr h.src0).2, (slot_congr h.src1).2]

theorem AgreeOnUsed.destination (h : AgreeOnUsed P i L M) : destination P i L = destination P i M := by
  simp only [Machine.destination, h.dstAddr, h.dstMax_formatOk.1]

theorem AgreeOnUsed.lengthsOk (h : AgreeOnUsed P i L M) : lengthsOk P i L = lengthsOk P i M := by
  simp only [Machine.lengthsOk, (slot_congr h.src0).1, (slot_congr h.src1).1, h.dstMax_formatOk.1, h.dstLen]

/-- No check looks at an unused register, so the first failure is the same. -/
theorem AgreeOnUsed.checks (h : AgreeOnUsed P i L M) (fatal : Bool) : checks P i fatal L = checks P i fatal M := by
  have hbounds : boundsOk P i L = boundsOk P i M := by simp only [boundsOk, h.sources, h.destination]
  have hdisjoint : disjointOk P i L = disjointOk P i M := by simp only [disjointOk, h.sources, h.destination]
  rw [Machine.checks, h.dstMax_formatOk.2, h.lengthsOk, hbounds, hdisjoint, Machine.checks]

end

/-! ## The latch -/

/-- The state with `x` in the latch, as the obligation writes it. -/
def withLatched (s : State) (x : Option Descriptor) : State := { s with latched := x }

@[simp] theorem withLatched_latched (s : State) (x : Option Descriptor) : (withLatched s x).latched = x := rfl
@[simp] theorem withLatched_dbuf (s : State) (x : Option Descriptor) : (withLatched s x).dbuf = s.dbuf := rfl

/-- A completion releases the latch and takes only DST_ADDR from the descriptor. -/
theorem complete_withLatched_congr {L M : Descriptor} (h : L.dstAddr = M.dstAddr) (r : Result) (s : State)
    (x y : Option Descriptor) : complete L r (withLatched s x) = complete M r (withLatched s y) := by
  cases r with
  | ok out => simp only [complete, withLatched, h]
  | err c => rfl

/-- The oracle's answer does not depend on the latch, which a draw keeps. -/
theorem draw_withLatched (s : State) (x : Option Descriptor) :
    draw (withLatched s x) = ((draw s).1, withLatched (draw s).2 x) := by
  cases hr : s.rng <;> simp only [draw, withLatched, hr]

/-! ## Running a command -/

section
variable {P : Params} {i : Instr} {L M : Descriptor}

theorem AgreeOnUsed.runCommand (h : AgreeOnUsed P i L M) {body : Descriptor → Memory → Result} {s : State}
    (hbody : body L s.dbuf = body M s.dbuf) :
    runCommand P i body (withLatched s (some L)) = runCommand P i body (withLatched s (some M)) := by
  have hchecks := h.checks s.fatal
  have hlatL := withLatched_latched s (some L)
  have hlatM := withLatched_latched s (some M)
  cases hM : Machine.checks P i s.fatal M with
  | some c =>
    rw [runCommand_err hlatL (hchecks.trans hM), runCommand_err hlatM hM, complete_withLatched_congr h.dstAddr]
  | none =>
    rw [runCommand_ok hlatL (hchecks.trans hM), runCommand_ok hlatM hM, withLatched_dbuf, withLatched_dbuf, hbody,
      complete_withLatched_congr h.dstAddr]

theorem AgreeOnUsed.runDrawing (h : AgreeOnUsed P i L M) {body : Descriptor → Memory → Nat → Result} {s : State}
    (hbody : body L s.dbuf = body M s.dbuf) :
    runDrawing P i body (withLatched s (some L)) = runDrawing P i body (withLatched s (some M)) := by
  have hchecks := h.checks s.fatal
  have hlatL := withLatched_latched s (some L)
  have hlatM := withLatched_latched s (some M)
  have hanswer (x) : (draw (withLatched s x)).1 = (draw s).1 := by rw [draw_withLatched]
  cases hM : Machine.checks P i s.fatal M with
  | some c =>
    rw [runDrawing_err hlatL (hchecks.trans hM), runDrawing_err hlatM hM, complete_withLatched_congr h.dstAddr]
  | none =>
    cases hd : (draw s).1 with
    | none =>
      rw [runDrawing_fail hlatL (hchecks.trans hM) ((hanswer _).trans hd),
        runDrawing_fail hlatM hM ((hanswer _).trans hd), draw_withLatched, draw_withLatched,
        complete_withLatched_congr h.dstAddr]
    | some n =>
      rw [runDrawing_ok hlatL (hchecks.trans hM) ((hanswer _).trans hd), runDrawing_ok hlatM hM ((hanswer _).trans hd),
        withLatched_dbuf, withLatched_dbuf, hbody, draw_withLatched, draw_withLatched,
        complete_withLatched_congr h.dstAddr]

end

/-! ## The slots marked "—" in R93 -/

theorem sha256_agree (P : Params) (L : Descriptor) (x y : Word) :
    AgreeOnUsed P .sha256 { L with src1Addr := x, src1Len := y } L where
  src0 _ := ⟨rfl, rfl⟩
  src1 hused := absurd rfl hused
  dstAddr := rfl
  dstLen := rfl

theorem genExp_agree (P : Params) (L : Descriptor) (x y z w : Word) :
    AgreeOnUsed P .genExp { L with src0Addr := x, src0Len := y, src1Addr := z, src1Len := w } L where
  src0 hused := absurd rfl hused
  src1 hused := absurd rfl hused
  dstAddr := rfl
  dstLen := rfl

/-- Settles O10: the two descriptors agree on the used slots, and neither result reads an unused one. -/
theorem unusedRegistersAreIgnored : Obligations.UnusedRegistersAreIgnored := by
  constructor
  · intro s L x y
    rw [exec_sha256, exec_sha256]
    exact (sha256_agree _ L x y).runCommand (s := s) rfl
  · intro s L x y z w
    rw [exec_genExp, exec_genExp]
    exact (genExp_agree _ L x y z w).runDrawing (s := s) rfl

end Sys2Proof.Proofs.UnusedRegisters

/-! PROOFS. The issue of a command (40_command_execution.md R113 to R115): how a host write reaches a register, and that a
write to CMD is an acceptance by an idle block and an overrun for a busy one. -/

namespace Sys2Proof.Proofs.CommandIssue

open Sys2Proof.Machine Sys2Proof.Claims Sys2Proof.Proofs.HostPort

/-- Every aligned word offset of the register window is a register (20_memory.md R63). -/
theorem target_register {P : Params} {off : Nat} (h : off < 0x1000) (ha : off % 4 = 0) :
    target P off .word = .register off := by
  rw [target, if_pos h, if_pos ⟨rfl, ha⟩]

theorem portAccess_write_register {P : Params} {off : Nat} (h : off < 0x1000) (ha : off % 4 = 0) (v : Word)
    (s : State) : portAccess P (.write off .word v) s = (⟨.okay, 0⟩, regWrite off v s) := by
  simp only [portAccess, target_register h ha]

theorem regWrite_cmd (v : Word) (s : State) : regWrite 0x014 v s = issueCommand v s := rfl

theorem portAccess_write_cmd (P : Params) (v : Word) (s : State) :
    portAccess P (.write 0x014 .word v) s = (⟨.okay, 0⟩, issueCommand v s) := by
  rw [portAccess_write_register (by decide) (by decide), regWrite_cmd]

theorem issueCommand_idle {s : State} (h : s.busy = false) (v : Word) : issueCommand v s = accept v s := by
  simp only [issueCommand, h, Bool.false_eq_true, if_false]

/-- An acceptance lowers the interrupt output, as it clears DONE (10_state.md R39). -/
@[simp] theorem irq_accept (v : Word) (s : State) : irq (accept v s) = false := by
  rw [irq, accept_done, Bool.false_and]

/-- Settles O47: the write reaches CMD and issues the word, which an idle block accepts and a busy one overruns. -/
theorem commandWriteIsAcceptedOrOverrun : Obligations.CommandWriteIsAcceptedOrOverrun := by
  intro P v s
  rw [portAccess_write_cmd]
  constructor
  · intro hidle
    rw [issueCommand_idle hidle]
    exact ⟨rfl, irq_accept v s⟩
  · intro hbusy
    rw [issueCommand_busy hbusy, cmdOverrun]

end Sys2Proof.Proofs.CommandIssue

/-! PROOFS. The ladder (41_modexp.md R143, R149, R150): its loop invariant over the exponent bits still to come, and the
product of a power and its inverse power. -/

namespace Sys2Proof.Proofs.Ladder

open Sys2Proof.Machine Sys2Proof.Claims

/-! ## The masked selection -/

theorem select_zero (new old : Nat) : select 0 new old = old := by
  rw [select, Nat.and_zero, Nat.xor_zero]

/-- ONES selects the new value, when both values have at most as many bits as the mask. -/
theorem select_ones {k new old : Nat} (hnew : new < 2 ^ k) (hold : old < 2 ^ k) :
    select (2 ^ k - 1) new old = new := by
  rw [select, Nat.and_two_pow_sub_one_of_lt_two_pow (Nat.xor_lt_two_pow hold hnew), Nat.xor_xor_cancel_left]

theorem mulmod_lt {P : Params} (hp : 0 < P.p) (x y : Nat) : mulmod P x y < P.p := Nat.mod_lt _ hp

/-- One iteration multiplies `result` by `a` exactly when exponent bit `i` is 1. -/
theorem select_ladderMask {P : Params} {result : Nat} (hres : result < P.p) (e i a : Nat) :
    select (ladderMask P e i) (mulmod P result a) result = result * a ^ (e / 2 ^ i % 2) % P.p := by
  rw [← Nat.toNat_testBit]
  cases hbit : e.testBit i with
  | false => simp [ladderMask, hbit, select_zero, Nat.mod_eq_of_lt hres]
  | true =>
    have hnew := mulmod_lt (Nat.zero_lt_of_lt hres) result a
    rw [ladderMask, if_pos hbit, select_ones (hnew.trans P.p_lt_two_pow) (hres.trans P.p_lt_two_pow), mulmod,
      Bool.toNat_true, pow_one]

/-! ## The loop -/

theorem ladderFrom_succ (P : Params) (e n i result a : Nat) :
    ladderFrom P e (n + 1) i result a =
      ladderFrom P e n (i + 1) (select (ladderMask P e i) (mulmod P result a) result) (mulmod P a a) := rfl

/-- The loop invariant: `n` iterations from bit `i` multiply `result` by `a` to the exponent's bits `i` to `i + n - 1`. -/
theorem ladderFrom_eq {P : Params} (e : Nat) : ∀ (n i : Nat) {result : Nat} (a : Nat), result < P.p →
    ladderFrom P e n i result a = result * a ^ (e / 2 ^ i % 2 ^ n) % P.p
  | 0, i, result, a, hres => by simp [ladderFrom, Nat.mod_one, Nat.mod_eq_of_lt hres]
  | n + 1, i, result, a, hres => by
    have hlt : result * a ^ (e / 2 ^ i % 2) % P.p < P.p := Nat.mod_lt _ (Nat.zero_lt_of_lt hres)
    have hbits : e / 2 ^ i % 2 ^ (n + 1) = e / 2 ^ i % 2 + 2 * (e / 2 ^ (i + 1) % 2 ^ n) := by
      rw [pow_succ' 2 n, Nat.mod_mul, Nat.div_div_eq_div_mul, ← pow_succ]
    calc ladderFrom P e (n + 1) i result a
        = ladderFrom P e n (i + 1) (result * a ^ (e / 2 ^ i % 2) % P.p) (a * a % P.p) := by
          rw [ladderFrom_succ, select_ladderMask hres, mulmod]
      _ = result * a ^ (e / 2 ^ i % 2) % P.p * (a * a % P.p) ^ (e / 2 ^ (i + 1) % 2 ^ n) % P.p :=
          ladderFrom_eq e n (i + 1) _ hlt
      _ = result * a ^ (e / 2 ^ i % 2) * (a * a) ^ (e / 2 ^ (i + 1) % 2 ^ n) % P.p :=
          (Nat.mod_modEq _ _).mul ((Nat.mod_modEq _ _).pow _)
      _ = result * a ^ (e / 2 ^ i % 2 ^ (n + 1)) % P.p := by
          rw [hbits, pow_add a, pow_mul a, pow_two a, mul_assoc]

/-- R149, for any base: an exponent of `LADDER_BITS` bits is used whole. -/
theorem ladder_eq_pow {P : Params} (hp : 1 < P.p) (base : Nat) {e : Nat} (he : e < 2 ^ P.ladderBits) :
    ladder P base e = base ^ e % P.p := by
  rw [ladder, ladderFrom_eq e _ 0 base hp, pow_zero, Nat.div_one, Nat.mod_eq_of_lt he, one_mul]

/-- Settles O18: the loop invariant over all `LADDER_BITS` bit positions. -/
theorem ladderIsThePower : Obligations.LadderIsThePower :=
  fun _ base _ hp _ he => ladder_eq_pow hp base he

/-! ## The inverse power -/

theorem q_le_p (P : Params) : P.q ≤ P.p := by
  unfold Params.q
  omega

/-- An exponent up to `q` has at most `LADDER_BITS` bits. -/
theorem lt_two_pow_ladderBits {P : Params} {e : Nat} (he : e ≤ P.q) : e < 2 ^ P.ladderBits :=
  (he.trans (q_le_p P)).trans_lt P.p_lt_two_pow

/-- R150, its first part: the exponents `e` and `q - e` add up to the order. -/
theorem mulmod_ladder_inverse {P : Params} {base e : Nat} (hp : 1 < P.p) (horder : base ^ P.q % P.p = 1)
    (he : e ≤ P.q) : mulmod P (ladder P base e) (ladder P base (P.q - e)) = 1 := by
  rw [ladder_eq_pow hp base (lt_two_pow_ladderBits he), ladder_eq_pow hp base (lt_two_pow_ladderBits (Nat.sub_le _ _)),
    mulmod, ← Nat.mul_mod, ← pow_add, Nat.add_sub_of_le he, horder]

/-! ## The results of the commands -/

theorem ladder_lt {P : Params} (hp : 1 < P.p) (base e : Nat) : ladder P base e < P.p := by
  rw [ladder, ladderFrom_eq e _ 0 base hp]
  exact Nat.mod_lt _ (Nat.zero_lt_of_lt hp)

/-- A residue survives its byte form of LP bytes. -/
theorem be2int_int2be_lp {P : Params} {x : Nat} (hx : x < P.p) : be2int (int2be P.lp x) = x := by
  rw [be2int_int2be, Nat.mod_eq_of_lt (hx.trans P.p_lt_pow)]

theorem modexpResult_eq_ok_iff {P : Params} {L : Descriptor} {D : Memory} {out : Bytes} :
    modexpResult P L D = .ok out ↔
      operand0 P L D < P.p ∧ out = int2be P.lp (ladder P (operand0 P L D) (operand1 P L D)) := by
  rw [modexpResult]
  split_ifs with hbase
  · simp [hbase.not_gt]
  · simp [not_le.mp hbase, eq_comm]

theorem modexpInvResult_eq_ok_iff {P : Params} {L : Descriptor} {D : Memory} {out : Bytes} :
    modexpInvResult P L D = .ok out ↔
      operand0 P L D < P.p ∧ (1 ≤ operand1 P L D ∧ operand1 P L D < P.q) ∧
        out = int2be P.lp (ladder P (operand0 P L D) (P.q - operand1 P L D)) := by
  rw [modexpInvResult]
  split_ifs with hbase hexp
  · simp [hbase.not_gt]
  · have hrange : ¬(1 ≤ operand1 P L D ∧ operand1 P L D < P.q) := by omega
    simp [hrange]
  · have hrange : 1 ≤ operand1 P L D ∧ operand1 P L D < P.q := by omega
    simp [not_le.mp hbase, hrange, eq_comm]

theorem modmulResult_ok {P : Params} {L : Descriptor} {D : Memory} (h0 : operand0 P L D < P.p)
    (h1 : operand1 P L D < P.p) :
    modmulResult P L D = .ok (int2be P.lp (mulmod P (operand0 P L D) (operand1 P L D))) := by
  rw [modmulResult, if_neg (by omega)]

/-- Settles O19: MODMUL reads back the two ladder outputs, whose exponents add up to the order of the base. -/
theorem powerTimesInversePowerIsOne : Obligations.PowerTimesInversePowerIsOne := by
  constructor
  · intro P base e hp _ horder _ he
    exact mulmod_ladder_inverse hp horder he.le
  · intro P L M D E u v hp horder hu hv h0 h1
    obtain ⟨-, rfl⟩ := modexpResult_eq_ok_iff.mp hu
    obtain ⟨-, ⟨-, hexp⟩, rfl⟩ := modexpInvResult_eq_ok_iff.mp hv
    rw [be2int_int2be_lp (ladder_lt hp _ _)] at h0 h1
    rw [modmulResult_ok (h0 ▸ ladder_lt hp _ _) (h1 ▸ ladder_lt hp _ _), h0, h1,
      mulmod_ladder_inverse hp horder hexp.le]

end Sys2Proof.Proofs.Ladder

/-! PROOFS. The hash (42_sha256.md R171, R173 to R175, R180): the model's folds and big-endian strings meet the spec's
own equations, the padding fills the last block, and SHA256 is SHA256_COMPRESS folded over the blocks. -/

namespace Sys2Proof.Proofs.Sha256

open Sys2Proof.Machine Sys2Proof.Claims

/-! ## Words and their bytes -/

theorem rotr_eq_rotateRight (x : Word) {n : Nat} (h : n < 32) : rotr x n = x.rotateRight n := by
  rw [rotr, BitVec.rotateRight_def, Nat.mod_eq_of_lt h]

theorem int2be_toNat (x : Word) : int2be 4 x.toNat = bytesOf x := by
  simp only [int2be, bytesOf, List.cons.injEq, and_true]
  refine ⟨?_, ?_, ?_, ?_⟩ <;> apply BitVec.eq_of_toNat_eq <;> simp [Nat.shiftRight_eq_div_pow]

theorem toNat_append_byte {n : Nat} (x : BitVec n) (b : Byte) : (x ++ b).toNat = x.toNat * 256 + b.toNat := by
  rw [BitVec.toNat_append, ← Nat.shiftLeft_add_eq_or_of_lt b.isLt, Nat.shiftLeft_eq]

/-- The model reads a word from four bytes as a number, the spec's equations by concatenation. -/
theorem be32_four (a b c d : Byte) : be32 [a, b, c, d] = a ++ b ++ c ++ d := by
  apply BitVec.eq_of_toNat_eq
  simp only [be32, be2int, List.foldl_cons, List.foldl_nil, toNat_append_byte, BitVec.toNat_ofNat]
  omega

theorem take_four {l : Bytes} (h : 4 ≤ l.length) : l.take 4 = [l.getD 0 0, l.getD 1 0, l.getD 2 0, l.getD 3 0] := by
  match l, h with
  | _ :: _ :: _ :: _ :: _, _ => rfl

theorem getD_drop (s : Bytes) (n k : Nat) : (s.drop n).getD k 0 = s.getD (n + k) 0 := by
  rw [List.getD_eq_getElem?_getD, List.getElem?_drop, ← List.getD_eq_getElem?_getD]

theorem be32_eq_wordAt {s : Bytes} {t : Nat} (h : 4 * t + 4 ≤ s.length) :
    be32 ((s.drop (4 * t)).take 4) = wordAt s t := by
  rw [take_four (by rw [List.length_drop]; omega), be32_four]
  simp only [getD_drop]
  rfl

/-! ## Eight words as a chaining value -/

/-- Word `j` of eight, numbered from `a = 0` to `h = 7` (42_sha256.md R175). -/
def hashWord (H : HashState) : Nat → Word
  | 0 => H.a
  | 1 => H.b
  | 2 => H.c
  | 3 => H.d
  | 4 => H.e
  | 5 => H.f
  | 6 => H.g
  | _ => H.h

theorem hashBytes_eq_flatMap (H : HashState) :
    hashBytes H = (List.range 8).flatMap fun j => bytesOf (hashWord H j) := by
  simp only [hashBytes, int2be_toNat]
  rfl

theorem hashWord_addHash (x y : HashState) (j : Nat) : hashWord (addHash x y) j = hashWord x j + hashWord y j := by
  match j with
  | 0 | 1 | 2 | 3 | 4 | 5 | 6 | _ + 7 => rfl

theorem hashWord_hashOfBytes {S : Bytes} (h : S.length = 32) {j : Nat} (hj : j < 8) :
    hashWord (hashOfBytes S) j = wordAt S j := by
  rw [← be32_eq_wordAt (show 4 * j + 4 ≤ S.length by omega)]
  match j, hj with
  | 0, _ | 1, _ | 2, _ | 3, _ | 4, _ | 5, _ | 6, _ | 7, _ => rfl

/-! ## The constants -/

/-- The fractional bits `x` with the whole part `i` give the root's floor. -/
theorem isRootBits_of_wholePart {k t i : Nat} {x : Word}
    (hle : (i * 2 ^ 32 + x.toNat) ^ k ≤ primes64.getD t 0 * 2 ^ (32 * k))
    (hlt : primes64.getD t 0 * 2 ^ (32 * k) < (i * 2 ^ 32 + x.toNat + 1) ^ k) : IsRootBits k t x :=
  by
  refine ⟨i * 2 ^ 32 + x.toNat, hle, hlt, BitVec.eq_of_toNat_eq ?_⟩
  rw [BitVec.toNat_ofNat, Nat.mul_add_mod_self_right, Nat.mod_eq_of_lt x.isLt]

/-- The cube roots of the first 64 primes are below 7. -/
theorem roundConstants_wholePart : ∀ t < 64, ∃ i < 7,
    (i * 2 ^ 32 + (roundConstants.getD t 0).toNat) ^ 3 ≤ primes64.getD t 0 * 2 ^ (32 * 3) ∧
      primes64.getD t 0 * 2 ^ (32 * 3) < (i * 2 ^ 32 + (roundConstants.getD t 0).toNat + 1) ^ 3 := by
  decide

theorem roundConstants_isRootBits {t : Nat} (h : t < 64) : IsRootBits 3 t (roundConstants.getD t 0) := by
  obtain ⟨i, -, hle, hlt⟩ := roundConstants_wholePart t h
  exact isRootBits_of_wholePart hle hlt

/-- The square roots of the first 8 primes are below 5. -/
theorem initialHash_wholePart : ∀ j < 8, ∃ i < 5,
    (i * 2 ^ 32 + (hashWord initialHash j).toNat) ^ 2 ≤ primes64.getD j 0 * 2 ^ (32 * 2) ∧
      primes64.getD j 0 * 2 ^ (32 * 2) < (i * 2 ^ 32 + (hashWord initialHash j).toNat + 1) ^ 2 := by
  decide

theorem initialHash_isRootBits {j : Nat} (h : j < 8) : IsRootBits 2 j (hashWord initialHash j) := by
  obtain ⟨i, -, hle, hlt⟩ := initialHash_wholePart j h
  exact isRootBits_of_wholePart hle hlt

/-! ## The compression function -/

theorem smallSigma0_eq (x : Word) : smallSigma0 x = x.rotateRight 7 ^^^ x.rotateRight 18 ^^^ x >>> 3 := by
  rw [smallSigma0, rotr_eq_rotateRight x (by decide), rotr_eq_rotateRight x (by decide)]

theorem smallSigma1_eq (x : Word) : smallSigma1 x = x.rotateRight 17 ^^^ x.rotateRight 19 ^^^ x >>> 10 := by
  rw [smallSigma1, rotr_eq_rotateRight x (by decide), rotr_eq_rotateRight x (by decide)]

theorem bigSigma0_eq (a : Word) : bigSigma0 a = a.rotateRight 2 ^^^ a.rotateRight 13 ^^^ a.rotateRight 22 := by
  rw [bigSigma0, rotr_eq_rotateRight a (by decide), rotr_eq_rotateRight a (by decide),
    rotr_eq_rotateRight a (by decide)]

theorem bigSigma1_eq (e : Word) : bigSigma1 e = e.rotateRight 6 ^^^ e.rotateRight 11 ^^^ e.rotateRight 25 := by
  rw [bigSigma1, rotr_eq_rotateRight e (by decide), rotr_eq_rotateRight e (by decide),
    rotr_eq_rotateRight e (by decide)]

theorem schedule_isSchedule {B : Bytes} (h : B.length = 64) : IsSchedule B fun t => (schedule B).getD t 0 := by
  constructor
  · intro t ht
    exact (schedule_first ht).trans (be32_eq_wordAt (by omega))
  · intro t h16 h64
    simp only [← smallSigma0_eq, ← smallSigma1_eq]
    exact schedule_next h16 h64

/-- The working variables of the model's rounds meet the spec's equations (42_sha256.md R175). -/
theorem workingAfter_areRounds {S : Bytes} (h : S.length = 32) (B : Bytes) :
    AreRounds (wordAt S) (fun t => roundConstants.getD t 0) (fun t => (schedule B).getD t 0)
      fun t => hashWord (workingAfter (hashOfBytes S) B t) := by
  constructor
  · intro j hj
    exact hashWord_hashOfBytes h hj
  · intro t ht
    simp only [← bigSigma0_eq, ← bigSigma1_eq, workingAfter_succ _ _ ht]
    exact ⟨rfl, rfl, rfl, rfl, rfl, rfl, rfl, rfl⟩

/-- R174 and R175 of 42_sha256.md for the model's compression function. -/
theorem compress_isCompression {S B : Bytes} (hS : S.length = 32) (hB : B.length = 64) :
    IsCompression S B (hashBytes (compress (hashOfBytes S) B)) := by
  refine ⟨_, _, _, fun _ => roundConstants_isRootBits, schedule_isSchedule hB, workingAfter_areRounds hS B, ?_⟩
  rw [hashBytes_eq_flatMap, compress_eq_workingAfter]
  refine List.flatMap_congr fun j hj => ?_
  rw [hashWord_addHash, hashWord_hashOfBytes hS (List.mem_range.mp hj)]

/-! ## SHA256_COMPRESS -/

theorem sha256Compress_checks {s : State} {L : Descriptor} (hf : s.fatal = false) (hd : DestOk L 32)
    (h0 : SourceOk L.src0Addr L.src0Len 64 L 32) (h1 : SourceOk L.src1Addr L.src1Len 32 L 32) :
    checks Config.params .sha256Compress s.fatal L = none := by
  obtain ⟨hlen0, hregion0⟩ := h0
  obtain ⟨hlen1, hregion1⟩ := h1
  refine checks_of hf (by simp [FormatBad]) ⟨hlen0, hlen1⟩ hd ?_
  simp only [sourceList, List.mem_cons, List.not_mem_nil, or_false, outputMax]
  rintro r (rfl | rfl)
  · rwa [hlen0]
  · rwa [hlen1]

/-- Settles O21: the model's schedule and rounds meet the spec's equations, and the command that passes its checks
writes their result. -/
theorem compressWritesTheNextChainingValue : Obligations.CompressWritesTheNextChainingValue := by
  refine ⟨fun S B hS hB => compress_isCompression hS hB, ?_⟩
  intro s L ⟨hlatched, hfatal⟩ hd h0 h1
  refine ⟨_, compress_isCompression (memRead_length _ _ _) (memRead_length _ _ _), ?_⟩
  rw [exec_sha256Compress, runCommand_ok hlatched (sha256Compress_checks hfatal hd h0 h1)]
  rfl

/-! ## Padding -/

/-- The number of zeros in the padding of a message of `n` bytes (42_sha256.md R173). -/
def padZeros (n : Nat) : Nat := ((55 - (n : Int)) % 64).toNat

theorem coe_padZeros (n : Nat) : (padZeros n : Int) = (55 - (n : Int)) % 64 :=
  Int.toNat_of_nonneg (Int.emod_nonneg _ (by decide))

theorem shaPad_eq (M : Bytes) :
    shaPad M = M ++ [0x80] ++ List.replicate (padZeros M.length) 0x00 ++ int2be 8 (8 * M.length) := by
  simp only [shaPad, padZeros, List.append_assoc, List.cons_append, List.nil_append]

theorem shaPad_length (M : Bytes) : (shaPad M).length = M.length + 9 + padZeros M.length := by
  simp only [shaPad_eq, List.length_append, List.length_singleton, List.length_replicate, int2be_length]
  omega

theorem shaPad_length_mod (M : Bytes) : (shaPad M).length % 64 = 0 := by
  have hk := coe_padZeros M.length
  rw [shaPad_length]
  omega

/-- Settles O23: the number of zeros is fixed modulo 64 and below 64, hence the least; DBUF holds at most 2^16 bytes. -/
theorem paddingFillsTheLastBlock : Obligations.PaddingFillsTheLastBlock := by
  constructor
  · intro M
    have hk := coe_padZeros M.length
    refine ⟨padZeros M.length, by omega, shaPad_eq M, hk, shaPad_length M, shaPad_length_mod M, ?_⟩
    intro j hj
    omega
  · intro n hn
    have hbuf : BUF ≤ 65536 := Config.buf_le
    omega

/-! ## The fold over the blocks -/

/-- The chaining value after the first `j` blocks of the padded message (42_sha256.md R176). -/
def chainAfter (M : Bytes) (j : Nat) : HashState := ((shaBlocks M).take j).foldl compress initialHash

theorem shaBlocks_length (M : Bytes) : (shaBlocks M).length = (shaPad M).length / 64 := blocks_length _ _ _

theorem chainAfter_succ {M : Bytes} {j : Nat} (h : j < (shaPad M).length / 64) :
    chainAfter M (j + 1) = compress (chainAfter M j) (((shaPad M).drop (64 * j)).take 64) := by
  have hblock : (shaBlocks M)[j]? = some (((shaPad M).drop (64 * j)).take 64) := blocks_getElem? _ h
  rw [chainAfter, List.take_add_one, hblock, List.foldl_append]
  rfl

/-- The last chaining value is the digest. -/
theorem hashBytes_chainAfter_last (M : Bytes) : hashBytes (chainAfter M ((shaPad M).length / 64)) = sha256 M := by
  rw [chainAfter, ← shaBlocks_length, List.take_length, sha256]

/-- Settles O24: the serialized chaining values of the model's fold, each read back by the next compression. -/
theorem compressionFoldIsTheDigest : Obligations.CompressionFoldIsTheDigest := by
  intro M
  refine ⟨hashWord initialHash, fun j => hashBytes (chainAfter M j), fun _ => initialHash_isRootBits,
    hashBytes_eq_flatMap _, ?_, hashBytes_chainAfter_last M⟩
  intro j hj
  have hblock : (((shaPad M).drop (64 * j)).take 64).length = 64 := by
    rw [List.length_take, List.length_drop]
    omega
  have hstep := compress_isCompression (hashBytes_length (chainAfter M j)) hblock
  rwa [hashOfBytes_hashBytes, ← chainAfter_succ hj] at hstep

end Sys2Proof.Proofs.Sha256

/-! PROOFS. The CBC family (44_cbc_pkcs7.md R215 to R230): the chaining block by block, PKCS#7 padding and its validation
as inverse functions, the MAC comparison as equality, and the two commands as encryption and decryption of a record. -/

namespace Sys2Proof.Proofs.Cbc

open Sys2Proof.Machine Sys2Proof.Claims

/-! ## Chaining -/

theorem block16_append_zero {c : Bytes} (hc : c.length = 16) (X : Bytes) : block16 (c ++ X) 0 = c :=
  List.take_left' hc

theorem block16_append_succ {c : Bytes} (hc : c.length = 16) (X : Bytes) (i : Nat) :
    block16 (c ++ X) (i + 1) = block16 X i := by
  rw [block16, show 16 * (i + 1) = c.length + 16 * i by omega, List.drop_length_add_append]
  rfl

/-- What block `i` is chained to: the ciphertext block before it, or the IV for the first (44_cbc_pkcs7.md R218, R222). -/
def blockBefore (iv C : Bytes) (i : Nat) : Bytes := if i = 0 then iv else block16 C (i - 1)

@[simp] theorem blockBefore_zero (iv C : Bytes) : blockBefore iv C 0 = iv := rfl

/-- Past its first block a ciphertext is chained as one whose IV is that block. -/
theorem blockBefore_append_succ {c : Bytes} (hc : c.length = 16) (iv C : Bytes) (i : Nat) :
    blockBefore iv (c ++ C) (i + 1) = blockBefore c C i := by
  cases i with
  | zero => exact block16_append_zero hc C
  | succ i => exact block16_append_succ hc C i

theorem block16_cbcEncBlocks {P : Params} (hP : P.Admissible) {ck : Bytes} (hk : ck.length = 32) :
    ∀ {bs : List Bytes} {prev b : Bytes} {i : Nat}, prev.length = 16 → (∀ b ∈ bs, b.length = 16) → bs[i]? = some b →
      block16 (cbcEncBlocks P ck prev bs) i =
        P.bcE ck (xorBytes (blockBefore prev (cbcEncBlocks P ck prev bs) i) b)
  | x :: rest, prev, b, i, hprev, hbs, hi => by
    obtain ⟨hx, hrest⟩ := List.forall_mem_cons.1 hbs
    have hc : (P.bcE ck (xorBytes prev x)).length = 16 := hP.bcE_length _ _ hk (by simp [xorBytes_length, hprev, hx])
    rw [cbcEncBlocks]
    cases i with
    | zero =>
      obtain rfl : x = b := by simpa using hi
      rw [block16_append_zero hc, blockBefore_zero]
    | succ i =>
      rw [block16_append_succ hc, blockBefore_append_succ hc]
      exact block16_cbcEncBlocks hP hk hc hrest hi

theorem block16_cbcDecBlocks {P : Params} (hP : P.Admissible) {ck : Bytes} (hk : ck.length = 32) :
    ∀ {cs : List Bytes} {prev c : Bytes} {i : Nat}, prev.length = 16 → (∀ c ∈ cs, c.length = 16) → cs[i]? = some c →
      block16 (cbcDecBlocks P ck prev cs) i = xorBytes (P.bcD ck c) (blockBefore prev cs.flatten i)
  | x :: rest, prev, c, i, hprev, hcs, hi => by
    obtain ⟨hx, hrest⟩ := List.forall_mem_cons.1 hcs
    have hd : (xorBytes (P.bcD ck x) prev).length = 16 := by
      simp [xorBytes_length, hprev, hP.bcD_length ck x hk hx]
    rw [cbcDecBlocks, List.flatten_cons]
    cases i with
    | zero =>
      obtain rfl : x = c := by simpa using hi
      rw [block16_append_zero hd, blockBefore_zero]
    | succ i =>
      rw [block16_append_succ hd, blockBefore_append_succ hx]
      exact block16_cbcDecBlocks hP hk hx hrest hi

theorem cbcDecBlocks_length {P : Params} (hP : P.Admissible) {ck : Bytes} (hk : ck.length = 32) :
    ∀ {cs : List Bytes} {prev : Bytes}, prev.length = 16 → (∀ c ∈ cs, c.length = 16) →
      (cbcDecBlocks P ck prev cs).length = 16 * cs.length
  | [], _, _, _ => rfl
  | x :: rest, prev, hprev, hcs => by
    obtain ⟨hx, hrest⟩ := List.forall_mem_cons.1 hcs
    have ih := cbcDecBlocks_length hP hk hx hrest
    simp only [cbcDecBlocks, List.length_append, List.length_cons, xorBytes_length, hP.bcD_length ck x hk hx, hprev, ih]
    omega

/-- Settles O30: by induction over the blocks, each step moving what the next block is chained to. -/
theorem cbcChainsEachBlockToTheOneBefore : Obligations.CbcChainsEachBlockToTheOneBefore := by
  intro P ck iv X m hP hk hiv hX
  have hm : X.length / 16 = m := by omega
  have hblocks : ∀ b ∈ blocks 16 m X, b.length = 16 := blocks_forall_length hX
  simp only [cbcEnc, cbcDec, hm]
  refine ⟨?_, ?_, fun i hi => ⟨?_, ?_⟩⟩
  · rw [cbcEncBlocks_length hP hk hiv hblocks, blocks_length]
  · rw [cbcDecBlocks_length hP hk hiv hblocks, blocks_length]
  · exact block16_cbcEncBlocks hP hk hiv hblocks (blocks_getElem? X hi)
  · have hdec := block16_cbcDecBlocks hP hk hiv hblocks (blocks_getElem? X hi)
    rwa [blocks_flatten hX] at hdec

/-! ## Padding -/

/-- The last byte of a string, which says how many bytes of padding there are (44_cbc_pkcs7.md R223). -/
def padByte (X : Bytes) : Byte := X.getD (X.length - 1) 0x00

/-- What R223 asks of a decrypted string: its last byte `N` is in `1..16`, and the last `N` bytes are all `N`. -/
structure ValidPadding (X : Bytes) : Prop where
  pos : 1 ≤ (padByte X).toNat
  le : (padByte X).toNat ≤ 16
  all_eq : ∀ b ∈ X.drop (X.length - (padByte X).toNat), b = padByte X

theorem getLastD_eq_padByte (X : Bytes) : X.getLastD 0 = padByte X := by
  rw [padByte, List.getLastD_eq_getLast?, List.getLast?_eq_getElem?, List.getD_eq_getElem?_getD]

theorem unpad16_of_valid {X : Bytes} (h : ValidPadding X) :
    unpad16 X = some (X.take (X.length - (padByte X).toNat)) := by
  obtain ⟨hpos, hle, hall⟩ := h
  simp only [unpad16, getLastD_eq_padByte]
  rw [if_neg (by omega), if_pos (by simpa using hall)]

theorem unpad16_of_not_valid {X : Bytes} (h : ¬ValidPadding X) : unpad16 X = none := by
  simp only [unpad16, getLastD_eq_padByte]
  split
  · rfl
  · next hrange =>
    refine if_neg fun hall => h ⟨by omega, by omega, ?_⟩
    simpa using hall

theorem unpad16_eq_some_iff {X M : Bytes} :
    unpad16 X = some M ↔ ValidPadding X ∧ X.take (X.length - (padByte X).toNat) = M := by
  by_cases h : ValidPadding X
  · simp [unpad16_of_valid h, h]
  · simp [unpad16_of_not_valid h, h]

/-- The last `n` bytes of a string, counted from its end. -/
theorem forall_mem_last_iff {X : Bytes} {n : Nat} (hn : n ≤ X.length) (p : Byte → Prop) :
    (∀ b ∈ X.drop (X.length - n), p b) ↔ ∀ j, 1 ≤ j → j ≤ n → p (X.getD (X.length - j) 0x00) := by
  constructor
  · intro h j h1 hj
    refine h _ (List.mem_iff_getElem.2 ⟨n - j, by rw [List.length_drop]; omega, ?_⟩)
    rw [List.getElem_drop, List.getD_eq_getElem _ _ (by omega)]
    congr 1
    omega
  · intro h b hb
    obtain ⟨i, hi, rfl⟩ := List.mem_iff_getElem.1 hb
    rw [List.length_drop] at hi
    have hp := h (n - i) (by omega) (by omega)
    rw [List.getD_eq_getElem _ _ (by omega)] at hp
    rw [List.getElem_drop]
    convert hp using 2
    omega

/-- A nonempty string of whole blocks has at least the 16 bytes that padding can take. -/
theorem validPadding_iff {X : Bytes} (hX : X.length % 16 = 0) (hne : X ≠ []) {n : Nat} (hn : n = (padByte X).toNat) :
    ValidPadding X ↔ 1 ≤ n ∧ n ≤ 16 ∧ ∀ j, 1 ≤ j → j ≤ n → (X.getD (X.length - j) 0x00).toNat = n := by
  have hlen : 0 < X.length := List.length_pos_iff.2 hne
  subst hn
  simp only [BitVec.toNat_inj]
  constructor
  · rintro ⟨hpos, hle, hall⟩
    exact ⟨hpos, hle, (forall_mem_last_iff (by omega) _).1 hall⟩
  · rintro ⟨hpos, hle, hall⟩
    exact ⟨hpos, hle, (forall_mem_last_iff (by omega) _).2 hall⟩

/-- The number of bytes that padding adds to a message of `len` bytes (44_cbc_pkcs7.md R217). -/
def padCount (len : Nat) : Nat := 16 - len % 16

theorem padCount_range (len : Nat) : 1 ≤ padCount len ∧ padCount len ≤ 16 := by
  unfold padCount
  omega

theorem pad16_eq (M : Bytes) :
    pad16 M = M ++ List.replicate (padCount M.length) (BitVec.ofNat 8 (padCount M.length)) := rfl

theorem pad16_length_eq_add (M : Bytes) : (pad16 M).length = M.length + padCount M.length := by
  rw [pad16_eq, List.length_append, List.length_replicate]

theorem pad16_length_mod (M : Bytes) : (pad16 M).length % 16 = 0 := by
  rw [pad16_length]
  omega

theorem padByte_pad16 (M : Bytes) : padByte (pad16 M) = BitVec.ofNat 8 (padCount M.length) := by
  have hrange := padCount_range M.length
  rw [padByte, pad16_length_eq_add, pad16_eq, List.getD_append_right _ _ _ _ (by omega)]
  exact List.getD_replicate _ (by omega)

@[simp] theorem padByte_pad16_toNat (M : Bytes) : (padByte (pad16 M)).toNat = padCount M.length := by
  have hrange := padCount_range M.length
  rw [padByte_pad16, BitVec.toNat_ofNat, Nat.mod_eq_of_lt (by omega)]

theorem validPadding_pad16 (M : Bytes) : ValidPadding (pad16 M) := by
  obtain ⟨hpos, hle⟩ := padCount_range M.length
  refine ⟨by rwa [padByte_pad16_toNat], by rwa [padByte_pad16_toNat], ?_⟩
  rw [padByte_pad16_toNat, padByte_pad16, pad16_length_eq_add, Nat.add_sub_cancel, pad16_eq, List.drop_left]
  exact fun b hb => List.eq_of_mem_replicate hb

theorem unpad16_pad16 (M : Bytes) : unpad16 (pad16 M) = some M := by
  rw [unpad16_of_valid (validPadding_pad16 M), padByte_pad16_toNat, pad16_length_eq_add, Nat.add_sub_cancel, pad16_eq,
    List.take_left]

/-- Whole blocks with valid padding are the padding of what precedes it: the byte `N` fixes the length modulo 16. -/
theorem eq_pad16_of_valid {X : Bytes} (hX : X.length % 16 = 0) (h : ValidPadding X) :
    X = pad16 (X.take (X.length - (padByte X).toNat)) := by
  obtain ⟨hpos, hle, hall⟩ := h
  have hlen : 0 < X.length := by
    refine List.length_pos_iff.2 ?_
    rintro rfl
    exact absurd hpos (by decide)
  have hcount : padCount (X.take (X.length - (padByte X).toNat)).length = (padByte X).toNat := by
    rw [padCount, List.length_take]
    omega
  have htail : X.drop (X.length - (padByte X).toNat) = List.replicate (padByte X).toNat (padByte X) :=
    List.eq_replicate_iff.2 ⟨by rw [List.length_drop]; omega, hall⟩
  rw [pad16_eq, hcount, BitVec.ofNat_toNat, BitVec.setWidth_eq, ← htail, List.take_append_drop]

theorem unpad16_eq_some_iff_eq_pad16 {X M : Bytes} (hX : X.length % 16 = 0) : unpad16 X = some M ↔ X = pad16 M := by
  constructor
  · intro h
    obtain ⟨hvalid, rfl⟩ := unpad16_eq_some_iff.1 h
    exact eq_pad16_of_valid hX hvalid
  · rintro rfl
    exact unpad16_pad16 M

/-- Settles O31: validation tests `ValidPadding`, which whole blocks meet exactly when they are a padded string. -/
theorem unpadAcceptsExactlyThePaddedStrings : Obligations.UnpadAcceptsExactlyThePaddedStrings := by
  refine ⟨?_, ?_, fun X M hX => unpad16_eq_some_iff_eq_pad16 hX⟩
  · intro M
    obtain ⟨hpos, hle⟩ := padCount_range M.length
    exact ⟨padCount M.length, rfl, hpos, hle, pad16_eq M, pad16_length_eq_add M, pad16_length_mod M⟩
  · intro X n hX hne hn
    have hiff := validPadding_iff hX hne hn
    constructor
    · intro hbad
      refine unpad16_of_not_valid fun hvalid => ?_
      obtain ⟨hpos, hle, hall⟩ := hiff.1 hvalid
      obtain h | h | ⟨j, h1, hj, h⟩ := hbad
      · omega
      · omega
      · exact h (hall j h1 hj)
    · intro hpos hle hall
      have hunpad := unpad16_of_valid (hiff.2 ⟨hpos, hle, hall⟩)
      rwa [show (padByte X).toNat = n from hn.symm] at hunpad

/-! ## The MAC of a record -/

theorem foldl_or_eq_zero_iff : ∀ {l : Bytes} {a : Byte}, l.foldl (· ||| ·) a = 0 ↔ a = 0 ∧ ∀ b ∈ l, b = 0
  | [], a => by simp
  | b :: l, a => by
    rw [List.foldl_cons, foldl_or_eq_zero_iff, List.forall_mem_cons, ← and_assoc]
    exact and_congr_left fun _ => BitVec.or_eq_zero_iff

theorem xorBytes_all_zero_iff : ∀ {x y : Bytes}, x.length = y.length → ((∀ b ∈ xorBytes x y, b = 0) ↔ x = y)
  | [], [], _ => by simp [xorBytes]
  | a :: x, b :: y, h => by
    have ih := xorBytes_all_zero_iff (x := x) (y := y) (by simpa using h)
    rw [xorBytes, List.zipWith_cons_cons, List.forall_mem_cons, List.cons.injEq, ← ih]
    exact and_congr_left fun _ => BitVec.xor_eq_zero_iff

/-- The comparison of R221 is equality on strings of one length. -/
theorem macEqual_iff {x y : Bytes} (h : x.length = y.length) : macEqual x y = true ↔ x = y := by
  rw [macEqual, decide_eq_true_iff, foldl_or_eq_zero_iff, xorBytes_all_zero_iff h]
  exact and_iff_right rfl

/-- The MAC covers everything after the MAC field: the IV and the ciphertext (44_cbc_pkcs7.md R219, R220). -/
theorem recordIv_append_recordCiphertext (rec : Bytes) : recordIv rec ++ recordCiphertext rec = rec.drop 32 := by
  rw [recordIv, recordCiphertext, show 48 = 32 + 16 from rfl, ← List.drop_drop, List.take_append_drop]

theorem macKey_eq_drop {K : Bytes} (hK : K.length = 96) : macKey K = K.drop 32 :=
  List.take_of_length_le (by simp [hK])

theorem recordAuthentic_iff {K rec : Bytes} (hK : K.length = 96) (hrec : 32 ≤ rec.length) :
    recordAuthentic K rec = true ↔ rec.take 32 = hmac (K.drop 32) (rec.drop 32) := by
  rw [recordAuthentic, recordMac, recordIv_append_recordCiphertext, macKey_eq_drop hK]
  exact macEqual_iff (by rw [recordMacField, List.length_take, hmac_length]; omega)

/-- Decryption fails for one of two reasons, the MAC first (44_cbc_pkcs7.md R225, R226). -/
theorem decryptRecord_eq_none_iff {P : Params} {K rec : Bytes} (hK : K.length = 96) (hrec : 32 ≤ rec.length) :
    decryptRecord P K rec = none ↔ rec.take 32 ≠ hmac (K.drop 32) (rec.drop 32) ∨
      unpad16 (cbcDec P (K.take 32) ((rec.drop 32).take 16) (rec.drop 48)) = none := by
  rw [decryptRecord, ne_eq, ← recordAuthentic_iff hK hrec]
  by_cases h : recordAuthentic K rec = true
  · rw [if_pos h]
    exact (or_iff_right (not_not_intro h)).symm
  · rw [if_neg h]
    exact iff_of_true rfl (.inl h)

@[simp] theorem bytesAt_length (s : State) (addr : Word) (n : Nat) : (bytesAt s addr n).length = n :=
  memRead_length _ _ _

theorem cbcDecryptResult_of_none {P : Params} {s : State} {L : Descriptor}
    (h : decryptRecord P (bytesAt s L.src1Addr 96) (bytesAt s L.src0Addr L.src0Len.toNat) = none) :
    cbcDecryptResult P L s.dbuf = .err .decryptFailed := by
  unfold bytesAt at h
  rw [cbcDecryptResult, symmetricKey, source0, h]

theorem cbcDecryptResult_of_some {P : Params} {s : State} {L : Descriptor} {M : Bytes}
    (h : decryptRecord P (bytesAt s L.src1Addr 96) (bytesAt s L.src0Addr L.src0Len.toNat) = some M) :
    cbcDecryptResult P L s.dbuf = .ok M := by
  unfold bytesAt at h
  rw [cbcDecryptResult, symmetricKey, source0, h]

/-- Settles O27: both causes are the `none` of `decryptRecord`, whose completion names neither. -/
theorem decryptFailuresAreIndistinguishable : Obligations.DecryptFailuresAreIndistinguishable := by
  intro s L ⟨hlatched, hfatal⟩ hR hmod hd h0 h1 K R hfail
  have hnone : decryptRecord Config.params K R = none :=
    (decryptRecord_eq_none_iff (bytesAt_length _ _ _) (by rw [bytesAt_length]; omega)).2 hfail
  have hresult : cbcDecryptResult Config.params L s.dbuf = .err .decryptFailed := cbcDecryptResult_of_none hnone
  rw [exec_cbcDecrypt, runCommand_ok hlatched (decrypt_checks hfatal hR hmod hd h0 h1), hresult,
    complete_err_eq (by decide)]
  rfl

/-! ## The record of an encryption -/

section Record

variable {P : Params} {K iv M : Bytes}

theorem recordMacField_encryptRecord :
    recordMacField (encryptRecord P K iv M) = recordMac (macKey K) iv (cbcEnc P (cipherKey K) iv (pad16 M)) := by
  rw [recordMacField, encryptRecord, List.append_assoc, List.take_left' (recordMac_length _ _ _)]

theorem drop_encryptRecord :
    (encryptRecord P K iv M).drop 32 = iv ++ cbcEnc P (cipherKey K) iv (pad16 M) := by
  rw [encryptRecord, List.append_assoc, List.drop_left' (recordMac_length _ _ _)]

theorem recordIv_encryptRecord (hiv : iv.length = 16) : recordIv (encryptRecord P K iv M) = iv := by
  rw [recordIv, drop_encryptRecord, List.take_left' hiv]

theorem recordCiphertext_encryptRecord (hiv : iv.length = 16) :
    recordCiphertext (encryptRecord P K iv M) = cbcEnc P (cipherKey K) iv (pad16 M) := by
  rw [recordCiphertext, show 48 = 32 + 16 from rfl, ← List.drop_drop, drop_encryptRecord, List.drop_left' hiv]

theorem encryptRecord_length (hP : P.Admissible) (hK : K.length = 96) (hiv : iv.length = 16) :
    (encryptRecord P K iv M).length = recordLength M.length := by
  simp only [encryptRecord, List.length_append, recordMac_length, hiv, encryptRecord_parts_length hP hK hiv, pad16_length,
    recordLength]

theorem recordCiphertext_encryptRecord_length (hP : P.Admissible) (hK : K.length = 96) (hiv : iv.length = 16) :
    (recordCiphertext (encryptRecord P K iv M)).length = 16 * (M.length / 16 + 1) := by
  rw [recordCiphertext_encryptRecord hiv, encryptRecord_parts_length hP hK hiv, pad16_length]

theorem recordAuthentic_encryptRecord (hiv : iv.length = 16) :
    recordAuthentic K (encryptRecord P K iv M) = true := by
  rw [recordAuthentic, recordMacField_encryptRecord, recordIv_encryptRecord hiv, recordCiphertext_encryptRecord hiv,
    macEqual_iff rfl]

/-- The round trip on records (44_cbc_pkcs7.md R228). -/
theorem decryptRecord_encryptRecord (hP : P.Admissible) (hK : K.length = 96) (hiv : iv.length = 16) :
    decryptRecord P K (encryptRecord P K iv M) = some M := by
  rw [decryptRecord, if_pos (recordAuthentic_encryptRecord hiv), recordIv_encryptRecord hiv,
    recordCiphertext_encryptRecord hiv, cbcDec_cbcEnc hP (cipherKey_length hK) hiv (pad16_length_mod M), unpad16_pad16]

end Record

/-! ## The commands -/

theorem errNumber_ne_zero (c : ErrCode) : errNumber c ≠ 0 := by
  cases c <;> decide

theorem complete_err_errcode_ne_zero (L : Descriptor) (c : ErrCode) (s : State) :
    (complete L (.err c) s).errcode ≠ 0 :=
  errNumber_ne_zero c

/-- A CBC_ENCRYPT that succeeds has drawn an IV and written the record of its operands, which fits DBUF. -/
theorem exec_cbcEncrypt_success {s t : State} {L : Descriptor} (hlatched : s.latched = some L)
    (hexec : exec .cbcEncrypt s = .next t) (hok : t.errcode = 0) :
    ∃ iv, iv.length = 16 ∧
      t = okState L (encryptRecord Config.params (bytesAt s L.src1Addr 96) iv (bytesAt s L.src0Addr L.src0Len.toNat))
        (draw s).2 ∧
      recordLength L.src0Len.toNat ≤ BUF := by
  rw [exec_cbcEncrypt] at hexec
  obtain ⟨L', hL', hcases⟩ := runDrawing_next hexec
  obtain rfl : L = L' := Option.some.inj (hlatched.symm.trans hL')
  obtain ⟨c, -, rfl⟩ | ⟨-, -, rfl⟩ | ⟨n, hc, -, rfl⟩ := hcases
  · exact absurd hok (complete_err_errcode_ne_zero _ _ _)
  · exact absurd hok (complete_err_errcode_ne_zero _ _ _)
  · exact ⟨drawnBlock n, drawnBlock_length n, rfl, le_trans (Nat.le_add_left _ _) (destination_fits hc)⟩

/-- OUT_LEN holds the length of every output that DBUF has room for. -/
theorem okState_outLen_toNat {L : Descriptor} {out : Bytes} (h : out.length ≤ BUF) (s : State) :
    (okState L out s).outLen.toNat = out.length := by
  have hbuf : BUF ≤ 65536 := Config.buf_le
  exact (BitVec.toNat_ofNat _ _).trans (Nat.mod_eq_of_lt (by omega))

/-- Reading the destination back over OUT_LEN bytes gives the output. -/
theorem bytesAt_okState {L : Descriptor} {out : Bytes} {s : State} (hwf : Memory.wf s.dbuf = true)
    (h : out.length ≤ BUF) : bytesAt (okState L out s) L.dstAddr (okState L out s).outLen.toNat = out := by
  rw [okState_outLen_toNat h]
  exact memRead_memWrite hwf

theorem encryptRecord_of_operands_length (s : State) (L : Descriptor) {iv : Bytes} (hiv : iv.length = 16) :
    (encryptRecord Config.params (bytesAt s L.src1Addr 96) iv (bytesAt s L.src0Addr L.src0Len.toNat)).length =
      recordLength L.src0Len.toNat := by
  rw [encryptRecord_length Config.params_admissible (bytesAt_length _ _ _) hiv, bytesAt_length]

/-- Settles O29: the length of the record is that of the padded plaintext and 48 bytes. -/
theorem recordIsLongerThanThePlaintext : Obligations.RecordIsLongerThanThePlaintext := by
  constructor
  · intro s t L hlatched hexec hok
    obtain ⟨iv, hiv, rfl, hfits⟩ := exec_cbcEncrypt_success hlatched hexec hok
    have hlen := encryptRecord_of_operands_length s L hiv
    exact (okState_outLen_toNat (hlen.trans_le hfits) _).trans hlen
  · intro P K iv M hP hK hiv
    have hC := recordCiphertext_encryptRecord_length (M := M) hP hK hiv
    refine ⟨encryptRecord_length hP hK hiv, ?_, ?_⟩
    · omega
    · omega

/-- Settles O28: the record is read back as it was written, and decryption of it undoes the encryption. -/
theorem decryptOfEncryptIsThePlaintext : Obligations.DecryptOfEncryptIsThePlaintext := by
  intro s t u E L hwf hlatched hexec hok K M R ⟨hready, hfatal⟩ hrec hkey hd h0 h1
  obtain ⟨iv, hiv, ht, hfits⟩ := exec_cbcEncrypt_success hlatched hexec hok
  have hK : K.length = 96 := bytesAt_length _ _ _
  have hM : M.length = E.src0Len.toNat := bytesAt_length _ _ _
  have hlen : (encryptRecord Config.params K iv M).length = recordLength E.src0Len.toNat :=
    encryptRecord_of_operands_length s E hiv
  have hR : R = encryptRecord Config.params K iv M := by
    simp only [R, ht]
    exact bytesAt_okState (by rwa [draw_dbuf]) (hlen.trans_le hfits)
  clear_value K M R
  have hsrc : L.src0Len.toNat = R.length := h0.1
  have hRlen : L.src0Len.toNat = recordLength E.src0Len.toNat := by rw [hsrc, hR, hlen]
  unfold recordLength at hRlen hfits
  rw [← hsrc] at hrec hd h0 h1
  have hresult : cbcDecryptResult Config.params L u.dbuf = .ok M := by
    refine cbcDecryptResult_of_some ?_
    rw [hkey, hrec, hR, decryptRecord_encryptRecord Config.params_admissible hK hiv]
  refine ⟨?_, okState_outLen_toNat (by omega) u⟩
  rw [exec_cbcDecrypt, runCommand_ok hready (decrypt_checks hfatal (by omega) (by omega) hd h0 h1), hresult,
    complete_ok_eq]

end Sys2Proof.Proofs.Cbc

/-! PROOFS. The key exchange family (49_key_exchange_host.md R254): the leading zero bytes of an encoded key add nothing
to its integer, and the chain of bounds from a 96-byte string up to the odd prime `p`. -/

namespace Sys2Proof.Proofs.KeyExchange

open Sys2Proof.Machine Sys2Proof.Claims

/-! ## The form of an encoding -/

theorem be2int_replicate_zero_append (n : Nat) (s : Bytes) : be2int (List.replicate n 0x00 ++ s) = be2int s := by
  induction n with
  | zero => rfl
  | succ n ih =>
    rw [List.replicate_succ, List.cons_append, be2int_cons, ih]
    simp

theorem be2int_encodeKey (P : Params) (K : Bytes) : be2int (encodeKey P K) = be2int K :=
  be2int_replicate_zero_append _ K

section Admissible

variable {P : Params} (hP : P.Admissible)
include hP

theorem encodeKey_length {K : Bytes} (hK : K.length = 96) : (encodeKey P K).length = P.lp := by
  have hlp := hP.lp_ge
  rw [encodeKey, List.length_append, List.length_replicate, hK]
  omega

/-! ## The bounds -/

theorem pow_96_le_two_pow_nbits_pred : 256 ^ 96 ≤ 2 ^ (P.nbits - 1) := by
  have hbits := hP.nbits_ge
  calc 256 ^ 96 = 2 ^ (8 * 96) := (pow_mul 2 8 96).symm
    _ ≤ 2 ^ (P.nbits - 1) := Nat.pow_le_pow_right (by norm_num) (by omega)

/-- The top bit of `p` is not all of it: `p = 2q + 1` is odd, while the power is even. -/
theorem two_pow_nbits_pred_lt_p : 2 ^ (P.nbits - 1) < P.p := by
  have hle : 2 ^ (P.nbits - 1) ≤ P.p := Nat.log2_self_le hP.p_prime.ne_zero
  have heven : 2 ∣ 2 ^ (P.nbits - 1) := dvd_pow_self 2 (by have := hP.nbits_ge; omega)
  have hodd := hP.p_eq
  omega

end Admissible

/-- Settles O57: the chain of bounds of R254, and an integer that the leading zero bytes leave as it is. -/
theorem encodedKeyIsAGroupElement : Obligations.EncodedKeyIsAGroupElement := by
  intro P K hP hK
  have hkey : be2int K < 256 ^ 96 := hK ▸ be2int_lt K
  have htop := pow_96_le_two_pow_nbits_pred hP
  have hp := two_pow_nbits_pred_lt_p hP
  exact ⟨encodeKey_length hP hK, rfl, be2int_encodeKey P K, hkey, htop, hp,
    (be2int_encodeKey P K).trans_lt (hkey.trans_le (htop.trans hp.le))⟩

end Sys2Proof.Proofs.KeyExchange

/-! PROOFS. The CTRL register and the soft reset (10_state.md R26, 70_reset_and_hazards.md R302): a write sets IRQ_EN
first, so a soft reset by the same write clears the bit again, and a busy block ignores the reset. -/

namespace Sys2Proof.Proofs.Control

open Sys2Proof.Machine Sys2Proof.Proofs.HostPort Sys2Proof.Proofs.CommandIssue

/-! ## Reads -/

theorem portAccess_read_register {P : Params} {off : Nat} (h : off < 0x1000) (ha : off % 4 = 0) (s : State) :
    portAccess P (.read off .word) s = (⟨.okay, regRead P s off⟩, s) := by
  simp only [portAccess, target_register h ha]

theorem regRead_ctrl (P : Params) (s : State) : regRead P s 0x00C = ctrlWord s := rfl

theorem ctrlWord_eq (s : State) : ctrlWord s = if s.irqEn then 2 else 0 := by
  unfold ctrlWord flagWord
  split <;> rfl

theorem portAccess_read_ctrl (P : Params) (s : State) :
    portAccess P (.read 0x00C .word) s = (⟨.okay, if s.irqEn then 2 else 0⟩, s) := by
  rw [portAccess_read_register (by decide) (by decide), regRead_ctrl, ctrlWord_eq]

/-! ## Writes -/

theorem regWrite_ctrl (v : Word) (s : State) : regWrite 0x00C v s = writeCtrl v s := rfl

theorem portAccess_write_ctrl (P : Params) (v : Word) (s : State) :
    portAccess P (.write 0x00C .word v) s = (⟨.okay, 0⟩, writeCtrl v s) := by
  rw [portAccess_write_register (by decide) (by decide), regWrite_ctrl]

theorem writeCtrl_no_reset {v : Word} (h : v.getLsbD 0 = false) (s : State) :
    writeCtrl v s = { s with irqEn := v.getLsbD 1 } := by
  simp only [writeCtrl, h, Bool.false_eq_true, if_false]

theorem writeCtrl_reset {v : Word} (h : v.getLsbD 0 = true) (s : State) :
    writeCtrl v s = softReset { s with irqEn := v.getLsbD 1 } := by
  simp only [writeCtrl, h, if_true]

theorem softReset_idle {s : State} (h : s.busy = false) :
    softReset s =
      { s with
        irqEn := false, done := false, cmdOvr := false, accErr := false, errcode := 0x00, cmd := 0,
        src0Addr := 0, src0Len := 0, src1Addr := 0, src1Len := 0, dstAddr := 0, dstLen := 0, outLen := 0,
        dbuf := [] } := by
  simp only [softReset, h, Bool.false_eq_true, if_false]

/-- The soft reset clears the IRQ_EN that the same write has set. -/
theorem softReset_irqEn_idle {s : State} (h : s.busy = false) (b : Bool) :
    softReset { s with irqEn := b } = softReset s := by
  rw [softReset_idle h, softReset_idle (s := { s with irqEn := b }) h]

@[simp] theorem softReset_dbuf_idle {s : State} (h : s.busy = false) : (softReset s).dbuf = [] := by
  rw [softReset_idle h]

/-- Settles O51: a write to CTRL reaches IRQ_EN only, unless bit 0 is set and the block idle, when it is a soft reset. -/
theorem controlWriteAndSoftReset : Obligations.ControlWriteAndSoftReset := by
  refine ⟨rfl, fun P v s => ?_⟩
  rw [portAccess_write_ctrl]
  refine ⟨portAccess_read_ctrl P s, ?_, ?_⟩
  · rintro (hbit | hbusy)
    · rw [writeCtrl_no_reset hbit]
    · rw [writeCtrl_busy hbusy]
  · intro hbit hidle
    have hreset : writeCtrl v s = softReset s := by
      rw [writeCtrl_reset hbit, softReset_irqEn_idle hidle]
    rw [hreset]
    refine ⟨by rw [softReset_idle hidle], fun a => ?_⟩
    rw [softReset_dbuf_idle hidle, readByte_nil, unlistedByte]

end Sys2Proof.Proofs.Control

/-! PROOFS. Command words (30_encoding.md R90 to R92, R96): a word is its two fields, and the decoder inverts the opcode
map. -/

namespace Sys2Proof.Proofs.Decoding

open Sys2Proof.Machine Sys2Proof.Claims

/-! ## The fields of a word -/

theorem word_eq_fields (w : Word) : w = reservedField w ++ opcodeField w := by
  apply BitVec.eq_of_toNat_eq
  have hw := w.isLt
  rw [Sha256.toNat_append_byte]
  simp only [reservedField, opcodeField, BitVec.extractLsb'_toNat, Nat.shiftRight_eq_div_pow, pow_zero, Nat.div_one]
  omega

theorem reservedField_eq_zero_iff (w : Word) : reservedField w = 0 ↔ w.toNat / 256 = 0 := by
  have hw := w.isLt
  rw [← BitVec.toNat_inj]
  simp only [reservedField, BitVec.extractLsb'_toNat, Nat.shiftRight_eq_div_pow]
  change _ % 2 ^ 24 = 0 ↔ _
  omega

theorem opcodeField_toNat (w : Word) : (opcodeField w).toNat = w.toNat % 256 := by
  simp [opcodeField]

@[simp] theorem reservedField_encode (i : Instr) : reservedField (encode i) = 0 := by cases i <;> decide
@[simp] theorem opcodeField_encode (i : Instr) : opcodeField (encode i) = opcode i := by cases i <;> decide

/-! ## The decoder -/

theorem decodeOpcode_eq_ok_iff (op : Byte) (i : Instr) : decodeOpcode op = .ok i ↔ op = opcode i := by
  constructor
  · intro h
    unfold decodeOpcode at h
    split_ifs at h with h1 h2 h3 h4 h5 h6 h7 h8 h9 <;> cases h <;> assumption
  · rintro rfl
    cases i <;> rfl

/-- A word is a command exactly when it is the command's encoding. -/
theorem decode_eq_ok_iff (w : Word) (i : Instr) : decode w = .ok i ↔ w = encode i := by
  constructor
  · intro h
    unfold decode at h
    split_ifs at h with hrsvd
    rw [word_eq_fields w, not_not.1 hrsvd, (decodeOpcode_eq_ok_iff _ i).1 h, encode]
  · rintro rfl
    rw [decode, reservedField_encode, opcodeField_encode, if_neg (by simp)]
    exact (decodeOpcode_eq_ok_iff _ i).2 rfl

/-- Settles O1: each clause is `decode_eq_ok_iff` for one command, whose encoding is the literal word. -/
theorem eachCommandHasExactlyOneWord : Obligations.EachCommandHasExactlyOneWord :=
  fun w => ⟨decode_eq_ok_iff w .modexp, decode_eq_ok_iff w .modexpInv, decode_eq_ok_iff w .modmul,
    decode_eq_ok_iff w .genExp, decode_eq_ok_iff w .sha256, decode_eq_ok_iff w .sha256Compress,
    decode_eq_ok_iff w .hmacSha256, decode_eq_ok_iff w .cbcEncrypt, decode_eq_ok_iff w .cbcDecrypt,
    decode_eq_ok_iff w⟩

/-- Settles O3: `decode_eq_ok_iff` at the encoding itself. -/
theorem decodeOfEncodeIsTheCommand : Obligations.DecodeOfEncodeIsTheCommand :=
  fun i _ => (decode_eq_ok_iff _ i).2 rfl

/-- Settles O2: the two refused words fall to the two tests of R92. -/
theorem specWordsDecodeToTheirCommands : Obligations.SpecWordsDecodeToTheirCommands :=
  ⟨(decode_eq_ok_iff _ .modexp).2 rfl, (decode_eq_ok_iff _ .sha256Compress).2 rfl,
    (decode_eq_ok_iff _ .hmacSha256).2 rfl, (decode_eq_ok_iff _ .cbcDecrypt).2 rfl, by decide, by decide⟩

/-! ## The ILLEGAL words -/

/-- The opcode map leaves exactly the ranges of R96. -/
theorem exists_opcode_iff (op : Byte) :
    (∃ i, op = opcode i) ↔ op.toNat ∈ [0x01, 0x02, 0x03, 0x04, 0x10, 0x11, 0x20, 0x30, 0x31] := by
  simp only [← BitVec.toNat_inj]
  constructor
  · rintro ⟨i, h⟩
    rw [h]
    cases i <;> decide
  · simp only [List.mem_cons, List.not_mem_nil, or_false]
    rintro (h | h | h | h | h | h | h | h | h)
    exacts [⟨.modexp, h⟩, ⟨.modexpInv, h⟩, ⟨.modmul, h⟩, ⟨.genExp, h⟩, ⟨.sha256, h⟩, ⟨.sha256Compress, h⟩,
      ⟨.hmacSha256, h⟩, ⟨.cbcEncrypt, h⟩, ⟨.cbcDecrypt, h⟩]

theorem exists_decode_eq_ok_iff (w : Word) :
    (∃ i, decode w = .ok i) ↔ reservedField w = 0 ∧ ∃ i, opcodeField w = opcode i := by
  simp only [decode_eq_ok_iff]
  constructor
  · rintro ⟨i, rfl⟩
    exact ⟨reservedField_encode i, i, opcodeField_encode i⟩
  · rintro ⟨hrsvd, i, hop⟩
    exact ⟨i, by rw [word_eq_fields w, hrsvd, hop, encode]⟩

theorem exists_decode_eq_error_iff (w : Word) : (∃ e, decode w = .error e) ↔ ¬∃ i, decode w = .ok i := by
  cases decode w <;> simp

/-- 30_encoding.md R96 for the decoder of R92. -/
theorem decode_error_iff_listedIllegal (w : Word) : (∃ e, decode w = .error e) ↔ ListedIllegal w := by
  rw [exists_decode_eq_error_iff, exists_decode_eq_ok_iff, exists_opcode_iff, reservedField_eq_zero_iff,
    opcodeField_toNat]
  have hop : w.toNat % 256 < 256 := Nat.mod_lt _ (by decide)
  simp only [ListedIllegal, List.mem_cons, List.not_mem_nil, or_false]
  omega

end Sys2Proof.Proofs.Decoding

/-! PROOFS. One step (40_command_execution.md R111, 70_reset_and_hazards.md R300): what each kind of move makes of the
state. -/

namespace Sys2Proof.Proofs.Steps

open Sys2Proof.Machine Sys2Proof.Claims Sys2Proof.Proofs.Decoding

section
variable {s s' : State}

/-! ## A step by its move -/

theorem step_host {a : Access} (hm : nextMove s = (.host a, s')) : step s = .next (afterAccess a s') := by
  simp only [step, hm]
  rfl

theorem step_reset (hm : nextMove s = (.reset, s')) : step s = .next (hardwareReset s') := by
  simp only [step, hm]

theorem step_idle (hm : nextMove s = (.idle, s')) : step s = .next s' := by
  simp only [step, hm]

theorem step_command {L : Descriptor} {i : Instr} (hm : nextMove s = (.complete, s')) (hl : s'.latched = some L)
    (hd : decode L.cmd = .ok i) : step s = exec i s' := by
  simp only [step, hm, fetch, hl, hd]

theorem step_illegal {L : Descriptor} {e : IllegalWord} (hm : nextMove s = (.complete, s')) (hl : s'.latched = some L)
    (hd : decode L.cmd = .error e) : step s = runIllegal s' := by
  simp only [step, hm, fetch, hl, hd]

theorem runIllegal_eq {L : Descriptor} (hl : s.latched = some L) :
    runIllegal s = .next (complete L (.err (if s.fatal then .entropy else .illegalCmd)) s) := by
  simp only [runIllegal, hl]

/-- A latched word of R96 completes, whatever the word. -/
theorem step_listedIllegal {L : Descriptor} (hm : nextMove s = (.complete, s')) (hl : s'.latched = some L)
    (hw : ListedIllegal L.cmd) : step s = .next (if s'.fatal then entropyState s' else errState 0x01 s') := by
  obtain ⟨e, he⟩ := (decode_error_iff_listedIllegal _).2 hw
  rw [step_illegal hm hl he, runIllegal_eq hl]
  split
  · rw [complete_entropy_eq]
  · rw [complete_err_eq (by decide), errNumber]

/-! ## The next move -/

theorem nextMove_engine_busy {rest : List Turn} (h : s.turns = .engine :: rest) (hb : s.busy = true) :
    nextMove s = (.complete, { s with turns := rest }) := by
  rw [nextMove_engine h, if_pos hb]

theorem nextMove_engine_idle {rest : List Turn} (h : s.turns = .engine :: rest) (hb : s.busy = false) :
    nextMove s = (.idle, { s with turns := rest }) := by
  rw [nextMove_engine h, hb]
  rfl

theorem nextMove_none_busy (h : s.turns = []) (hb : s.busy = true) : nextMove s = (.complete, s) := by
  simp only [nextMove, h, hb, if_true]

theorem nextMove_none_idle (h : s.turns = []) (hb : s.busy = false) : nextMove s = (.idle, s) := by
  simp only [nextMove, h, hb, Bool.false_eq_true, if_false]

end

/-- Settles O4: the decoder refuses exactly the listed words, and a refused word completes by `step_listedIllegal`. -/
theorem listedWordsAreIllegalAndBehaveAlike : Obligations.ListedWordsAreIllegalAndBehaveAlike := by
  refine ⟨decode_error_iff_listedIllegal, ?_, ?_⟩
  · intro s L rest hturns hbusy ⟨hlatched, hfatal⟩ hw
    rw [step_listedIllegal (nextMove_engine_busy hturns hbusy) hlatched hw, if_neg (by simp [hfatal])]
  · intro s L rest hturns hbusy hlatched hfatal hw
    rw [step_listedIllegal (nextMove_engine_busy hturns hbusy) hlatched hw, if_pos hfatal]

/-- Settles O5: the engine's turn of a busy block. -/
theorem stepRunsTheDecodedCommand : Obligations.StepRunsTheDecodedCommand :=
  fun _ _ _ _ hturns hbusy hlatched hd => step_command (nextMove_engine_busy hturns hbusy) hlatched hd

/-- Settles O6: the empty list of turns gives an idle block no move and a busy one its completion. -/
theorem stepWithNoTurnLeft : Obligations.StepWithNoTurnLeft :=
  fun _ hturns => ⟨fun hidle => step_idle (nextMove_none_idle hturns hidle),
    fun _ _ hbusy hlatched hd => step_command (nextMove_none_busy hturns hbusy) hlatched hd,
    fun _ hbusy hlatched hw => step_listedIllegal (nextMove_none_busy hturns hbusy) hlatched hw⟩

/-! ## Bus accesses -/

/-- The access moved to the offset `off` of the port. -/
def atOffset (off : Nat) : Access → Access
  | .read _ w => .read off w
  | .write _ w v => .write off w v

/-- The bus address of an access. -/
def address : Access → Nat
  | .read addr _ => addr
  | .write addr _ _ => addr

theorem reach_eq (P : Params) (m : Nat) (a : Access) :
    reach P m a = (portOffset P m (address a)).map fun off => atOffset off a := by
  cases a <;> rfl

/-- A bus access reaches the port less BASE, from a master that ACCESS_POLICY admits, and else only takes its turn. -/
theorem step_bus {s : State} {m : Nat} {a : Access} {rest : List Turn} (h : s.turns = .bus m a :: rest) :
    step s = .next
      (if Config.params.accessPolicy m = true ∧ Config.params.base ≤ address a then
        afterAccess (atOffset (address a - Config.params.base) a) { s with turns := rest }
      else { s with turns := rest }) := by
  have hreach := reach_eq Config.params m a
  unfold portOffset at hreach
  split at hreach
  · next hadmit => rw [step_host (nextMove_bus_reaches h hreach), if_pos hadmit]
  · next hkept => rw [step_idle (nextMove_bus_kept h hreach), if_neg hkept]

/-- Settles O7: one clause for each kind of turn. -/
theorem stepTakesTheScheduledTurn : Obligations.StepTakesTheScheduledTurn :=
  ⟨fun _ _ _ h => step_host (nextMove_host h), fun _ _ _ _ _ h => step_bus h, fun _ _ _ _ _ _ h => step_bus h,
    fun _ _ h => step_reset (nextMove_reset h), fun _ _ h hidle => step_idle (nextMove_engine_idle h hidle)⟩

/-- Settles O52: the step is the hardware reset. -/
theorem hardwareResetClearsEveryPieceOfState : Obligations.HardwareResetClearsEveryPieceOfState :=
  fun _ _ h => ⟨_, step_reset (nextMove_reset h), rfl, rfl, rfl, rfl, rfl, rfl, rfl, rfl, rfl, rfl, rfl, rfl, rfl,
    rfl, rfl, rfl, fun _ => rfl, rfl, rfl, rfl, rfl, rfl⟩

end Sys2Proof.Proofs.Steps

/-! PROOFS. One equation for every command (40_command_execution.md R116 to R118): a command in flight completes with a
result that is a function of the latched descriptor, FATAL, DBUF and the oracle's answer. -/

namespace Sys2Proof.Proofs.Completion

open Sys2Proof.Machine Sys2Proof.Claims

/-- What the command's own computation comes to, the checks left aside; `answer` is the oracle's, for the two commands
that draw. -/
def ownResult (i : Instr) (L : Descriptor) (D : Memory) (answer : Option Nat) : Result :=
  match i with
  | .modexp => modexpResult Config.params L D
  | .modexpInv => modexpInvResult Config.params L D
  | .modmul => modmulResult Config.params L D
  | .genExp => answer.elim (.err .entropy) (genExpResult Config.params L D)
  | .sha256 => sha256Result L D
  | .sha256Compress => sha256CompressResult L D
  | .hmacSha256 => hmacResult L D
  | .cbcEncrypt => answer.elim (.err .entropy) (cbcEncryptResult Config.params L D)
  | .cbcDecrypt => cbcDecryptResult Config.params L D

/-- `Exec` of 40_command_execution.md R117: the first failing check, or else the command's own result. -/
def commandResult (i : Instr) (L : Descriptor) (fatal : Bool) (D : Memory) (answer : Option Nat) : Result :=
  (checks Config.params i fatal L).elim (ownResult i L D answer) .err

/-- The state a completion is made from: a drawing command that passes its checks has taken an answer. -/
def afterDraw (i : Instr) (L : Descriptor) (s : State) : State :=
  if (i = .genExp ∨ i = .cbcEncrypt) ∧ checks Config.params i s.fatal L = none then (draw s).2 else s

section
variable {i : Instr} {L : Descriptor}

theorem commandResult_of_check {fatal : Bool} {c : ErrCode} (h : checks Config.params i fatal L = some c) (D : Memory)
    (answer : Option Nat) : commandResult i L fatal D answer = .err c := by
  rw [commandResult, h, Option.elim_some]

theorem commandResult_of_pass {fatal : Bool} (h : checks Config.params i fatal L = none) (D : Memory)
    (answer : Option Nat) : commandResult i L fatal D answer = ownResult i L D answer := by
  rw [commandResult, h, Option.elim_none]

/-- Either nothing is drawn, or one answer is taken by a command that draws. -/
theorem afterDraw_cases (i : Instr) (L : Descriptor) (s : State) :
    afterDraw i L s = s ∨ (Draws i ∧ afterDraw i L s = (draw s).2) := by
  unfold afterDraw
  split
  · next h => exact .inr ⟨h.1, rfl⟩
  · exact .inl rfl

theorem afterDraw_of_not_draws (h : ¬Draws i) (s : State) : afterDraw i L s = s :=
  if_neg fun hd => h hd.1

theorem afterDraw_of_check {s : State} {c : ErrCode} (h : checks Config.params i s.fatal L = some c) :
    afterDraw i L s = s :=
  if_neg fun hd => by simp [h] at hd

theorem afterDraw_of_pass {s : State} (hi : Draws i) (h : checks Config.params i s.fatal L = none) :
    afterDraw i L s = (draw s).2 :=
  if_pos ⟨hi, h⟩

@[simp] theorem afterDraw_dbuf (s : State) : (afterDraw i L s).dbuf = s.dbuf := by
  obtain h | ⟨-, h⟩ := afterDraw_cases i L s <;> simp [h]

@[simp] theorem afterDraw_fatal (s : State) : (afterDraw i L s).fatal = s.fatal := by
  obtain h | ⟨-, h⟩ := afterDraw_cases i L s <;> simp [h]

end

theorem not_draws {i : Instr} (h0 : i ≠ .genExp) (h1 : i ≠ .cbcEncrypt) : ¬Draws i := by
  rintro (h | h)
  · exact h0 h
  · exact h1 h

section
variable {i : Instr} {s : State} {L : Descriptor}

theorem runCommand_eq (hi : ¬Draws i) {body : Descriptor → Memory → Result} (hl : s.latched = some L)
    (hbody : ∀ answer, ownResult i L s.dbuf answer = body L s.dbuf) :
    runCommand Config.params i body s =
      .next (complete L (commandResult i L s.fatal s.dbuf (draw s).1) (afterDraw i L s)) := by
  rw [afterDraw_of_not_draws hi]
  cases hc : checks Config.params i s.fatal L with
  | some c => rw [runCommand_err hl hc, commandResult_of_check hc]
  | none => rw [runCommand_ok hl hc, commandResult_of_pass hc, hbody]

theorem runDrawing_eq (hi : Draws i) {body : Descriptor → Memory → Nat → Result} (hl : s.latched = some L)
    (hbody : ∀ answer, ownResult i L s.dbuf answer = answer.elim (.err .entropy) (body L s.dbuf)) :
    runDrawing Config.params i body s =
      .next (complete L (commandResult i L s.fatal s.dbuf (draw s).1) (afterDraw i L s)) := by
  cases hc : checks Config.params i s.fatal L with
  | some c => rw [runDrawing_err hl hc, commandResult_of_check hc, afterDraw_of_check hc]
  | none =>
    rw [commandResult_of_pass hc, hbody, afterDraw_of_pass hi hc]
    cases hd : (draw s).1 with
    | none => rw [runDrawing_fail hl hc hd, Option.elim_none]
    | some n => rw [runDrawing_ok hl hc hd, Option.elim_some]

/-- What a command in flight does, once for all nine. -/
theorem exec_eq (hl : s.latched = some L) :
    exec i s = .next (complete L (commandResult i L s.fatal s.dbuf (draw s).1) (afterDraw i L s)) := by
  cases i with
  | genExp => exact runDrawing_eq (.inl rfl) hl fun _ => rfl
  | cbcEncrypt => exact runDrawing_eq (.inr rfl) hl fun _ => rfl
  | modexp | modexpInv | modmul | sha256 | sha256Compress | hmacSha256 | cbcDecrypt =>
    exact runCommand_eq (not_draws (by simp) (by simp)) hl fun _ => rfl

/-- `exec_eq` read backwards: the next state of a command is its completion. -/
theorem eq_of_exec (hl : s.latched = some L) {t : State} (h : exec i s = .next t) :
    t = complete L (commandResult i L s.fatal s.dbuf (draw s).1) (afterDraw i L s) := by
  rw [exec_eq hl] at h
  injection h with h
  exact h.symm

theorem latched_of_exec {t : State} (h : exec i s = .next t) : ∃ L, s.latched = some L := by
  obtain ⟨L, _, _, hc⟩ := exec_next h
  exact ⟨L, hc.latched⟩

end

/-! ## What every completion leaves -/

section
variable (L : Descriptor) (r : Result) (s : State)

@[simp] theorem complete_done : (complete L r s).done = true := by cases r <;> rfl
@[simp] theorem complete_latched : (complete L r s).latched = none := by cases r <;> rfl

theorem errNumber_le (c : ErrCode) : (errNumber c).toNat ≤ 8 := by cases c <;> decide

/-- Every code a completion writes is one of 60_exceptions.md R270. -/
theorem complete_errcode_le : (complete L r s).errcode.toNat ≤ 8 := by
  cases r with
  | ok out => simp [okNumber]
  | err c => exact errNumber_le c

theorem errNumber_eq_eight_iff (c : ErrCode) : errNumber c = 0x08 ↔ c = .entropy := by cases c <;> decide

/-- FATAL is set exactly with code 0x08 (60_exceptions.md R272). -/
theorem complete_fatal : (complete L r s).fatal = (s.fatal || decide ((complete L r s).errcode = 0x08)) := by
  cases r with
  | ok out => simp [okNumber]
  | err c => rw [complete_err_fatal, complete_err_errcode, decide_eq_decide.2 (errNumber_eq_eight_iff c)]

end

/-- Settles O43: the completion that `exec_eq` gives, for any descriptor. -/
theorem everyCommandInFlightCompletes : Obligations.EveryCommandInFlightCompletes := by
  intro i s L hl
  exact ⟨_, exec_eq hl, complete_done _ _ _, HostPort.complete_busy _ _ _, complete_latched _ _ _,
    complete_errcode_le _ _ _⟩

end Sys2Proof.Proofs.Completion

/-! PROOFS. The invariant of the block (10_state.md R20; 40_command_execution.md R114, R118): every move of a step keeps
it. -/

namespace Sys2Proof.Proofs.Coherence

open Sys2Proof.Machine Sys2Proof.Claims Sys2Proof.Proofs.HostPort Sys2Proof.Proofs.Control
  Sys2Proof.Proofs.Completion Sys2Proof.Proofs.Steps

/-- The fields that the invariant speaks of. -/
def coherenceFields (s : State) : Bool × Bool × Bool × Byte × Word × Word × Option Descriptor × Memory :=
  (s.busy, s.done, s.fatal, s.errcode, s.cmd, s.outLen, s.latched, s.dbuf)

/-- The invariant does not look at the enable bits, the descriptor registers, or the environment. -/
theorem coherent_of_fields_eq {s t : State} (h : Coherent s) (he : coherenceFields t = coherenceFields s) :
    Coherent t := by
  simp only [coherenceFields, Prod.mk.injEq] at he
  obtain ⟨hbusy, hdone, hfatal, herr, hcmd, hout, hlat, hdbuf⟩ := he
  exact ⟨by rw [hbusy, hlat, h.busy_latched], by rw [hlat, hdone, herr, hout, hcmd]; exact h.in_flight,
    herr ▸ h.errcode_listed, by rw [herr, hout]; exact h.error_no_output, by rw [herr, hfatal]; exact h.entropy_fatal,
    hdbuf ▸ h.dbuf_wf, hdbuf ▸ h.dbuf_below⟩

theorem latched_none_of_idle {s : State} (h : Coherent s) (hb : s.busy = false) : s.latched = none := by
  rw [← Option.not_isSome_iff_eq_none, ← h.busy_latched, hb]
  decide

theorem latched_some_of_busy {s : State} (h : Coherent s) (hb : s.busy = true) : ∃ L, s.latched = some L :=
  Option.isSome_iff_exists.1 (h.busy_latched ▸ hb)

/-! ## Resets -/

/-- Settles O41: nothing is latched, no code is set and DBUF is the empty list. -/
theorem resetIsCoherent : Obligations.ResetIsCoherent :=
  ⟨rfl, by simp [State.reset], by decide, by simp [State.reset], by simp [State.reset], rfl, rfl⟩

theorem coherent_hardwareReset (s : State) : Coherent (hardwareReset s) :=
  coherent_of_fields_eq resetIsCoherent rfl

theorem coherent_softReset {s : State} (h : Coherent s) : Coherent (softReset s) := by
  cases hb : s.busy with
  | true => rwa [softReset_busy hb]
  | false =>
    have hlat := latched_none_of_idle h hb
    rw [softReset_idle hb]
    exact ⟨by simp [hb, hlat], by simp [hlat], by simp, by simp, by simp, rfl, rfl⟩

/-! ## Host accesses -/

theorem coherent_writeCtrl {s : State} (h : Coherent s) (v : Word) : Coherent (writeCtrl v s) := by
  have hset : Coherent { s with irqEn := v.getLsbD 1 } := coherent_of_fields_eq h rfl
  unfold writeCtrl
  split
  · exact coherent_softReset hset
  · exact hset

/-- A write to STATUS can only clear DONE, which is 0 already while a command is in flight. -/
theorem coherent_clearStatus {s : State} (h : Coherent s) (v : Word) : Coherent (clearStatus v s) := by
  refine ⟨h.busy_latched, fun L hL => ?_, h.errcode_listed, h.error_no_output, h.entropy_fatal, h.dbuf_wf, h.dbuf_below⟩
  obtain ⟨hdone, herr, hout, hcmd⟩ := h.in_flight L hL
  exact ⟨by simp [hdone], herr, hout, hcmd⟩

theorem coherent_accept {s : State} (h : Coherent s) (v : Word) : Coherent (accept v s) := by
  refine ⟨rfl, ?_, by simp [okNumber], by simp, by simp [okNumber], h.dbuf_wf, h.dbuf_below⟩
  rintro L hL
  obtain rfl : descriptorOf v s = L := by simpa using hL
  exact ⟨rfl, rfl, rfl, rfl⟩

theorem coherent_issueCommand {s : State} (h : Coherent s) (v : Word) : Coherent (issueCommand v s) := by
  unfold issueCommand
  split
  · exact coherent_of_fields_eq h rfl
  · exact coherent_accept h v

theorem coherent_regWrite {s : State} (h : Coherent s) (off : Nat) (v : Word) : Coherent (regWrite off v s) := by
  obtain e | e | e | e | ⟨_, _, _, _, _, _, e⟩ := regWrite_cases off v s
  · rwa [e]
  · rw [e]; exact coherent_writeCtrl h v
  · rw [e]; exact coherent_clearStatus h v
  · rw [e]; exact coherent_issueCommand h v
  · rw [e]; exact coherent_of_fields_eq h rfl

theorem coherent_dbuf_write {s : State} (h : Coherent s) {a : Nat} {bs : Bytes}
    (hfit : a + bs.length ≤ Config.params.bufBytes) : Coherent { s with dbuf := memWrite s.dbuf a bs } :=
  ⟨h.busy_latched, h.in_flight, h.errcode_listed, h.error_no_output, h.entropy_fatal, wf_memWrite h.dbuf_wf a bs,
    below_memWrite h.dbuf_below hfit⟩

theorem coherent_hostAccess {s : State} (h : Coherent s) (x : Access) : Coherent (hostAccess Config.params x s) := by
  have hport : Coherent (portAccess Config.params x s).2 := by
    obtain e | ⟨r, v, e⟩ | ⟨-, e⟩ | ⟨-, a, bs, hfit, e⟩ := portAccess_cases Config.params x s
    · rwa [e]
    · rw [e]; exact coherent_regWrite h r v
    · rw [e]; exact coherent_of_fields_eq h rfl
    · rw [e]; exact coherent_dbuf_write h hfit
  exact coherent_of_fields_eq hport rfl

/-! ## Completions -/

/-- A completion of any state whose DBUF is as it should be, with an output that fits, gives a coherent state. -/
theorem coherent_complete {L : Descriptor} {r : Result} {s : State} (hwf : Memory.wf s.dbuf = true)
    (hbelow : Memory.below Config.params.bufBytes s.dbuf = true)
    (hfit : ∀ out, r = .ok out → L.dstAddr.toNat + out.length ≤ Config.params.bufBytes) :
    Coherent (complete L r s) := by
  have hfatal := complete_fatal L r s
  refine ⟨by rw [complete_busy, complete_latched]; rfl, by simp, complete_errcode_le L r s, ?_,
    fun h => by rw [hfatal, h]; simp, ?_, ?_⟩
  all_goals cases r with
  | ok out => simp [okNumber, wf_memWrite hwf, below_memWrite hbelow (hfit out rfl)]
  | err c => simp [hwf, hbelow]

theorem coherent_of_completes {i : Instr} {L : Descriptor} {r : Result} {s s' t : State} (hc : Completes i L r s s' t)
    (h : Coherent s) : Coherent t := by
  have hdbuf : s'.dbuf = s.dbuf := by
    obtain e | ⟨-, e⟩ := hc.drawn <;> simp [e]
  rw [hc.result]
  refine coherent_complete (hdbuf ▸ h.dbuf_wf) (hdbuf ▸ h.dbuf_below) fun out ho => ?_
  obtain ⟨hpass, hlen⟩ := hc.fits out ho
  exact (Nat.add_le_add_left hlen _).trans (destination_fits hpass)

/-! ## Steps -/

theorem coherent_nextMove {s s' : State} {m : Move} (h : Coherent s) (hm : nextMove s = (m, s')) : Coherent s' := by
  obtain ⟨ts, hs, -⟩ := nextMove_spec s
  rw [hm] at hs
  subst hs
  exact coherent_of_fields_eq h rfl

/-- Settles O40: by the kind of move, each of which keeps the invariant by a lemma of its own. -/
theorem everyStepKeepsCoherence : Obligations.EveryStepKeepsCoherence := by
  intro s t h hstep
  obtain ⟨a, s', hm, rfl⟩ | ⟨s', -, rfl⟩ | ⟨s', hm, rfl⟩ | ⟨s', _, _, hm, -, -, hexec⟩ | ⟨s', _, _, hm, -, -, hill⟩ :=
    step_next hstep
  · exact coherent_hostAccess (coherent_nextMove h hm) a
  · exact coherent_hardwareReset s'
  · exact coherent_nextMove h hm
  · obtain ⟨L, r, u, hc⟩ := exec_next hexec
    exact coherent_of_completes hc (coherent_nextMove h hm)
  · obtain ⟨L, -, rfl⟩ := runIllegal_next hill
    have h' := coherent_nextMove h hm
    exact coherent_complete h'.dbuf_wf h'.dbuf_below fun out ho => by cases ho


/-- Settles O42: the engine steps only in a busy block, whose latch the invariant fills. -/
theorem coherentBlockNeverStops : Obligations.CoherentBlockNeverStops := by
  intro s h
  obtain ⟨ts, hs, hbusy⟩ := nextMove_spec s
  rcases hm : nextMove s with ⟨m, s'⟩
  rw [hm] at hs hbusy
  cases m with
  | host a => exact ⟨_, by simp only [step, hm]; rfl⟩
  | reset => exact ⟨_, by simp only [step, hm]; rfl⟩
  | idle => exact ⟨_, by simp only [step, hm]; rfl⟩
  | complete =>
    obtain ⟨L, hL⟩ := latched_some_of_busy h (hbusy rfl)
    have hl : s'.latched = some L := by
      subst hs
      exact hL
    cases hd : decode L.cmd with
    | ok i => exact ⟨_, (step_command hm hl hd).trans (exec_eq hl)⟩
    | error e => exact ⟨_, (step_illegal hm hl hd).trans (runIllegal_eq hl)⟩

end Sys2Proof.Proofs.Coherence

/-! PROOFS. What a step can do to FATAL and to a command in flight (10_state.md R27, R36; 70_reset_and_hazards.md
R300). -/

namespace Sys2Proof.Proofs.Safety

open Sys2Proof.Machine Sys2Proof.Claims Sys2Proof.Proofs.HostPort Sys2Proof.Proofs.Completion

/-! ## FATAL -/

theorem softReset_fatal (s : State) : (softReset s).fatal = s.fatal := by
  unfold softReset
  split <;> rfl

theorem regWrite_fatal (off : Nat) (v : Word) (s : State) : (regWrite off v s).fatal = s.fatal := by
  obtain e | e | e | e | ⟨_, _, _, _, _, _, e⟩ := regWrite_cases off v s
  · rw [e]
  · rw [e, writeCtrl]
    split
    · rw [softReset_fatal]
    · rfl
  · rw [e, clearStatus_fatal]
  · rw [e, issueCommand]
    split <;> rfl
  · rw [e]

/-- No host access touches FATAL, a soft reset among them. -/
theorem hostAccess_fatal (P : Params) (x : Access) (s : State) : (hostAccess P x s).fatal = s.fatal := by
  change (portAccess P x s).2.fatal = s.fatal
  obtain e | ⟨r, v, e⟩ | ⟨-, e⟩ | ⟨-, a, bs, -, e⟩ := portAccess_cases P x s
  · rw [e]
  · rw [e, regWrite_fatal]
  · rw [e]
  · rw [e]

theorem nextMove_fatal {s s' : State} {m : Move} (h : nextMove s = (m, s')) : s'.fatal = s.fatal := by
  obtain ⟨ts, hs, -⟩ := nextMove_spec s
  rw [h] at hs
  subst hs
  rfl

/-- What a step can do to FATAL: keep it, clear it by a hardware reset, or complete a command, which sets it with
code 0x08 only. -/
inductive FatalStep (s t : State) : Prop where
  | kept (h : t.fatal = s.fatal)
  | reset (hturn : ∃ rest, s.turns = .reset :: rest) (h : t.fatal = false)
  | completed (hbusy : s.busy = true) (hidle : t.busy = false) (hdone : t.done = true)
      (h : t.fatal = (s.fatal || decide (t.errcode = 0x08)))

theorem fatalStep_of_complete {s s' : State} (hm : nextMove s = (.complete, s')) {u : State} (hu : u.fatal = s'.fatal)
    (L : Descriptor) (r : Result) : FatalStep s (complete L r u) := by
  obtain ⟨_, -, hbusy⟩ := nextMove_spec s
  rw [hm] at hbusy
  exact .completed (hbusy rfl) (complete_busy L r u) (complete_done L r u)
    (by rw [complete_fatal, hu, nextMove_fatal hm])

theorem step_fatal {s t : State} (h : step s = .next t) : FatalStep s t := by
  obtain ⟨a, s', hm, rfl⟩ | ⟨s', hm, rfl⟩ | ⟨s', hm, rfl⟩ | ⟨s', _, i, hm, -, -, hexec⟩ | ⟨s', _, _, hm, -, -, hill⟩ :=
    step_next h
  · exact .kept (by rw [hostAccess_fatal, nextMove_fatal hm])
  · exact .reset (turns_of_nextMove_reset hm) rfl
  · exact .kept (nextMove_fatal hm)
  · obtain ⟨L, hL⟩ := latched_of_exec hexec
    rw [eq_of_exec hL hexec]
    exact fatalStep_of_complete hm (afterDraw_fatal s') L _
  · obtain ⟨L, -, rfl⟩ := runIllegal_next hill
    exact fatalStep_of_complete hm rfl L _

/-- Settles O44: of the three kinds of step only the reset clears FATAL. -/
theorem onlyAHardwareResetClearsFatal : Obligations.OnlyAHardwareResetClearsFatal := by
  intro s t hstep hs
  cases step_fatal hstep with
  | kept h => exact .inl (h.trans hs)
  | reset hturn _ => exact .inr hturn
  | completed _ _ _ h => exact .inl (by rw [h, hs, Bool.true_or])

/-- Settles O45: of the three kinds of step only the completion sets FATAL. -/
theorem onlyAnEntropyCompletionSetsFatal : Obligations.OnlyAnEntropyCompletionSetsFatal := by
  intro s t hstep hs ht
  cases step_fatal hstep with
  | kept h => simp [h, hs] at ht
  | reset _ h => simp [h] at ht
  | completed hbusy hidle hdone h => exact ⟨hbusy, hidle, hdone, by simpa [hs, ht] using h.symm⟩

/-! ## A command in flight -/

/-- The latch, DBUF, CMD, the result registers and FATAL: what the host may not disturb while a command is in flight. -/
def flightFields (s : State) : Option Descriptor × Memory × Word × Byte × Word × Bool :=
  (s.latched, s.dbuf, s.cmd, s.errcode, s.outLen, s.fatal)

theorem regWrite_flightFields {s : State} (hb : s.busy = true) (off : Nat) (v : Word) :
    flightFields (regWrite off v s) = flightFields s := by
  obtain e | e | e | e | ⟨_, _, _, _, _, _, e⟩ := regWrite_cases off v s
  · rw [e]
  · rw [e, writeCtrl_busy hb]; rfl
  · rw [e]; rfl
  · rw [e, issueCommand_busy hb]; rfl
  · rw [e]; rfl

theorem hostAccess_flightFields {P : Params} {s : State} (hb : s.busy = true) (x : Access) :
    flightFields (hostAccess P x s) = flightFields s := by
  change flightFields (portAccess P x s).2 = flightFields s
  obtain e | ⟨r, v, e⟩ | ⟨-, e⟩ | ⟨hidle, -⟩ := portAccess_cases P x s
  · rw [e]
  · rw [e, regWrite_flightFields hb]
  · rw [e]; rfl
  · simp [hb] at hidle

theorem nextMove_flightFields {s s' : State} {m : Move} (h : nextMove s = (m, s')) :
    flightFields s' = flightFields s := by
  obtain ⟨ts, hs, -⟩ := nextMove_spec s
  rw [h] at hs
  subst hs
  rfl

/-- Settles O46: a step from busy to busy is a host access or nothing. -/
theorem nothingDisturbsACommandInFlight : Obligations.NothingDisturbsACommandInFlight := by
  intro s t hstep hs ht
  obtain ⟨m, s', hm, e⟩ := step_next_of_busy hstep ht
  have hkeep : flightFields t = flightFields s := by
    obtain rfl | ⟨a, rfl⟩ := e
    · exact nextMove_flightFields hm
    · rw [hostAccess_flightFields ((nextMove_keeps hm).1.trans hs), nextMove_flightFields hm]
  simpa only [flightFields, Prod.mk.injEq] using hkeep

end Sys2Proof.Proofs.Safety

/-! PROOFS. What a command leaves unchanged (40_command_execution.md R118, R119): the registers of a completion, and the
bytes of DBUF outside the output. -/

namespace Sys2Proof.Proofs.Frames

open Sys2Proof.Machine Sys2Proof.Claims Sys2Proof.Proofs.Completion Sys2Proof.Proofs.Cbc

/-! ## Registers -/

/-- The registers that no completion and no draw writes. -/
def keptRegisters (s : State) :
    Bool × Bool × Bool × Word × Word × Word × Word × Word × Word × Word × List Turn × Option Reply :=
  (s.irqEn, s.cmdOvr, s.accErr, s.cmd, s.src0Addr, s.src0Len, s.src1Addr, s.src1Len, s.dstAddr, s.dstLen, s.turns,
    s.reply)

theorem complete_keptRegisters (L : Descriptor) (r : Result) (s : State) :
    keptRegisters (complete L r s) = keptRegisters s := by
  cases r <;> rfl

theorem draw_keptRegisters (s : State) : keptRegisters (draw s).2 = keptRegisters s := by
  simp [keptRegisters]

theorem afterDraw_keptRegisters (i : Instr) (L : Descriptor) (s : State) :
    keptRegisters (afterDraw i L s) = keptRegisters s := by
  obtain h | ⟨-, h⟩ := afterDraw_cases i L s
  · rw [h]
  · rw [h, draw_keptRegisters]

theorem complete_rng (L : Descriptor) (r : Result) (s : State) :
    (complete L r s).rng = s.rng ∧ (complete L r s).draws = s.draws := by
  cases r <;> exact ⟨rfl, rfl⟩

/-- Settles O33: by `exec_eq` the next state is a completion, of the same state but for a draw. -/
theorem completionLeavesTheOtherRegisters : Obligations.CompletionLeavesTheOtherRegisters := by
  intro i s t hexec
  obtain ⟨L, hL⟩ := latched_of_exec hexec
  have ht := eq_of_exec hL hexec
  have hkept : keptRegisters t = keptRegisters s := by
    rw [ht, complete_keptRegisters, afterDraw_keptRegisters]
  have hdone : t.done = true := by rw [ht, complete_done]
  have hbusy : t.busy = false := by rw [ht, HostPort.complete_busy]
  have hlat : t.latched = none := by rw [ht, complete_latched]
  have hfatal : t.fatal = (s.fatal || decide (t.errcode = 0x08)) := by rw [ht, complete_fatal, afterDraw_fatal]
  have hrng : i ≠ .genExp → i ≠ .cbcEncrypt → t.rng = s.rng ∧ t.draws = s.draws := by
    intro h0 h1
    rw [ht, afterDraw_of_not_draws (not_draws h0 h1)]
    exact complete_rng L _ s
  simp only [keptRegisters, Prod.mk.injEq] at hkept
  obtain ⟨h1, h2, h3, h4, h5, h6, h7, h8, h9, h10, h11, h12⟩ := hkept
  have hirq : irq t = s.irqEn := by rw [irq, hdone, h1, Bool.true_and]
  exact ⟨h1, h2, h3, h4, h5, h6, h7, h8, h9, h10, h11, h12, hdone, hbusy, hlat, hfatal, hirq, by simp [irqInput, hirq],
    fun n hn => by simp [irqInput, hn], hrng⟩

/-! ## DBUF -/

/-- The output of a command has the length of the DSTMAX column (30_encoding.md R93), that of CBC_DECRYPT at most it. -/
def HasOutputLength (i : Instr) (L : Descriptor) (out : Bytes) : Prop :=
  if i = .cbcDecrypt then out.length ≤ outputMax i L else out.length = outputMax i L

theorem HasOutputLength.le {i : Instr} {L : Descriptor} {out : Bytes} (h : HasOutputLength i L out) :
    out.length ≤ outputMax i L := by
  unfold HasOutputLength at h
  split at h
  · exact h
  · exact h.le

theorem ownResult_length {i : Instr} {L : Descriptor} {D : Memory} {answer : Option Nat} {out : Bytes}
    (h : ownResult i L D answer = .ok out) : HasOutputLength i L out := by
  cases i with
  | modexp => exact modexpResult_length h
  | modexpInv => exact modexpInvResult_length h
  | modmul => exact modmulResult_length h
  | genExp =>
    cases answer with
    | none => cases h
    | some n => exact genExpResult_length (L := L) (D := D) h
  | sha256 => exact sha256Result_length h
  | sha256Compress => exact sha256CompressResult_length h
  | hmacSha256 => exact hmacResult_length h
  | cbcEncrypt =>
    cases answer with
    | none => cases h
    | some n => exact cbcEncryptResult_length Config.params_admissible h
  | cbcDecrypt => exact cbcDecryptResult_length h

/-- An output is committed after the checks, and then it fits. -/
theorem commandResult_ok {i : Instr} {L : Descriptor} {fatal : Bool} {D : Memory} {answer : Option Nat} {out : Bytes}
    (h : commandResult i L fatal D answer = .ok out) :
    ownResult i L D answer = .ok out ∧ HasOutputLength i L out ∧ L.dstAddr.toNat + outputMax i L ≤ BUF := by
  cases hc : checks Config.params i fatal L with
  | some c => rw [commandResult_of_check hc] at h; cases h
  | none =>
    rw [commandResult_of_pass hc] at h
    exact ⟨h, ownResult_length h, dstMax_eq i L ▸ destination_fits hc⟩

/-- What a command that answers a next state does to DBUF and OUT_LEN. -/
structure WritesOutput (i : Instr) (L : Descriptor) (s t : State) : Prop where
  error : t.errcode ≠ 0 → t.dbuf = s.dbuf ∧ t.outLen = 0
  length : t.errcode = 0 → i ≠ .cbcDecrypt → t.outLen.toNat = outputMax i L
  length_le : t.outLen.toNat ≤ outputMax i L
  outside : ∀ a, ¬Inside L.dstAddr.toNat t.outLen.toNat a → readByte t.dbuf a = readByte s.dbuf a

theorem exec_writesOutput {i : Instr} {s t : State} {L : Descriptor} (hl : s.latched = some L)
    (hexec : exec i s = .next t) : WritesOutput i L s t := by
  rw [eq_of_exec hl hexec]
  cases hr : commandResult i L s.fatal s.dbuf (draw s).1 with
  | err c =>
    exact ⟨by simp, fun h => absurd h (errNumber_ne_zero c), by simp, by simp⟩
  | ok out =>
    obtain ⟨-, hlen, hfit⟩ := commandResult_ok hr
    have hle := hlen.le
    have hout : (BitVec.ofNat 32 out.length : Word).toNat = out.length :=
      toNat_of_fits (k := 0) (hle.trans ((Nat.le_add_left _ _).trans hfit))
    refine ⟨fun h => absurd rfl h, ?_, ?_, ?_⟩
    · intro _ hi
      rw [complete_ok_outLen, hout]
      rwa [HasOutputLength, if_neg hi] at hlen
    · rw [complete_ok_outLen, hout]
      exact hle
    · intro a ha
      rw [complete_ok_outLen, hout] at ha
      rw [complete_ok_dbuf, readByte_memWrite_outside (by unfold Inside at ha; omega), afterDraw_dbuf]

/-- A command that writes `n` bytes writes them at its destination and nowhere else. -/
theorem WritesOutput.frame {i : Instr} {L : Descriptor} {s t : State} (h : WritesOutput i L s t) {n : Nat}
    (hn : outputMax i L = n) (hi : i ≠ .cbcDecrypt) :
    (t.errcode ≠ 0 → t.dbuf = s.dbuf ∧ t.outLen = 0) ∧ (t.errcode = 0 → t.outLen.toNat = n) ∧
      ∀ a, ¬Inside L.dstAddr.toNat n a → readByte t.dbuf a = readByte s.dbuf a := by
  subst hn
  refine ⟨h.error, fun h0 => h.length h0 hi, fun a ha => h.outside a fun hin => ha ⟨hin.1, ?_⟩⟩
  have hle := h.length_le
  have hlt := hin.2
  omega

/-- Settles O34: the four commands write LP bytes. -/
theorem modExpCommandsWriteOnlyTheirResult : Obligations.ModExpCommandsWriteOnlyTheirResult := by
  intro i s t L hi hl hexec
  have h := exec_writesOutput hl hexec
  obtain rfl | rfl | rfl | rfl := hi <;> exact h.frame rfl (by simp)

/-- Settles O35: the three commands write 32 bytes. -/
theorem hashCommandsWriteOnlyTheirDigest : Obligations.HashCommandsWriteOnlyTheirDigest := by
  intro i s t L hi hl hexec
  have h := exec_writesOutput hl hexec
  obtain rfl | rfl | rfl := hi <;> exact h.frame rfl (by simp)

/-- Settles O36: the record has the length of R230. -/
theorem encryptWritesOnlyItsRecord : Obligations.EncryptWritesOnlyItsRecord :=
  fun _ _ _ hl hexec => (exec_writesOutput hl hexec).frame rfl (by simp)

/-- Settles O37: the plaintext's own length bounds what is written. -/
theorem decryptWritesOnlyItsPlaintext : Obligations.DecryptWritesOnlyItsPlaintext := by
  intro s t L hl hexec
  have h := exec_writesOutput hl hexec
  exact ⟨h.error, h.length_le, h.outside⟩

end Sys2Proof.Proofs.Frames

/-! PROOFS. What a command reads (40_command_execution.md R116, 20_memory.md section 4): the latched descriptor, FATAL,
the oracle's answer, and of DBUF the source regions only. -/

namespace Sys2Proof.Proofs.Inputs

open Sys2Proof.Machine Sys2Proof.Claims Sys2Proof.Proofs.Completion Sys2Proof.Proofs.Frames

/-- The oracle's answer is a function of its list and its count. -/
theorem draw_answer_congr {s s' : State} (hrng : s'.rng = s.rng) (hdraws : s'.draws = s.draws) :
    (draw s').1 = (draw s).1 := by
  cases h : s.rng with
  | nil => rw [draw_free h, draw_free (hrng.trans h), hdraws]
  | cons a rest => rw [draw_supplied h, draw_supplied (hrng.trans h)]

/-- Settles O38: in `exec_eq` the result is a function of the agreed fields. -/
theorem resultDependsOnlyOnTheLatchedInputs : Obligations.ResultDependsOnlyOnTheLatchedInputs := by
  intro i s s' t hlat hdbuf hfatal hrng hdraws hexec
  obtain ⟨L, hL⟩ := latched_of_exec hexec
  rw [eq_of_exec hL hexec, exec_eq (hlat.trans hL), hdbuf, hfatal, draw_answer_congr hrng hdraws]
  refine ⟨_, rfl, ?_⟩
  cases commandResult i L s.fatal s.dbuf (draw s).1 <;> simp [hdbuf, hfatal]

theorem source_congr {D D' : Memory} {l : List (Nat × Nat)} (h : ∀ r ∈ l, memRead D' r.1 r.2 = memRead D r.1 r.2)
    {a m n : Nat} (hr : (a, m) ∈ l) (hn : m = n) : memRead D' a n = memRead D a n :=
  hn ▸ h _ hr

/-- The fixed lengths are those of the slots, so a command that passes its checks reads its source regions. -/
theorem ownResult_congr {i : Instr} {L : Descriptor} {D D' : Memory} (hlen : FixedLengthsHold i L)
    (h : ∀ r ∈ sourceList i L, memRead D' r.1 r.2 = memRead D r.1 r.2) (answer : Option Nat) :
    ownResult i L D' answer = ownResult i L D answer := by
  cases i with
  | genExp => rfl
  | sha256 =>
    have h0 := source_congr h List.mem_cons_self rfl
    simp only [ownResult, sha256Result, h0]
  | modexp | modexpInv | modmul =>
    have h0 : operand0 Config.params L D' = operand0 Config.params L D :=
      congrArg be2int (source_congr h List.mem_cons_self hlen.1)
    have h1 : operand1 Config.params L D' = operand1 Config.params L D :=
      congrArg be2int (source_congr h (List.mem_cons_of_mem _ List.mem_cons_self) hlen.2)
    simp only [ownResult, modexpResult, modexpInvResult, modmulResult, h0, h1]
  | sha256Compress =>
    have h0 := source_congr h List.mem_cons_self hlen.1
    have h1 := source_congr h (List.mem_cons_of_mem _ List.mem_cons_self) hlen.2
    simp only [ownResult, sha256CompressResult, h0, h1]
  | hmacSha256 =>
    have h0 := source_congr h List.mem_cons_self rfl
    have h1 := source_congr h (List.mem_cons_of_mem _ List.mem_cons_self) hlen
    simp only [ownResult, hmacResult, h0, h1]
  | cbcEncrypt =>
    have h0 : source0 L D' = source0 L D := source_congr h List.mem_cons_self rfl
    have h1 : symmetricKey L D' = symmetricKey L D := source_congr h (List.mem_cons_of_mem _ List.mem_cons_self) hlen
    have hbody : cbcEncryptResult Config.params L D' = cbcEncryptResult Config.params L D :=
      funext fun n => by rw [cbcEncryptResult, cbcEncryptResult, h0, h1]
    simp only [ownResult, hbody]
  | cbcDecrypt =>
    have h0 : source0 L D' = source0 L D := source_congr h List.mem_cons_self rfl
    have h1 : symmetricKey L D' = symmetricKey L D := source_congr h (List.mem_cons_of_mem _ List.mem_cons_self) hlen
    simp only [ownResult, cbcDecryptResult, h0, h1]

theorem commandResult_congr {i : Instr} {L : Descriptor} {D D' : Memory}
    (h : ∀ r ∈ sourceList i L, memRead D' r.1 r.2 = memRead D r.1 r.2) (fatal : Bool) (answer : Option Nat) :
    commandResult i L fatal D' answer = commandResult i L fatal D answer := by
  cases hc : checks Config.params i fatal L with
  | some c => rw [commandResult_of_check hc, commandResult_of_check hc]
  | none =>
    obtain ⟨-, -, hlengths, -, -⟩ := checks_eq_none_iff.1 hc
    have hgood := (lengthsOk_iff i L).1 hlengths
    rw [commandResult_of_pass hc, commandResult_of_pass hc,
      ownResult_congr (not_not.1 fun hbad => hgood (.inl hbad)) h]

/-- Two completions with the same output read alike over it. -/
theorem readByte_memWrite_inside_congr {m m' : Memory} (hm : Memory.wf m = true) (hm' : Memory.wf m' = true) {a x : Nat}
    {bs : Bytes} (h : Inside a bs.length x) : readByte (memWrite m' a bs) x = readByte (memWrite m a bs) x := by
  obtain ⟨hlo, hhi⟩ := h
  obtain ⟨k, rfl⟩ := Nat.exists_eq_add_of_le hlo
  have hk : k < bs.length := by omega
  exact Option.some.inj ((readByte_memWrite_inside hm' k hk).symm.trans (readByte_memWrite_inside hm k hk))

/-- Settles O39: the result depends on the source regions, and the output is read back as it was written. -/
theorem onlyTheSourceRegionsAreRead : Obligations.OnlyTheSourceRegionsAreRead := by
  intro i s s' t L hl hl' hfatal hrng hdraws hwf hwf' hagree hexec
  have hsources : ∀ r ∈ sourceList i L, memRead s'.dbuf r.1 r.2 = memRead s.dbuf r.1 r.2 :=
    fun r hr => memRead_congr fun k hlo hhi => hagree r hr k ⟨hlo, hhi⟩
  rw [eq_of_exec hl hexec, exec_eq hl', hfatal, draw_answer_congr hrng hdraws, commandResult_congr hsources]
  refine ⟨_, rfl, ?_⟩
  cases hr : commandResult i L s.fatal s.dbuf (draw s).1 with
  | err c => exact ⟨rfl, rfl, fun a ha => by simp [Inside] at ha; omega⟩
  | ok out =>
    refine ⟨rfl, rfl, fun a ha => ?_⟩
    obtain ⟨-, hlen, hfit⟩ := commandResult_ok hr
    have hle := hlen.le
    rw [complete_ok_outLen, toNat_of_fits (k := 0) (hle.trans ((Nat.le_add_left _ _).trans hfit))] at ha
    exact readByte_memWrite_inside_congr (by simpa using hwf) (by simpa using hwf') ha

end Sys2Proof.Proofs.Inputs

/-! PROOFS. The ordered checks (40_command_execution.md R117, 20_memory.md R75): region arithmetic, and the code of the
first check that fails. -/

namespace Sys2Proof.Proofs.CheckOrder

open Sys2Proof.Machine Sys2Proof.Claims Sys2Proof.Proofs.Completion

/-- Settles O9: the model's test is the negation of `ShareNoByte`. -/
theorem regionsOverlapWhenTheyShareAByte : Obligations.RegionsOverlapWhenTheyShareAByte := by
  intro P x y
  refine ⟨inBounds_iff, ?_⟩
  rw [← Bool.not_eq_false, ← shareNoByte_iff x.addr x.len y.addr y.len, ShareNoByte]
  push Not
  rfl

section
variable {i : Instr} {L : Descriptor}

theorem formatOk_eq_false_iff : formatOk i L = false ↔ FormatBad i L := by
  rw [← Bool.not_eq_true, formatOk_iff, not_not]

theorem lengthsOk_eq_false_iff : lengthsOk Config.params i L = false ↔ LengthBad i L := by
  rw [← Bool.not_eq_true, lengthsOk_iff, not_not]

theorem boundsOk_eq_false_iff : boundsOk Config.params i L = false ↔ BoundsBad i L := by
  rw [← Bool.not_eq_true, boundsOk_iff, not_not]

theorem disjointOk_eq_false_iff : disjointOk Config.params i L = false ↔ OverlapBad i L := by
  rw [← Bool.not_eq_true, disjointOk_iff, not_not]

theorem checks_fatal (P : Params) : checks P i true L = some .entropy := rfl

theorem checks_format (h : FormatBad i L) : checks Config.params i false L = some .format := by
  simp [checks, formatOk_eq_false_iff.2 h]

theorem checks_length (h0 : ¬FormatBad i L) (h : LengthBad i L) : checks Config.params i false L = some .length := by
  simp [checks, (formatOk_iff i L).2 h0, lengthsOk_eq_false_iff.2 h]

theorem checks_bounds (h0 : ¬FormatBad i L) (h1 : ¬LengthBad i L) (h : BoundsBad i L) :
    checks Config.params i false L = some .bounds := by
  simp [checks, (formatOk_iff i L).2 h0, (lengthsOk_iff i L).2 h1, boundsOk_eq_false_iff.2 h]

theorem checks_overlap (h0 : ¬FormatBad i L) (h1 : ¬LengthBad i L) (h2 : ¬BoundsBad i L) (h : OverlapBad i L) :
    checks Config.params i false L = some .overlap := by
  simp [checks, (formatOk_iff i L).2 h0, (lengthsOk_iff i L).2 h1, (boundsOk_iff i L).2 h2, disjointOk_eq_false_iff.2 h]

/-- A failing check completes the command with its code and nothing drawn. -/
theorem exec_of_check {s : State} {fatal : Bool} {c : ErrCode} (hl : s.latched = some L) (hf : s.fatal = fatal)
    (hc : checks Config.params i fatal L = some c) : exec i s = .next (complete L (.err c) s) := by
  subst hf
  rw [exec_eq hl, commandResult_of_check hc, afterDraw_of_check hc]

end

/-- Settles O8: each clause is the value of `checks` under its hypotheses. -/
theorem firstFailingCheckDecidesTheCode : Obligations.FirstFailingCheckDecidesTheCode := by
  intro i s L hl
  refine ⟨fun hf => ?_, fun hf h => ?_, fun hf h0 h => ?_, fun hf h0 h1 h => ?_, fun hf h0 h1 h2 h => ?_⟩
  · rw [exec_of_check hl hf (checks_fatal _), complete_entropy_eq]
  · rw [exec_of_check hl hf (checks_format h), complete_err_eq (by decide), errNumber]
  · rw [exec_of_check hl hf (checks_length h0 h), complete_err_eq (by decide), errNumber]
  · rw [exec_of_check hl hf (checks_bounds h0 h1 h), complete_err_eq (by decide), errNumber]
  · rw [exec_of_check hl hf (checks_overlap h0 h1 h2 h), complete_err_eq (by decide), errNumber]

end Sys2Proof.Proofs.CheckOrder

/-! PROOFS. The results of the commands (41_modexp.md R144 to R147, 42_sha256.md R177, 43_hmac.md R201, 44_cbc_pkcs7.md
R224, R225): what a command that passes its checks writes, or which code it gives. -/

namespace Sys2Proof.Proofs.Results

open Sys2Proof.Machine Sys2Proof.Claims Sys2Proof.Proofs.Completion Sys2Proof.Proofs.Ladder Sys2Proof.Proofs.Cbc

/-! ## The ModExp family -/

section
variable {s : State} {L : Descriptor} (hready : Ready L s)
include hready

theorem exec_modexp_of_operands (h : TwoElementOperands L) :
    exec .modexp s = .next (complete L (modexpResult Config.params L s.dbuf) s) :=
  runCommand_ok hready.1 (twoElement_checks (.inl rfl) hready.2 h)

theorem exec_modexpInv_of_operands (h : TwoElementOperands L) :
    exec .modexpInv s = .next (complete L (modexpInvResult Config.params L s.dbuf) s) :=
  runCommand_ok hready.1 (twoElement_checks (.inr (.inl rfl)) hready.2 h)

theorem exec_modmul_of_operands (h : TwoElementOperands L) :
    exec .modmul s = .next (complete L (modmulResult Config.params L s.dbuf) s) :=
  runCommand_ok hready.1 (twoElement_checks (.inr (.inr rfl)) hready.2 h)

end

/-- An operand of LP bytes is an exponent of the ladder. -/
theorem intAt_lt_two_pow_ladderBits (s : State) (addr : Word) : intAt s addr < 2 ^ Config.params.ladderBits := by
  have h := be2int_lt (bytesAt s addr LP)
  rwa [bytesAt_length, show 256 = 2 ^ 8 from rfl, ← pow_mul] at h

/-- Settles O11: the base is in range, and the ladder is the power. -/
theorem modexpWritesThePower : Obligations.ModexpWritesThePower := by
  intro s L hready hops hbase
  have hresult : modexpResult Config.params L s.dbuf = .ok (int2be LP (ladder Config.params (intAt s L.src0Addr)
      (intAt s L.src1Addr))) := modexpResult_eq_ok_iff.2 ⟨hbase, rfl⟩
  rw [exec_modexp_of_operands hready hops, hresult, ladder_eq_pow Config.one_lt_p _ (intAt_lt_two_pow_ladderBits _ _),
    complete_ok_eq]

/-- Settles O12: the exponent of the ladder is `q - e`. -/
theorem modexpInvWritesTheInversePower : Obligations.ModexpInvWritesTheInversePower := by
  intro s L hready hops hbase hpos hlt
  have hresult : modexpInvResult Config.params L s.dbuf = .ok (int2be LP (ladder Config.params (intAt s L.src0Addr)
      (Config.params.q - intAt s L.src1Addr))) := modexpInvResult_eq_ok_iff.2 ⟨hbase, ⟨hpos, hlt⟩, rfl⟩
  rw [exec_modexpInv_of_operands hready hops, hresult,
    ladder_eq_pow Config.one_lt_p _ (lt_two_pow_ladderBits (Nat.sub_le _ _)), complete_ok_eq]

/-- Settles O13: both factors are in range. -/
theorem modmulWritesTheProduct : Obligations.ModmulWritesTheProduct := by
  intro s L hready hops h0 h1
  rw [exec_modmul_of_operands hready hops, modmulResult_ok h0 h1, complete_ok_eq]
  rfl

theorem complete_range_eq (L : Descriptor) (s : State) : complete L (.err .range) s = errState 0x06 s :=
  complete_err_eq (by decide)

/-- Settles O14: each computation tests its operands before it computes (60_exceptions.md R273). -/
theorem outOfRangeOperandsGiveRange : Obligations.OutOfRangeOperandsGiveRange := by
  intro s L hready hops
  rw [exec_modexp_of_operands hready hops, exec_modexpInv_of_operands hready hops, exec_modmul_of_operands hready hops,
    ← complete_range_eq L]
  refine ⟨fun h => ⟨?_, ?_, ?_⟩, fun h0 h => ?_, fun h0 h => ?_⟩
  · rw [show modexpResult Config.params L s.dbuf = .err .range from if_pos h]
  · rw [show modexpInvResult Config.params L s.dbuf = .err .range from if_pos h]
  · rw [show modmulResult Config.params L s.dbuf = .err .range from if_pos (.inl h)]
  · rw [show modexpInvResult Config.params L s.dbuf = .err .range from (if_neg h0.not_ge).trans (if_pos h)]
  · rw [show modmulResult Config.params L s.dbuf = .err .range from if_pos (.inr h)]

/-! ## GEN_EXP -/

/-- Every answer stands for an exponent of `[1, q-1]` (41_modexp.md R147). -/
theorem drawnExponent_range {P : Params} (hq : 2 ≤ P.q) (n : Nat) :
    1 ≤ drawnExponent P n ∧ drawnExponent P n < P.q := by
  have hmod : n % (P.q - 1) < P.q - 1 := Nat.mod_lt _ (by omega)
  unfold drawnExponent
  omega

/-- Every exponent of `[1, q-1]` is what some answer stands for. -/
theorem drawnExponent_pred {P : Params} {x : Nat} (hpos : 1 ≤ x) (hlt : x < P.q) : drawnExponent P (x - 1) = x := by
  rw [drawnExponent, Nat.mod_eq_of_lt (by omega)]
  omega

/-- Settles O15: the answer `x - 1` is supplied, and stands for `x`. -/
theorem genExpWritesTheDrawnExponent : Obligations.GenExpWritesTheDrawnExponent := by
  intro s L x rest ⟨hl, hf⟩ hd hpos hlt hrng
  have hdraw := draw_supplied hrng
  rw [exec_genExp, runDrawing_ok hl (genExp_checks hf hd) (congrArg Prod.fst hdraw), hdraw, genExpResult,
    drawnExponent_pred hpos hlt, complete_ok_eq]

/-- A GEN_EXP that succeeds has written the exponent of some answer. -/
theorem exec_genExp_success {s t : State} {L : Descriptor} (hl : s.latched = some L)
    (hexec : exec .genExp s = .next t) (hok : t.errcode = 0) :
    ∃ n, t = okState L (int2be LP (drawnExponent Config.params n)) (draw s).2 := by
  rw [exec_genExp] at hexec
  obtain ⟨L', hL', hcases⟩ := runDrawing_next hexec
  obtain rfl : L = L' := Option.some.inj (hl.symm.trans hL')
  obtain ⟨c, -, rfl⟩ | ⟨-, -, rfl⟩ | ⟨n, -, -, rfl⟩ := hcases
  · exact absurd hok (complete_err_errcode_ne_zero _ _ _)
  · exact absurd hok (complete_err_errcode_ne_zero _ _ _)
  · exact ⟨n, rfl⟩

theorem intAt_okState {L : Descriptor} {x : Nat} {s : State} (hwf : Memory.wf s.dbuf = true)
    (hx : x < Config.params.p) : intAt (okState L (int2be LP x) s) L.dstAddr = x := by
  have hread : bytesAt (okState L (int2be LP x) s) L.dstAddr LP = int2be LP x := by
    have h := memRead_memWrite (a := L.dstAddr.toNat) (bs := int2be LP x) hwf
    rwa [int2be_length] at h
  rw [intAt, hread, be2int_int2be_lp hx]

/-- Settles O16: the committed exponent is read back, and every answer stands for one in range. -/
theorem genExpNeverCommitsAnExponentOutOfRange : Obligations.GenExpNeverCommitsAnExponentOutOfRange := by
  intro s t L hwf hl hexec hok
  obtain ⟨n, rfl⟩ := exec_genExp_success hl hexec hok
  have hrange := drawnExponent_range Config.params_admissible.q_ge_two n
  rw [intAt_okState (by rwa [draw_dbuf]) (hrange.2.trans Config.params_admissible.q_lt_p)]
  exact hrange

/-- Settles O17: the checks pass, and the answer taken is Fail. -/
theorem failedDrawGivesEntropyAndFatal : Obligations.FailedDrawGivesEntropyAndFatal := by
  intro s L rest ⟨hl, hf⟩ hrng
  have hdraw := draw_supplied hrng
  constructor
  · intro hd
    rw [exec_genExp, runDrawing_fail hl (genExp_checks hf hd) (congrArg Prod.fst hdraw), hdraw, complete_entropy_eq]
  · intro hd h0 h1
    rw [exec_cbcEncrypt, runDrawing_fail hl (encrypt_checks hf hd h0 h1) (congrArg Prod.fst hdraw), hdraw,
      complete_entropy_eq]

/-! ## The hash commands -/

/-- Settles O20: the checks put no bound on the length of the message but DBUF's. -/
theorem sha256WritesTheDigest : Obligations.Sha256WritesTheDigest := by
  intro s L ⟨hl, hf⟩ hd h0
  rw [exec_sha256, runCommand_ok hl (sha256_checks hf hd h0), sha256Result, complete_ok_eq]
  rfl

theorem hmacSha256_checks {s : State} {L : Descriptor} (hf : s.fatal = false) (hd : DestOk L 32)
    (h0 : SourceOk L.src0Addr L.src0Len L.src0Len.toNat L 32) (h1 : SourceOk L.src1Addr L.src1Len 64 L 32) :
    checks Config.params .hmacSha256 s.fatal L = none := by
  obtain ⟨-, hregion0⟩ := h0
  obtain ⟨hlen1, hregion1⟩ := h1
  refine checks_of hf (by simp [FormatBad]) hlen1 hd ?_
  simp only [sourceList, List.mem_cons, List.not_mem_nil, or_false, outputMax]
  rintro r (rfl | rfl)
  · exact hregion0
  · rwa [hlen1]

/-- Settles O22: the nested hash is the definition of the model's `hmac`. -/
theorem hmacWritesTheNestedHash : Obligations.HmacWritesTheNestedHash := by
  intro s L ⟨hl, hf⟩ hd h0 h1
  rw [exec_hmacSha256, runCommand_ok hl (hmacSha256_checks hf hd h0 h1), hmacResult, hmac, complete_ok_eq]
  rfl

/-! ## The CBC commands -/

/-- Every 16-byte string is what some answer stands for (00_scope.md R12). -/
theorem drawnBlock_be2int {iv : Bytes} (h : iv.length = 16) : drawnBlock (be2int iv) = iv := by
  rw [drawnBlock, ← h, int2be_be2int]

/-- Settles O25: the answer `be2int iv` is supplied, stands for `iv`, and the record is laid out by the model. -/
theorem encryptWritesTheRecord : Obligations.EncryptWritesTheRecord := by
  intro s L iv rest ⟨hl, hf⟩ hd h0 h1 hiv hrng K M N C
  have hdraw := draw_supplied hrng
  have hrecord : encryptRecord Config.params K iv M = hmac (K.drop 32) (iv ++ C) ++ iv ++ C := by
    rw [encryptRecord, recordMac, macKey_eq_drop (bytesAt_length _ _ _)]
    rfl
  rw [exec_cbcEncrypt, runDrawing_ok hl (encrypt_checks hf hd h0 h1) (congrArg Prod.fst hdraw), hdraw, cbcEncryptResult,
    drawnBlock_be2int hiv, ← hrecord, complete_ok_eq]
  rfl

/-- Decryption succeeds for an authentic record whose padding is valid (44_cbc_pkcs7.md R225). -/
theorem decryptRecord_of_authentic {P : Params} {K rec : Bytes} (hK : K.length = 96) (hrec : 32 ≤ rec.length)
    (hmac : rec.take 32 = hmac (K.drop 32) (rec.drop 32)) :
    decryptRecord P K rec = unpad16 (cbcDec P (K.take 32) ((rec.drop 32).take 16) (rec.drop 48)) := by
  rw [decryptRecord, if_pos ((recordAuthentic_iff hK hrec).2 hmac)]
  rfl

/-- Settles O26: the record is authentic, so what it unpads to is written. -/
theorem decryptWritesThePlaintext : Obligations.DecryptWritesThePlaintext := by
  intro s L M ⟨hl, hf⟩ hR hmod hd h0 h1 K R hmac hunpad
  have hdecrypt : decryptRecord Config.params K R = some M :=
    (decryptRecord_of_authentic (bytesAt_length _ _ _) (by rw [bytesAt_length]; omega) hmac).trans hunpad
  rw [exec_cbcDecrypt, runCommand_ok hl (decrypt_checks hf hR hmod hd h0 h1), cbcDecryptResult_of_some hdecrypt,
    complete_ok_eq]

/-- Settles O32: `macEqual_iff` at the length of a MAC. -/
theorem macComparisonIsEquality : Obligations.MacComparisonIsEquality :=
  fun _ _ hx hy => macEqual_iff (hx.trans hy.symm)

end Sys2Proof.Proofs.Results

/-! PROOFS. The register window and the lanes of DBUF (10_state.md R22 to R34, 20_memory.md R65). -/

namespace Sys2Proof.Proofs.Registers

open Sys2Proof.Machine Sys2Proof.Claims Sys2Proof.Proofs.HostPort Sys2Proof.Proofs.CommandIssue
  Sys2Proof.Proofs.Control

/-! ## Reads -/

/-- No offset past OUT_LEN is a register. -/
theorem regRead_reserved {off : Nat} (h : 0x034 ≤ off) (P : Params) (s : State) : regRead P s off = 0 := by
  unfold regRead
  repeat rw [if_neg (by omega)]

/-- Settles O48: every aligned offset of the window is a register read, and the map is that of `regRead`. -/
theorem registerReadsFollowTheMap : Obligations.RegisterReadsFollowTheMap :=
  fun P s => ⟨fun _ h ha => portAccess_read_register h ha s, rfl, rfl, rfl, ctrlWord_eq s, rfl, rfl, rfl, rfl, rfl, rfl,
    rfl, rfl, fun _ h => regRead_reserved h P s⟩

/-- The registers that hold state read 0 after reset. -/
theorem regRead_reset {off : Nat} (h : 0x00C ≤ off) (P : Params) : regRead P State.reset off = 0 := by
  unfold regRead
  rw [if_neg (by omega), if_neg (by omega), if_neg (by omega)]
  repeat refine ite_of_both (q := fun w => w = 0) rfl ?_
  rfl

/-- Settles O53: LP and BUF_BYTES fit a word, and every other register is 0. -/
theorem resetValuesOfTheRegisters : Obligations.ResetValuesOfTheRegisters := by
  have hlp := Config.lp_le
  have hbuf := Config.buf_le
  exact ⟨rfl, (BitVec.toNat_ofNat _ _).trans (Nat.mod_eq_of_lt (by omega)),
    (BitVec.toNat_ofNat _ _).trans (Nat.mod_eq_of_lt (by omega)), fun _ h => regRead_reset h _, fun _ => rfl, rfl, rfl⟩

/-! ## Writes -/

/-- Only the offsets from CTRL to DST_LEN take a write. -/
theorem regWrite_ignored {off : Nat} (h : off < 0x00C ∨ 0x030 ≤ off) (v : Word) (s : State) : regWrite off v s = s := by
  unfold regWrite
  repeat rw [if_neg (by omega)]

/-- Settles O49: the six offsets are those of `regWrite`, and the others take no write. -/
theorem registerWritesFollowTheMap : Obligations.RegisterWritesFollowTheMap := by
  intro P v s
  have hwrite {off : Nat} (h : off < 0x1000) (ha : off % 4 = 0) := portAccess_write_register (P := P) h ha v s
  refine ⟨hwrite (by decide) rfl, hwrite (by decide) rfl, hwrite (by decide) rfl, hwrite (by decide) rfl,
    hwrite (by decide) rfl, hwrite (by decide) rfl, fun off h ha hignored => ?_⟩
  rw [hwrite h ha, regWrite_ignored hignored]

/-! ## STATUS -/

/-- The five flags of STATUS, below ERRCODE. -/
theorem flags_toNat (a b c d e : Bool) :
    (flagWord a ||| flagWord b <<< 1 ||| flagWord c <<< 2 ||| flagWord d <<< 3 ||| flagWord e <<< 4).toNat =
      a.toNat + 2 * b.toNat + 4 * c.toNat + 8 * d.toNat + 16 * e.toNat := by
  revert a b c d e
  decide

/-- The flags end below bit 8, so ERRCODE is added to them. -/
theorem or_code_toNat {x : Word} (hx : x.toNat < 2 ^ 8) (code : Byte) :
    (x ||| code.setWidth 32 <<< 8).toNat = x.toNat + 256 * code.toNat := by
  have hcode := code.isLt
  have hshift : (code.setWidth 32 <<< 8 : Word).toNat = code.toNat <<< 8 := by
    rw [BitVec.toNat_shiftLeft, BitVec.toNat_setWidth, Nat.shiftLeft_eq, Nat.mod_eq_of_lt (by omega),
      Nat.mod_eq_of_lt (by omega), Nat.shiftLeft_eq]
  rw [BitVec.toNat_or, hshift, Nat.or_comm, ← Nat.shiftLeft_add_eq_or_of_lt hx, Nat.shiftLeft_eq]
  omega

theorem statusWord_toNat (s : State) :
    (statusWord s).toNat = s.busy.toNat + 2 * s.done.toNat + 4 * s.fatal.toNat + 8 * s.cmdOvr.toNat
      + 16 * s.accErr.toNat + 256 * s.errcode.toNat := by
  have hflags := flags_toNat s.busy s.done s.fatal s.cmdOvr s.accErr
  have hlt (b : Bool) : b.toNat ≤ 1 := Bool.toNat_le b
  have h0 := hlt s.busy
  have h1 := hlt s.done
  have h2 := hlt s.fatal
  have h3 := hlt s.cmdOvr
  have h4 := hlt s.accErr
  rw [statusWord, or_code_toNat (by rw [hflags]; omega), hflags]

/-- A flag is cleared by a 1. -/
theorem and_not_eq_ite (flag bit : Bool) : (flag && !bit) = if bit then false else flag := by
  cases bit <;> simp

/-- Settles O50: the flags and the code lie in disjoint bits, and a write is `clearStatus`. -/
theorem statusPacksTheFlagsAndClearsByOnes : Obligations.StatusPacksTheFlagsAndClearsByOnes := by
  intro P v s
  refine ⟨statusWord_toNat s, ?_⟩
  rw [portAccess_write_register (by decide) (by decide)]
  change (_, clearStatus v s) = _
  rw [clearStatus, and_not_eq_ite, and_not_eq_ite, and_not_eq_ite]

/-! ## The lanes of DBUF -/

theorem dbufRead_idle {s : State} (h : s.busy = false) (a : Nat) (w : Width) :
    dbufRead a w s = (⟨.okay, BitVec.ofNat 32 (lanesRead s.dbuf a (widthBytes w))⟩, s) := by
  rw [dbufRead, if_neg (by simp [h])]

theorem dbufWrite_idle {s : State} (h : s.busy = false) (a : Nat) (w : Width) (v : Word) :
    dbufWrite a w v s =
      (⟨.okay, 0⟩, { s with dbuf := memWrite s.dbuf a (lanesOf v.toNat (widthBytes w)) }) := by
  rw [dbufWrite, if_neg (by simp [h])]

theorem portAccess_read_buffer {P : Params} {s : State} {a : Nat} {w : Width} (h : s.busy = false)
    (ha : a % widthBytes w = 0) (hfit : a + widthBytes w ≤ P.bufBytes) :
    portAccess P (.read (0x10000 + a) w) s = (⟨.okay, BitVec.ofNat 32 (lanesRead s.dbuf a (widthBytes w))⟩, s) := by
  simp only [portAccess, target_of_fits ha hfit, dbufRead_idle h]

theorem portAccess_write_buffer {P : Params} {s : State} {a : Nat} {w : Width} (h : s.busy = false)
    (ha : a % widthBytes w = 0) (hfit : a + widthBytes w ≤ P.bufBytes) (v : Word) :
    portAccess P (.write (0x10000 + a) w v) s =
      (⟨.okay, 0⟩, { s with dbuf := memWrite s.dbuf a (lanesOf v.toNat (widthBytes w)) }) := by
  simp only [portAccess, target_of_fits ha hfit, dbufWrite_idle h]

/-- Lane 0 holds the low byte. -/
theorem lanesRead_byte (m : Memory) (a : Nat) :
    BitVec.ofNat 32 (lanesRead m a 1) = (readByte m a).setWidth 32 := by
  apply BitVec.eq_of_toNat_eq
  simp [lanesRead]

theorem lanesRead_half (m : Memory) (a : Nat) :
    BitVec.ofNat 32 (lanesRead m a 2) = (readByte m (a + 1) ++ readByte m a : BitVec 16).setWidth 32 := by
  apply BitVec.eq_of_toNat_eq
  have happend : (readByte m (a + 1) ++ readByte m a : BitVec 16).toNat = _ := Sha256.toNat_append_byte _ _
  rw [BitVec.toNat_ofNat, BitVec.toNat_setWidth, happend, lanesRead, lanesRead, lanesRead]
  omega

theorem lanesRead_word (m : Memory) (a : Nat) :
    BitVec.ofNat 32 (lanesRead m a 4) =
      readByte m (a + 3) ++ readByte m (a + 2) ++ readByte m (a + 1) ++ readByte m a := by
  apply BitVec.eq_of_toNat_eq
  have h3 := (readByte m (a + 3)).isLt
  simp only [Sha256.toNat_append_byte, BitVec.toNat_ofNat, lanesRead, Nat.add_assoc, Nat.reduceAdd]
  omega

/-- Lane `k` of a written value carries its bits `8k+7:8k`. -/
theorem lanesOf_getElem? : ∀ {w k : Nat} (n : Nat), k < w → (lanesOf n w)[k]? = some (BitVec.ofNat 8 (n / 256 ^ k))
  | w + 1, 0, n, _ => by simp [lanesOf]
  | w + 1, k + 1, n, h => by
    rw [lanesOf, List.getElem?_cons_succ, lanesOf_getElem? (n / 256) (by omega), Nat.div_div_eq_div_mul, ← pow_succ']

theorem ofNat_div_pow_eq_extractLsb' (v : Word) (k : Nat) :
    BitVec.ofNat 8 (v.toNat / 256 ^ k) = v.extractLsb' (8 * k) 8 := by
  apply BitVec.eq_of_toNat_eq
  rw [BitVec.toNat_ofNat, BitVec.extractLsb'_toNat, Nat.shiftRight_eq_div_pow, pow_mul]
  rfl

theorem readByte_written_lane {m : Memory} (hwf : Memory.wf m = true) (a : Nat) (v : Word) {w k : Nat} (hk : k < w) :
    readByte (memWrite m a (lanesOf v.toNat w)) (a + k) = v.extractLsb' (8 * k) 8 := by
  have hinside := readByte_memWrite_inside (a := a) hwf k (by rwa [lanesOf_length v.toNat w])
  rw [lanesOf_getElem? _ hk, ofNat_div_pow_eq_extractLsb'] at hinside
  exact (Option.some.inj hinside).symm

/-- Settles O55: a read is the lanes of its bytes, and a write is its lanes over them. -/
theorem bufferLanesAreLittleEndian : Obligations.BufferLanesAreLittleEndian := by
  intro P s a v hidle hwf
  refine ⟨fun hfit => ?_, fun ha hfit => ?_, fun ha hfit => ?_, fun w ha hfit => ?_⟩
  · rw [portAccess_read_buffer hidle (Nat.mod_one a) hfit, widthBytes, lanesRead_byte]
  · rw [portAccess_read_buffer hidle ha hfit, widthBytes, lanesRead_half]
  · rw [portAccess_read_buffer hidle ha hfit, widthBytes, lanesRead_word]
  · refine ⟨_, portAccess_write_buffer hidle ha hfit v, fun k hk => readByte_written_lane hwf a v hk, fun x hx => ?_⟩
    refine readByte_memWrite_outside ?_
    rw [lanesOf_length]
    unfold Inside at hx
    omega

end Sys2Proof.Proofs.Registers

/-! PROOFS. The key exchange (49_key_exchange_host.md R254 to R258): in values, where the shared power cancels, and over
the block, call by call. -/

namespace Sys2Proof.Proofs.Exchange

open Sys2Proof.Machine Sys2Proof.Claims Sys2Proof.Proofs.Ladder Sys2Proof.Proofs.KeyExchange Sys2Proof.Proofs.Results

/-! ## In values -/

/-- `(g^a)^b · (g^b)^(q-a) = (g^q)^b`, so Alice's factor cancels Bob's (49_key_exchange_host.md section 4). -/
theorem mulmod_shared_cancel {P : Params} (hp : 1 < P.p) (horder : P.g ^ P.q % P.p = 1) {a b k : Nat} (ha : a ≤ P.q)
    (hb : b ≤ P.q) (hk : k < P.p) :
    mulmod P (mulmod P (ladder P (ladder P P.g a) b) k) (ladder P (ladder P P.g b) (P.q - a)) = k := by
  rw [ladder_eq_pow hp _ (lt_two_pow_ladderBits hb), ladder_eq_pow hp _ (lt_two_pow_ladderBits (Nat.sub_le _ _)),
    ladder_eq_pow hp _ (lt_two_pow_ladderBits ha), ladder_eq_pow hp _ (lt_two_pow_ladderBits hb), mulmod, mulmod]
  have hS : (P.g ^ a % P.p) ^ b % P.p ≡ (P.g ^ a) ^ b [MOD P.p] := (Nat.mod_modEq _ _).trans ((Nat.mod_modEq _ _).pow b)
  have hI : (P.g ^ b % P.p) ^ (P.q - a) % P.p ≡ (P.g ^ b) ^ (P.q - a) [MOD P.p] :=
    (Nat.mod_modEq _ _).trans ((Nat.mod_modEq _ _).pow _)
  have hone : P.g ^ P.q ≡ 1 [MOD P.p] := horder.trans (Nat.mod_eq_of_lt hp).symm
  have hexp : (P.g ^ a) ^ b * k * (P.g ^ b) ^ (P.q - a) = (P.g ^ P.q) ^ b * k := by
    rw [mul_right_comm, ← pow_mul, ← pow_mul, ← pow_mul, ← pow_add, mul_comm a b, ← mul_add, Nat.add_sub_of_le ha,
      mul_comm b]
  have hprod : (P.g ^ a % P.p) ^ b % P.p * k % P.p * ((P.g ^ b % P.p) ^ (P.q - a) % P.p) ≡ k [MOD P.p] :=
    calc (P.g ^ a % P.p) ^ b % P.p * k % P.p * ((P.g ^ b % P.p) ^ (P.q - a) % P.p)
        ≡ (P.g ^ a) ^ b * k * (P.g ^ b) ^ (P.q - a) [MOD P.p] :=
          (((Nat.mod_modEq _ _).trans (hS.mul_right k))).mul hI
      _ = (P.g ^ P.q) ^ b * k := hexp
      _ ≡ 1 ^ b * k [MOD P.p] := (hone.pow b).mul_right k
      _ = k := by rw [one_pow, one_mul]
  exact Eq.trans hprod (Nat.mod_eq_of_lt hk)

theorem decodeKey_encodeKey {P : Params} {K : Bytes} (hK : K.length = 96) : decodeKey P (encodeKey P K) = K := by
  rw [decodeKey, encodeKey, List.drop_left' List.length_replicate, ← hK, List.take_length]

/-- The byte form of an encoded key's integer is the encoding. -/
theorem int2be_be2int_encodeKey {P : Params} (hP : P.Admissible) {K : Bytes} (hK : K.length = 96) :
    int2be P.lp (be2int (encodeKey P K)) = encodeKey P K := by
  have h := int2be_be2int (encodeKey P K)
  rwa [encodeKey_length hP hK] at h

/-- An encoded key is an operand in range (49_key_exchange_host.md R254). -/
theorem be2int_encodeKey_lt {P : Params} (hP : P.Admissible) {K : Bytes} (hK : K.length = 96) :
    be2int (encodeKey P K) < P.p := by
  obtain ⟨-, -, -, -, -, -, h⟩ := encodedKeyIsAGroupElement P K hP hK
  exact h

theorem aliceValue_bobValues {P : Params} (hP : P.Admissible) {K : Bytes} (hK : K.length = 96) {a b : Nat}
    (ha : a ≤ P.q) (hb : b ≤ P.q) : aliceValue P a (bobValues P (ladder P P.g a) b K) = K := by
  simp only [aliceValue, bobValues]
  rw [mulmod_shared_cancel hP.one_lt_p hP.g_order ha hb (be2int_encodeKey_lt hP hK), int2be_be2int_encodeKey hP hK,
    decodeKey_encodeKey hK]

/-- Settles O58: the shared power cancels, and the ladder and the multiplier reduce modulo `p`. -/
theorem exchangeDeliversBobsKey : Obligations.ExchangeDeliversBobsKey := by
  intro P a b K hP hK _ ha _ hb
  have hp := hP.one_lt_p
  exact ⟨aliceValue_bobValues hP hK ha.le hb.le, ladder_lt hp _ _, ladder_lt hp _ _, mulmod_lt (by omega) _ _⟩

/-! ## The terms of the statement -/

theorem free_iff_idle (s : State) : Free s ↔ Idle s :=
  ⟨fun ⟨h1, h2, h3⟩ => ⟨h1, h2, h3⟩, fun h => ⟨h.busy, h.fatal, h.wf⟩⟩

theorem zeroed_of_erased {offsets : List Nat} {s : State} (h : Erased offsets s) : Zeroed offsets s :=
  fun a ha k hk => h a ha k hk.1 hk.2

/-- LP is positive, so two regions of LP bytes that share none lie apart. -/
theorem apart_of_shareNoByte {a b : Nat} (h : ShareNoByte a LP b LP) : a + LP ≤ b ∨ b + LP ≤ a := by
  have hlp := Config.lp_ge
  have hapart := overlaps_false_iff.1 ((shareNoByte_iff a LP b LP).1 h)
  simp only at hapart
  omega

theorem apart_of_separate {c : HostChoice} (h : Separate c) : c.Apart := by
  obtain ⟨h0, h1, hd, hs, hr0, hr1⟩ := h
  exact ⟨h0, h1, hd, apart_of_shareNoByte hs, apart_of_shareNoByte hr0, apart_of_shareNoByte hr1⟩

/-! ## Calls -/

section
variable {c : HostChoice} (hc : c.Apart) {s : State} (hs : Idle s) {s0 s1 : Bytes}
include hc

/-- The operands of a call are the strings the host has written. -/
theorem operands_called (i : Instr) {D : Memory} (h0 : memRead D c.a0 Config.params.lp = s0)
    (h1 : memRead D c.a1 Config.params.lp = s1) :
    operand0 Config.params (callDescriptor i c) D = be2int s0 ∧
      operand1 Config.params (callDescriptor i c) D = be2int s1 := by
  simp only [operand0, operand1, callDescriptor, toNat_of_fits hc.a0_fits, toNat_of_fits hc.a1_fits, h0, h1, and_self]

include hs

theorem call_modexp (h0 : s0.length = LP) (h1 : s1.length = LP) (hbase : be2int s0 < Config.params.p) :
    ∃ s', call .modexp c s0 s1 s = .ok (int2be LP (ladder Config.params (be2int s0) (be2int s1))) s' ∧ Idle s' ∧
      s'.rng = s.rng := by
  obtain ⟨s', h, hi, hr, -⟩ := call_ok (.inl rfl) hc hs h0 h1 exec_modexp (fun D hr0 hr1 => by
    obtain ⟨e0, e1⟩ := operands_called hc .modexp hr0 hr1
    exact modexpResult_eq_ok_iff.2 ⟨e0 ▸ hbase, by rw [e0, e1]⟩) (int2be_length _ _)
  exact ⟨s', h, hi, hr⟩

theorem call_modexpInv (h0 : s0.length = LP) (h1 : s1.length = LP) (hbase : be2int s0 < Config.params.p)
    (hpos : 1 ≤ be2int s1) (hlt : be2int s1 < Config.params.q) :
    ∃ s', call .modexpInv c s0 s1 s =
        .ok (int2be LP (ladder Config.params (be2int s0) (Config.params.q - be2int s1))) s' ∧ Idle s' ∧
      s'.rng = s.rng := by
  obtain ⟨s', h, hi, hr, -⟩ := call_ok (.inr (.inl rfl)) hc hs h0 h1 exec_modexpInv (fun D hr0 hr1 => by
    obtain ⟨e0, e1⟩ := operands_called hc .modexpInv hr0 hr1
    exact modexpInvResult_eq_ok_iff.2 ⟨e0 ▸ hbase, e1 ▸ ⟨hpos, hlt⟩, by rw [e0, e1]⟩) (int2be_length _ _)
  exact ⟨s', h, hi, hr⟩

theorem call_modmul (h0 : s0.length = LP) (h1 : s1.length = LP) (hx : be2int s0 < Config.params.p)
    (hy : be2int s1 < Config.params.p) :
    ∃ s', call .modmul c s0 s1 s = .ok (int2be LP (mulmod Config.params (be2int s0) (be2int s1))) s' ∧ Idle s' ∧
      s'.rng = s.rng := by
  obtain ⟨s', h, hi, hr, -⟩ := call_ok (.inr (.inr rfl)) hc hs h0 h1 exec_modmul (fun D hr0 hr1 => by
    obtain ⟨e0, e1⟩ := operands_called hc .modmul hr0 hr1
    rw [modmulResult_ok (e0 ▸ hx) (e1 ▸ hy), e0, e1]) (int2be_length _ _)
  exact ⟨s', h, hi, hr⟩

/-- A base that is no group element stops MODEXP with RANGE. -/
theorem call_modexp_range (h0 : s0.length = LP) (h1 : s1.length = LP) (hbase : Config.params.p ≤ be2int s0) :
    ∃ s', call .modexp c s0 s1 s = .error (.code 0x06) s' ∧ Idle s' ∧ s'.errcode = 0x06 ∧ s'.rng = s.rng := by
  obtain ⟨s', h, hi, -, hcode, hr, -⟩ := call_err (.inl rfl) hc hs h0 h1 exec_modexp (e := .range) (fun D hr0 hr1 => by
    obtain ⟨e0, -⟩ := operands_called hc .modexp hr0 hr1
    exact if_pos (e0 ▸ hbase)) (by decide)
  exact ⟨s', h, hi, hcode, hr⟩

end

/-! ## Procedures -/

/-- The secret exponent that the oracle's answer `n` stands for. -/
def secretOf (n : Nat) : Nat := drawnExponent Config.params n

/-- The public value of that exponent: `A` on Alice's side, `B` on Bob's. -/
def publicOf (n : Nat) : Nat := ladder Config.params Config.params.g (secretOf n)

theorem secretOf_range (n : Nat) : 1 ≤ secretOf n ∧ secretOf n < Config.params.q :=
  drawnExponent_range Config.params_admissible.q_ge_two n

theorem publicOf_lt (n : Nat) : publicOf n < Config.params.p := ladder_lt Config.one_lt_p _ _

theorem be2int_secretOf (n : Nat) : be2int (int2be LP (secretOf n)) = secretOf n :=
  be2int_int2be_lp ((secretOf_range n).2.trans Config.params_admissible.q_lt_p)

theorem be2int_generator : be2int (int2be LP Config.params.g) = Config.params.g :=
  be2int_int2be_lp Config.params_admissible.g_lt_p

theorem be2int_ladder (base e : Nat) :
    be2int (int2be LP (ladder Config.params base e)) = ladder Config.params base e :=
  be2int_int2be_lp (ladder_lt Config.one_lt_p _ _)

/-- The call that makes a public value. -/
theorem call_public {c : HostChoice} (hc : c.Apart) {s : State} (hs : Idle s) (n : Nat) :
    ∃ s', call .modexp c (int2be LP Config.params.g) (int2be LP (secretOf n)) s = .ok (int2be LP (publicOf n)) s' ∧
      Idle s' ∧ s'.rng = s.rng := by
  have h := call_modexp hc hs (int2be_length _ Config.params.g) (int2be_length _ (secretOf n))
    (be2int_generator.trans_lt Config.params_admissible.g_lt_p)
  rwa [be2int_generator, be2int_secretOf] at h

/-- `Alice.generate()` on the answer `x`. -/
theorem aliceGenerate_ok {cg cp : HostChoice} (hg : cg.Apart) (hp : cp.Apart) {s : State} (hs : Idle s) {x : Nat}
    {rest : List (Option Nat)} (hrng : s.rng = some x :: rest) :
    ∃ s', aliceGenerate cg cp s = .ok (int2be LP (secretOf x), int2be LP (publicOf x)) s' ∧ Idle s' ∧ s'.rng = rest ∧
      Erased [cg.ad, cp.a1] s' := by
  obtain ⟨s1, h1, hi1, hr1, -⟩ := callGenExp_ok hg hs hrng
  obtain ⟨s2, h2, hi2, hr2⟩ := call_public hp hi1 x
  have hbody := bind_ok (f := fun A => (pure (int2be LP (secretOf x), A) : Procedure (Bytes × Bytes))) h2
  obtain ⟨s3, h3, hi3, hr3, herased⟩ := thenErase_ok (offsets := [cg.ad, cp.a1]) hbody hi2
    (by simp [hg.ad_fits, hp.a1_fits])
  exact ⟨s3, (bind_ok h1).trans h3, hi3, by rw [hr3, hr2, hr1], herased⟩

/-- `Bob.encrypt_for_alice` once `b` is drawn. -/
def bobBody (cb cs cm : HostChoice) (K A b : Bytes) : Procedure Bytes := do
  let B ← call .modexp cb (int2be Config.params.lp Config.params.g) b
  let S ← call .modexp cs A b
  let C ← call .modmul cm S (encodeKey Config.params K)
  return ephemeralWire B C

/-- `Bob.encrypt_for_alice` draws `b` and then runs `bobBody`, with Bob's secrets removed after it. -/
theorem bobEncrypt_draws {cg : HostChoice} (cb cs cm : HostChoice) (hg : cg.Apart) {u : State} (hu : Idle u) {y : Nat}
    {rest : List (Option Nat)} (hrng : u.rng = some y :: rest) (K : Bytes) {A : Bytes} (hA : A.length = LP) :
    ∃ u1, Idle u1 ∧ u1.rng = rest ∧ bobEncrypt cg cb cs cm K A u =
      thenErase [cg.ad, cb.a1, cs.a1, cs.ad, cm.a0]
        (bobBody cb cs cm K A (int2be LP (secretOf y))) u1 := by
  obtain ⟨u1, h1, hi1, hr1, -⟩ := callGenExp_ok hg hu hrng
  refine ⟨u1, hi1, hr1, ?_⟩
  rw [bobEncrypt, if_neg (not_not.2 hA), bind_ok h1]
  rfl

section
variable {cb cs cm : HostChoice} (hb : cb.Apart) (hsh : cs.Apart) (hm : cm.Apart) {u : State} (hu : Idle u)
include hb hsh hu

/-- A public key that is no group element stops Bob at the second MODEXP. -/
theorem bobBody_range (K : Bytes) {A : Bytes} (hA : A.length = LP) (hrange : Config.params.p ≤ be2int A) (y : Nat) :
    ∃ u', bobBody cb cs cm K A (int2be LP (secretOf y)) u = .error (.code 0x06) u' ∧ Idle u' ∧
      u'.errcode = 0x06 ∧ u'.rng = u.rng := by
  obtain ⟨u1, h1, hi1, hr1⟩ := call_public hb hu y
  obtain ⟨u2, h2, hi2, hcode, hr2⟩ := call_modexp_range hsh hi1 hA (int2be_length _ _) hrange
  exact ⟨u2, (bind_ok h1).trans (bind_error h2), hi2, hcode, hr2.trans hr1⟩

include hm

/-- Bob's message under a public key in range: the wire form of `bobValues` (49_key_exchange_host.md R253, R257). -/
theorem bobBody_ok {K : Bytes} (hK : K.length = 96) {A : Nat} (hA : A < Config.params.p) (y : Nat) :
    ∃ u', bobBody cb cs cm K (int2be LP A) (int2be LP (secretOf y)) u =
        .ok (ephemeralWire (int2be LP (bobValues Config.params A (secretOf y) K).1)
          (int2be LP (bobValues Config.params A (secretOf y) K).2)) u' ∧
      Idle u' ∧ u'.rng = u.rng := by
  have hA' : be2int (int2be LP A) = A := be2int_int2be_lp hA
  obtain ⟨u1, h1, hi1, hr1⟩ := call_public hb hu y
  obtain ⟨u2, h2, hi2, hr2⟩ := call_modexp hsh hi1 (int2be_length _ A) (int2be_length _ (secretOf y)) (hA'.trans_lt hA)
  rw [hA', be2int_secretOf] at h2
  obtain ⟨u3, h3, hi3, hr3⟩ := call_modmul hm hi2 (int2be_length _ (ladder Config.params A (secretOf y)))
    (encodeKey_length Config.params_admissible hK) ((be2int_ladder _ _).trans_lt (ladder_lt Config.one_lt_p _ _))
    (be2int_encodeKey_lt Config.params_admissible hK)
  rw [be2int_ladder] at h3
  refine ⟨u3, ?_, hi3, hr3.trans (hr2.trans hr1)⟩
  rw [bobBody, bind_ok h1, bind_ok h2, bind_ok h3]
  rfl

end

/-- `Alice.extract_shared_secret` of a message of two group elements (49_key_exchange_host.md R258). -/
theorem aliceExtract_ok {ci cm : HostChoice} (hi : ci.Apart) (hm : cm.Apart) {v : State} (hv : Idle v) {B C : Nat}
    (hB : B < Config.params.p) (hC : C < Config.params.p) (x : Nat) :
    ∃ v', aliceExtract ci cm (int2be LP (secretOf x)) (ephemeralWire (int2be LP B) (int2be LP C)) v =
        .ok (aliceValue Config.params (secretOf x) (B, C)) v' ∧
      Idle v' ∧ v'.rng = v.rng ∧ Erased [ci.a1] v' := by
  have hB' : be2int (int2be LP B) = B := be2int_int2be_lp hB
  have hC' : be2int (int2be LP C) = C := be2int_int2be_lp hC
  obtain ⟨hpos, hlt⟩ := secretOf_range x
  have htake : (ephemeralWire (int2be LP B) (int2be LP C)).take LP = int2be LP B := List.take_left' (int2be_length _ _)
  have hdrop : (ephemeralWire (int2be LP B) (int2be LP C)).drop LP = int2be LP C := List.drop_left' (int2be_length _ _)
  have hlen : (ephemeralWire (int2be LP B) (int2be LP C)).length = 2 * LP := by
    rw [ephemeralWire, List.length_append, int2be_length, int2be_length, two_mul]
  obtain ⟨v1, h1, hi1, hr1⟩ := call_modexpInv hi hv (int2be_length _ B) (int2be_length _ (secretOf x))
    (hB'.trans_lt hB) (by rwa [be2int_secretOf]) (by rwa [be2int_secretOf])
  rw [hB', be2int_secretOf] at h1
  obtain ⟨v2, h2, hi2, hr2⟩ := call_modmul hm hi1 (int2be_length _ C)
    (int2be_length _ (ladder Config.params B (Config.params.q - secretOf x))) (hC'.trans_lt hC)
    ((be2int_ladder _ _).trans_lt (ladder_lt Config.one_lt_p _ _))
  rw [hC', be2int_ladder] at h2
  have hbody := (bind_ok (f := fun I => call .modmul cm (int2be LP C) I >>= fun M =>
    pure (decodeKey Config.params M)) h1).trans (bind_ok h2)
  obtain ⟨v3, h3, hi3, hr3, herased⟩ := thenErase_ok (offsets := [ci.a1]) hbody hi2 (by simp [hi.a1_fits])
  refine ⟨v3, ?_, hi3, hr3.trans (hr2.trans hr1), herased⟩
  rw [aliceExtract, if_neg (not_not.2 hlen), htake, hdrop]
  exact h3

/-- Settles O59: each party's calls in turn compute the values of O58, and a public key out of range stops Bob's second
MODEXP. -/
theorem exchangeOverTheBlockDeliversBobsKey : Obligations.ExchangeOverTheBlockDeliversBobsKey := by
  intro ag ap bg bb bs bm ei em s u v x y rest rest' K hsep hs hu hv hrs hru hK
  have hapart : ∀ c ∈ [ag, ap, bg, bb, bs, bm, ei, em], c.Apart := fun c hc => apart_of_separate (hsep c hc)
  simp only [List.forall_mem_cons] at hapart
  obtain ⟨hag, hap, hbg, hbb, hbs, hbm, hei, hem, -⟩ := hapart
  rw [free_iff_idle] at hs hu hv
  simp only [free_iff_idle]
  have hfit : ∀ a ∈ [bg.ad, bb.a1, bs.a1, bs.ad, bm.a0], a + Config.params.lp ≤ Config.params.bufBytes := by
    simp [hbg.ad_fits, hbb.a1_fits, hbs.a1_fits, hbs.ad_fits, hbm.a0_fits]
  constructor
  · obtain ⟨hpos, hlt⟩ := secretOf_range x
    obtain ⟨hpos', hlt'⟩ := secretOf_range y
    obtain ⟨hkey, -, hB, hC⟩ := exchangeDeliversBobsKey Config.params (secretOf x) (secretOf y) K
      Config.params_admissible hK hpos hlt hpos' hlt'
    obtain ⟨s', halice, hs', hrs', hzs⟩ := aliceGenerate_ok hag hap hs hrs
    obtain ⟨u1, hu1, hru1, hbob⟩ := bobEncrypt_draws bb bs bm hbg hu hru K (int2be_length LP (publicOf x))
    obtain ⟨u2, hbody, hu2, hru2⟩ := bobBody_ok hbb hbs hbm hu1 hK (publicOf_lt x) y
    obtain ⟨u', herase, hu', hru', hzu⟩ := thenErase_ok hbody hu2 hfit
    obtain ⟨v', hextract, hv', hrv', hzv⟩ := aliceExtract_ok hei hem hv hB hC x
    rw [Prod.mk.eta, hkey] at hextract
    exact ⟨_, _, _, s', u', v', halice, hbob.trans herase, hextract, rfl, hs', hu', hv', hrs',
      hru'.trans (hru2.trans hru1), hrv', zeroed_of_erased hzs, zeroed_of_erased hzu, zeroed_of_erased hzv⟩
  · intro A hA hrange
    obtain ⟨u1, hu1, hru1, hbob⟩ := bobEncrypt_draws bb bs bm hbg hu hru K hA
    obtain ⟨u2, hbody, hu2, hcode, hru2⟩ := bobBody_range (cm := bm) hbb hbs hu1 K hA hrange y
    obtain ⟨u', herase, hu', hru', hcode', hzu⟩ := thenErase_error hbody hu2 hfit
    exact ⟨u', hbob.trans herase, hu', hcode'.trans hcode, hru'.trans (hru2.trans hru1), zeroed_of_erased hzu⟩

end Sys2Proof.Proofs.Exchange

/-! PROOFS. The host's boot sequence (70_reset_and_hazards.md R305): a chain of reads, each with its check. -/

namespace Sys2Proof.Proofs.Boot

open Sys2Proof.Machine Sys2Proof.Claims Sys2Proof.Proofs.Control Sys2Proof.Proofs.Registers

/-- From `s` the procedure `x` succeeds exactly where `fits` holds, with IRQ_EN as the host uses it, and stops as
malformed where it does not; nothing else but the environment changes. -/
structure Boots (useIrq : Bool) (x : Procedure Unit) (fits : Prop) (s : State) : Prop where
  succeeds : fits → ∃ r, x s = .ok () { s with turns := [], reply := r, irqEn := s.irqEn || useIrq }
  stops : ¬fits → ∃ r, x s = .error .malformed { s with turns := [], reply := r }

/-- A register read takes its turn and leaves its answer. -/
theorem hostRead_register_env {off : Nat} (h : off < 0x1000) (ha : off % 4 = 0) (s : State) :
    ∃ r, hostRead off .word s = .ok (regRead Config.params s off) (env [] r s) := by
  refine ⟨some ⟨.okay, regRead Config.params s off⟩, hostRead_ok ?_ rfl⟩
  rw [perform_host, hostAccess, portAccess_read_register h ha]
  rfl

/-- A read in front of a sequence, with a check that says `holds` of the register read. -/
theorem boots_of_read {useIrq : Bool} {off : Nat} (h : off < 0x1000) (ha : off % 4 = 0) {test : Word → Bool}
    {x : Procedure Unit} {holds fits : Prop} {s : State} (htest : test (regRead Config.params s off) = true ↔ holds)
    (hx : ∀ r, Boots useIrq x fits (env [] r s)) :
    Boots useIrq (hostRead off .word >>= fun v => bootCheck (test v) >>= fun _ => x) (holds ∧ fits) s := by
  obtain ⟨r, hread⟩ := hostRead_register_env h ha s
  have hbind := bind_ok (f := fun v => bootCheck (test v) >>= fun _ => x) hread
  rw [← htest]
  cases hcheck : test (regRead Config.params s off) with
  | true =>
    rw [bootCheck_then _ _ hcheck] at hbind
    refine ⟨fun hfits => ?_, fun hfits => ?_⟩
    · obtain ⟨r', hok⟩ := (hx r).succeeds hfits.2
      exact ⟨r', hbind.trans hok⟩
    · obtain ⟨r', hstop⟩ := (hx r).stops fun hf => hfits ⟨rfl, hf⟩
      exact ⟨r', hbind.trans hstop⟩
  | false =>
    rw [bootCheck_stops _ _ hcheck] at hbind
    exact ⟨fun hfits => (by simp at hfits), fun _ => ⟨r, hbind⟩⟩

/-- The last step enables the interrupt where the host uses it. -/
theorem boots_enable (useIrq : Bool) (r : Option Reply) (s : State) :
    Boots useIrq (if useIrq then perform (wr 0x00C 0x2) else pure ()) True (env [] r s) := by
  refine ⟨fun _ => ?_, fun h => absurd trivial h⟩
  cases useIrq with
  | true =>
    refine ⟨some ⟨.okay, 0⟩, ?_⟩
    rw [if_pos rfl, perform_wr _ _ (by decide) rfl, regWrite_ctrl, writeCtrl_no_reset (by decide), Bool.or_true]
    rfl
  | false =>
    refine ⟨r, ?_⟩
    rw [Bool.or_false]
    rfl

/-! ## The flags of STATUS -/

theorem flagWord_getElem (b : Bool) (k : Nat) (h : k < 32) : (flagWord b)[k] = (decide (k = 0) && b) := by
  cases b <;> simp [flagWord]

theorem statusWord_busy (s : State) : (statusWord s).getLsbD 0 = s.busy := by
  simp [statusWord, flagWord_getElem]

theorem statusWord_fatal (s : State) : (statusWord s).getLsbD 2 = s.fatal := by
  simp [statusWord, flagWord_getElem]

/-! ## The sequence -/

theorem identity_check (s : State) : ((regRead Config.params s 0x000).extractLsb' 8 24 == 0x545201) = true := by
  rw [show regRead Config.params s 0x000 = idValue from rfl]
  decide

theorem width_check_iff (width : Nat) (s : State) :
    ((regRead Config.params s 0x004).toNat == width) = true ↔ width = LP := by
  rw [show regRead Config.params s 0x004 = BitVec.ofNat 32 LP from rfl, beq_iff_eq, toNat_lp, eq_comm]

theorem size_check_iff (need : Nat) (s : State) :
    decide (need ≤ (regRead Config.params s 0x008).toNat) = true ↔ need ≤ BUF := by
  rw [show regRead Config.params s 0x008 = BitVec.ofNat 32 BUF from rfl, decide_eq_true_iff,
    toNat_of_fits (k := 0) le_rfl]

theorem status_check_iff (s : State) :
    (!(regRead Config.params s 0x010).getLsbD 0 && !(regRead Config.params s 0x010).getLsbD 2) = true ↔
      s.busy = false ∧ s.fatal = false := by
  rw [show regRead Config.params s 0x010 = statusWord s from rfl, statusWord_busy, statusWord_fatal]
  simp

/-- What the host and the block must be for the sequence to succeed. -/
def BootFits (width need : Nat) (s : State) : Prop := width = LP ∧ need ≤ BUF ∧ s.busy = false ∧ s.fatal = false

theorem hostBoot_boots (width need : Nat) (useIrq : Bool) (s : State) :
    Boots useIrq (hostBoot width need useIrq) (BootFits width need s) s := by
  have hchain : Boots useIrq (hostBoot width need useIrq)
      (True ∧ width = LP ∧ need ≤ BUF ∧ (s.busy = false ∧ s.fatal = false) ∧ True) s :=
    boots_of_read (by decide) rfl (test := fun v => v.extractLsb' 8 24 == 0x545201) (iff_true_intro (identity_check s))
      fun _ => boots_of_read (by decide) rfl (test := fun v => v.toNat == width) (width_check_iff width _)
        fun _ => boots_of_read (by decide) rfl (test := fun v => decide (need ≤ v.toNat)) (size_check_iff need _)
          fun _ => boots_of_read (by decide) rfl (test := fun v => !v.getLsbD 0 && !v.getLsbD 2) (status_check_iff _)
            fun r => boots_enable useIrq r s
  rw [true_and, and_true] at hchain
  exact hchain

/-- Settles O60: `hostBoot_boots` in each direction, and at the reset state. -/
theorem bootSucceedsAfterReset : Obligations.BootSucceedsAfterReset := by
  refine ⟨?_, ?_, ?_⟩
  · intro width need useIrq s hwidth hneed hbusy hfatal
    exact (hostBoot_boots width need useIrq s).succeeds ⟨hwidth, hneed, hbusy, hfatal⟩
  · intro width need useIrq s hbad
    refine (hostBoot_boots width need useIrq s).stops ?_
    rintro ⟨hwidth, hneed, hbusy, hfatal⟩
    obtain h | h | h | h := hbad
    · exact h hwidth
    · exact absurd hneed (by omega)
    · simp [hbusy] at h
    · simp [hfatal] at h
  · intro need useIrq hneed
    obtain ⟨r, hboot⟩ := (hostBoot_boots LP need useIrq State.reset).succeeds ⟨rfl, hneed, rfl, rfl⟩
    exact ⟨_, hboot, Bool.false_or useIrq, rfl, rfl⟩

end Sys2Proof.Proofs.Boot
